-- ==== Sys2Proof/Word.lean ====
section
/-!
DEFINITION. The word types of modular_adder (spec/00_scope.md R8, R9; spec/10_state.md R30, R38-R43). Bit 0 is the
least significant bit of every one of them.
-/

namespace Sys2Proof

/-- One 32-bit word: a command word, a bus word, a control register, an element of a field buffer. -/
abbrev Word := BitVec 32

/-- The content of one scalar register x0..x7 (R30). -/
abbrev XReg := BitVec 64

/-- One character of a numeral or of the rendered output (R38, R43). -/
abbrev Byte := BitVec 8

/-- One element of a digit memory or of the result memory: a digit held in 4 bits (R39, R42). -/
abbrev Digit := BitVec 4

/-- The number of one of the eight scalar registers (R30). -/
abbrev Reg := Fin 8

end Sys2Proof
end

