-- ==== Sys2Proof/Config.lean ====
section
/-!
DEFINITION. What an implementation of modular_adder fixes: the one parameter LOGN_MAX with the sizes derived from it
(spec/00_scope.md R5, R6), and the constants of R7 and spec/10_state.md R34. The spec leaves no value free
(spec/93_implementation_defined.md section 1), so there is no free value here.
-/

namespace Sys2Proof

/-- The implementation parameter of R5: 1 ≤ LOGN_MAX ≤ 27. The bounds travel with the number, so that no illegal
configuration can be built. -/
structure Config where
  lognMax : Nat
  one_le  : 1 ≤ lognMax
  le_27   : lognMax ≤ 27
deriving DecidableEq, Repr

/-- The reference configuration of R5: LOGN_MAX = 21. -/
def Config.reference : Config := ⟨21, by decide, by decide⟩

/-- N_MAX of R6: depth of each field buffer, largest transform size. -/
def Config.nMax (c : Config) : Nat := 2 ^ c.lognMax

/-- IN_CAP of R6: bytes in each numeral input memory. -/
def Config.inCap (c : Config) : Nat := c.nMax + 1

/-- DIG_CAP of R6: digits in each decoded digit memory. -/
def Config.digCap (c : Config) : Nat := c.nMax

/-- RES_CAP of R6: digits in the result memory. -/
def Config.resCap (c : Config) : Nat := c.nMax + 1

/-- OUT_CAP of R6: bytes in the rendered output memory. -/
def Config.outCap (c : Config) : Nat := c.nMax + 2

/-- ADDR_W of spec/20_memory.md R70: the width of a host bus address in bits. -/
def Config.addrWidth (c : Config) : Nat := c.lognMax + 7

/-- S of spec/20_memory.md R71: the stride of the sixteen regions in bytes. -/
def Config.stride (c : Config) : Nat := 2 ^ (c.lognMax + 3)

/-- MOD of R7: the prime 15·2^27 + 1. -/
abbrev modulus : Nat := 2013265921

/-- ROOT of R7: a primitive 2^27-th root of unity modulo MOD (spec/90_conflicts.md C1). -/
abbrev root : Nat := 440564289

/-- The constant of the ID register (spec/10_state.md R34). -/
abbrev idWord : Word := 0x4D410001#32

end Sys2Proof
end

