-- ==== Sys2Proof/Syntax.lean ====
section
/-!
DEFINITION. The command set `modular_adder-cmd32-v1` as syntax: one constructor per row of spec/opcode_table.json
(spec/30_encoding.md R106), and the names its operand fields decode to (R102-R105, R109).
-/

namespace Sys2Proof

/-- A field buffer, as a buffer field of formats V and M selects it (R104, R105). -/
inductive Buf where
  | A | B | C
deriving DecidableEq, Repr

/-- A numeral, as the field b0 of PARSE selects it (R104). -/
inductive Numeral where
  | A | B
deriving DecidableEq, Repr

/-- The direction bit d (R102, R104): 0 = forward, 1 = inverse. -/
inductive Dir where
  | fwd | inv
deriving DecidableEq, Repr

/-- The 23 commands of R106, in the table's order. -/
inductive Instr where
  | nop
  | ldi    (ra : Reg) (imm21 : BitVec 21)
  | ldw    (ra rb : Reg) (bs : Buf)
  | stw    (ra rb : Reg) (bs : Buf)
  | madd   (ra rb rc : Reg)
  | msub   (ra rb rc : Reg)
  | mmul   (ra rb rc : Reg)
  | mpow   (ra rb rc : Reg)
  | minv   (ra rb : Reg)
  | mred   (ra rb : Reg)
  | bfly   (ra rb rc : Reg)
  | rootw  (ra rb : Reg) (d : Dir)
  | twid   (ra rb rc : Reg) (d : Dir)
  | bitrev (b0 : Buf)
  | ntt    (b0 : Buf) (d : Dir)
  | setn   (ra : Reg)
  | pad
  | pmul   (b0 b1 b2 : Buf)
  | conv
  | carry  (b0 : Buf)
  | parse  (b0 : Numeral)
  | render
  | mult
deriving DecidableEq, Repr

end Sys2Proof
end

