-- ==== Sys2Proof/WellFormed.lean ====
section
/-!
DEFINITION. Which instructions some legal command word stands for (spec/30_encoding.md R107). The buffer fields, the
numeral field and the register fields cannot hold an illegal value in `Instr`; the one condition left is BFLY's.
-/

namespace Sys2Proof

/-- Condition 4 of R107: for BFLY, ra ≠ rb. -/
def Instr.wellFormed : Instr → Bool
  | .bfly ra rb _ => decide (ra ≠ rb)
  | .nop => true
  | .ldi _ _ => true
  | .ldw _ _ _ => true
  | .stw _ _ _ => true
  | .madd _ _ _ => true
  | .msub _ _ _ => true
  | .mmul _ _ _ => true
  | .mpow _ _ _ => true
  | .minv _ _ => true
  | .mred _ _ => true
  | .rootw _ _ _ => true
  | .twid _ _ _ _ => true
  | .bitrev _ => true
  | .ntt _ _ => true
  | .setn _ => true
  | .pad => true
  | .pmul _ _ _ => true
  | .conv => true
  | .carry _ => true
  | .parse _ => true
  | .render => true
  | .mult => true

end Sys2Proof
end

