-- ==== Sys2Proof/Decode.lean ====
section
/-!
DEFINITION. The command word (spec/30_encoding.md): decoding, legality and encoding. A command is one 32-bit word (R100);
it arrives as a bus word, so no byte order is involved (spec/20_memory.md R75).
-/

namespace Sys2Proof

/-- Why a word is illegal (R107, R108). Every one of them raises E_ILLEGAL. -/
inductive Illegal where
  /-- Condition 1 of R107: the opcode is not listed in R106. -/
  | reservedOpcode
  /-- Condition 2 of R107: a bit marked "must be 0" is 1. -/
  | reservedBits
  /-- Condition 3 of R107: a used buffer field holds 3. -/
  | reservedBuffer
  /-- Condition 4 of R107: BFLY with ra = rb. -/
  | equalRegisters
deriving DecidableEq, Repr

/-- Bits [31:24] (R100). -/
def opcodeOf (w : Word) : BitVec 8 := w.extractLsb' 24 8

/-- The register field whose low bit is `lo` (R102, R103, R105). -/
def regField (w : Word) (lo : Nat) : Reg := ⟨(w.extractLsb' lo 3).toNat, (w.extractLsb' lo 3).isLt⟩

/-- The buffer field whose low bit is `lo` (R104, R105). -/
def bufField (w : Word) (lo : Nat) : Except Illegal Buf :=
  match (w.extractLsb' lo 2).toNat with
  | 0 => .ok .A
  | 1 => .ok .B
  | 2 => .ok .C
  | _ => .error .reservedBuffer

/-- The direction bit at `lo` (R102, R104). -/
def dirField (w : Word) (lo : Nat) : Dir := if w.getLsbD lo then .inv else .fwd

/-- The numeral PARSE's bit 22 selects; its bit 23 is one of the bits that must be 0 (R104, R106). -/
def numeralField (w : Word) : Numeral := if w.getLsbD 22 then .B else .A

/-- `i`, unless a bit of `w` among `len` bits from `lo` is 1 (condition 2 of R107). -/
def zerosThen {α : Type} (w : Word) (lo len : Nat) (i : Except Illegal α) : Except Illegal α :=
  if w.extractLsb' lo len = 0 then i else .error .reservedBits

/-- Decode one command word, by the opcode map of R106. Total: every word is a command or is refused by name. -/
def decode (w : Word) : Except Illegal Instr :=
  let ra := regField w 21
  let rb := regField w 18
  let rc := regField w 15
  match (opcodeOf w).toNat with
  | 0x00 => zerosThen w 0 24 (.ok .nop)
  | 0x01 => .ok (.ldi ra (w.extractLsb' 0 21))
  | 0x02 => zerosThen w 0 16 ((bufField w 16).map fun b => .ldw ra rb b)
  | 0x03 => zerosThen w 0 16 ((bufField w 16).map fun b => .stw ra rb b)
  | 0x10 => zerosThen w 0 15 (.ok (.madd ra rb rc))
  | 0x11 => zerosThen w 0 15 (.ok (.msub ra rb rc))
  | 0x12 => zerosThen w 0 15 (.ok (.mmul ra rb rc))
  | 0x13 => zerosThen w 0 15 (.ok (.mpow ra rb rc))
  | 0x14 => zerosThen w 0 18 (.ok (.minv ra rb))
  | 0x15 => zerosThen w 0 18 (.ok (.mred ra rb))
  | 0x20 => zerosThen w 0 15 (if ra = rb then .error .equalRegisters else .ok (.bfly ra rb rc))
  | 0x21 => zerosThen w 15 3 (zerosThen w 0 14 (.ok (.rootw ra rb (dirField w 14))))
  | 0x22 => zerosThen w 0 14 (.ok (.twid ra rb rc (dirField w 14)))
  | 0x23 => zerosThen w 0 22 ((bufField w 22).map fun b => .bitrev b)
  | 0x24 => zerosThen w 18 4 (zerosThen w 0 17 ((bufField w 22).map fun b => .ntt b (dirField w 17)))
  | 0x30 => zerosThen w 0 21 (.ok (.setn ra))
  | 0x31 => zerosThen w 0 24 (.ok .pad)
  | 0x32 => zerosThen w 0 18 (do
      let b0 ← bufField w 22
      let b1 ← bufField w 20
      let b2 ← bufField w 18
      return .pmul b0 b1 b2)
  | 0x33 => zerosThen w 0 24 (.ok .conv)
  | 0x40 => zerosThen w 0 22 ((bufField w 22).map fun b => .carry b)
  | 0x50 => zerosThen w 23 1 (zerosThen w 0 22 (.ok (.parse (numeralField w))))
  | 0x51 => zerosThen w 0 24 (.ok .render)
  | 0x60 => zerosThen w 0 24 (.ok .mult)
  | _ => .error .reservedOpcode

/-! ### The encoder, from the same formats (R101-R106) -/

/-- The value of a buffer field (R104). -/
def Buf.code : Buf → Nat
  | .A => 0
  | .B => 1
  | .C => 2

/-- The value of PARSE's field b0 (R104). -/
def Numeral.code : Numeral → Nat
  | .A => 0
  | .B => 1

/-- The value of the direction bit (R102, R104). -/
def Dir.code : Dir → Nat
  | .fwd => 0
  | .inv => 1

/-- Format N (R101). -/
def formatN (op : Nat) : Word := BitVec.ofNat 32 (op * 2 ^ 24)

/-- Format R (R102); a field a command does not use is 0. -/
def formatR (op ra rb rc d : Nat) : Word :=
  BitVec.ofNat 32 (op * 2 ^ 24 + ra * 2 ^ 21 + rb * 2 ^ 18 + rc * 2 ^ 15 + d * 2 ^ 14)

/-- Format I (R103). -/
def formatI (op ra imm : Nat) : Word := BitVec.ofNat 32 (op * 2 ^ 24 + ra * 2 ^ 21 + imm)

/-- Format V (R104); a field a command does not use is 0. -/
def formatV (op b0 b1 b2 d : Nat) : Word :=
  BitVec.ofNat 32 (op * 2 ^ 24 + b0 * 2 ^ 22 + b1 * 2 ^ 20 + b2 * 2 ^ 18 + d * 2 ^ 17)

/-- Format M (R105). -/
def formatM (op ra rb bs : Nat) : Word :=
  BitVec.ofNat 32 (op * 2 ^ 24 + ra * 2 ^ 21 + rb * 2 ^ 18 + bs * 2 ^ 16)

/-- The command word of an instruction (R101-R106). -/
def encode : Instr → Word
  | .nop => formatN 0x00
  | .ldi ra imm21 => formatI 0x01 ra imm21.toNat
  | .ldw ra rb bs => formatM 0x02 ra rb bs.code
  | .stw ra rb bs => formatM 0x03 ra rb bs.code
  | .madd ra rb rc => formatR 0x10 ra rb rc 0
  | .msub ra rb rc => formatR 0x11 ra rb rc 0
  | .mmul ra rb rc => formatR 0x12 ra rb rc 0
  | .mpow ra rb rc => formatR 0x13 ra rb rc 0
  | .minv ra rb => formatR 0x14 ra rb 0 0
  | .mred ra rb => formatR 0x15 ra rb 0 0
  | .bfly ra rb rc => formatR 0x20 ra rb rc 0
  | .rootw ra rb d => formatR 0x21 ra rb 0 d.code
  | .twid ra rb rc d => formatR 0x22 ra rb rc d.code
  | .bitrev b0 => formatV 0x23 b0.code 0 0 0
  | .ntt b0 d => formatV 0x24 b0.code 0 0 d.code
  | .setn ra => formatR 0x30 ra 0 0 0
  | .pad => formatN 0x31
  | .pmul b0 b1 b2 => formatV 0x32 b0.code b1.code b2.code 0
  | .conv => formatN 0x33
  | .carry b0 => formatV 0x40 b0.code 0 0 0
  | .parse b0 => formatV 0x50 b0.code 0 0 0
  | .render => formatN 0x51
  | .mult => formatN 0x60

/-! ### Legality, as R107 states it over the table of R106 -/

/-- One row of the opcode map (R106): the opcode, the bits marked "must be 0" (for PARSE, bit 23 among them), where the
used buffer fields begin, and whether ra must differ from rb. -/
abbrev MapRow := Nat × Word × List Nat × Bool

/-- The opcode map of R106. -/
def opcodeMap : List MapRow :=
  [ (0x00, 0x00FFFFFF#32, [], false),
    (0x01, 0x00000000#32, [], false),
    (0x02, 0x0000FFFF#32, [16], false),
    (0x03, 0x0000FFFF#32, [16], false),
    (0x10, 0x00007FFF#32, [], false),
    (0x11, 0x00007FFF#32, [], false),
    (0x12, 0x00007FFF#32, [], false),
    (0x13, 0x00007FFF#32, [], false),
    (0x14, 0x0003FFFF#32, [], false),
    (0x15, 0x0003FFFF#32, [], false),
    (0x20, 0x00007FFF#32, [], true),
    (0x21, 0x0003BFFF#32, [], false) ] ++
  [ (0x22, 0x00003FFF#32, [], false),
    (0x23, 0x003FFFFF#32, [22], false),
    (0x24, 0x003DFFFF#32, [22], false),
    (0x30, 0x001FFFFF#32, [], false),
    (0x31, 0x00FFFFFF#32, [], false),
    (0x32, 0x0003FFFF#32, [22, 20, 18], false),
    (0x33, 0x00FFFFFF#32, [], false),
    (0x40, 0x003FFFFF#32, [22], false),
    (0x50, 0x00BFFFFF#32, [], false),
    (0x51, 0x00FFFFFF#32, [], false),
    (0x60, 0x00FFFFFF#32, [], false) ]

/-- `w` meets the conditions of one row (R107). -/
def MapRow.accepts (r : MapRow) (w : Word) : Bool :=
  decide ((opcodeOf w).toNat = r.1) && decide (w &&& r.2.1 = 0) &&
    r.2.2.1.all (fun lo => decide ((w.extractLsb' lo 2).toNat ≠ 3)) &&
    (!r.2.2.2 || decide (regField w 21 ≠ regField w 18))

/-- `legal(w)` of R107. -/
def legal (w : Word) : Bool := opcodeMap.any (·.accepts w)

/-! ### The host's reading of one opcode-table word -/

/-- The command word whose low `nbits` bits are `w`, every higher bit 0. -/
def tableWord (nbits w : Nat) : Word := BitVec.ofNat 32 (w % 2 ^ nbits)

/-- The instruction the decoder reads from a table word. A command has 32 bits, so nothing longer is one (R100). -/
def decodeTableWord (nbits w : Nat) : Option Instr :=
  if nbits ≤ 32 then (decode (tableWord nbits w)).toOption else none

end Sys2Proof
end

