-- ==== Sys2Proof/Machine/State.lean ====
section
/-!
DEFINITION. The state of modular_adder as plain data (spec/10_state.md R30-R46), the reasons a step can stop
(spec/60_exceptions.md R316), and the state after reset (spec/70_reset_and_hazards.md R340, R341).
-/

namespace Sys2Proof.Machine

open Sys2Proof

/-- The memories of R38-R43, by name. -/
inductive MemId where
  | inA | inB | digA | digB | bufA | bufB | bufC | res | out
deriving DecidableEq, Repr

/-- The content of one memory: its written elements as (index, element), indices strictly rising. An index that is not
listed has no value: no one has written it since reset (R341). -/
abbrev Mem (w : Nat) := List (Nat × BitVec w)

/-- The error codes 1 to 6 of R300. -/
inductive ErrCode where
  | invalidDigit | unsupportedSize | resultOverflow | illegal | operandRange | indexRange
deriving DecidableEq, Repr

/-- Why a step stops (R316). Error codes, dropped commands and overruns are ordinary outcomes, never faults. -/
inductive Fault where
  /-- Raised by a host access to an address that is misaligned, unmapped or outside the address space (R77-R79). Safe: a
  real bus might answer something. -/
  | busError (addr : Nat)
  /-- Raised by a host access made while BUSY = 1, other than those R352 lists. Safe: the chip would go on with one of the
  outcomes R352 names. -/
  | hostRace (addr : Nat)
  /-- Raised by a host read or by a command that reads an element no one has written since reset (R341). Safe: the chip
  would read some value. -/
  | unwritten (m : MemId) (index : Nat)
deriving DecidableEq, Repr

/-- Why a step is refused. -/
inductive Refusal where
  /-- Raised by an arm of `exec` whose command has no meaning yet; at present by none. Safe. -/
  | notModelled (mnemonic : String)
deriving DecidableEq, Repr

/-- What ends a command before its last write: an error code of R300, or a fault of the model. -/
inductive Stop where
  | raise (c : ErrCode)
  | fault (f : Fault)
deriving DecidableEq, Repr

/-- One step of one agent (R15, R350): a host access (R77, R78), a turn of the sequencer (R350), or the external reset
event (R340). -/
inductive Event where
  | hostRead (addr : Nat)
  | hostWrite (addr : Nat) (v : Word)
  | sequencer
  | reset
deriving DecidableEq, Repr

/-- The state of the machine. -/
structure State where
  /-- LOGN_MAX (R5): the model's argument. No step changes it. -/
  cfg : Config
  /-- x0..x7 (R30). -/
  x : Vector XReg 8
  /-- STATUS.ERR (R35, R300); `none` is code 0. -/
  err : Option ErrCode
  /-- STATUS.ERR_OP (R35). -/
  errOp : BitVec 8
  /-- STATUS.BUSY (R35, R36). -/
  busy : Bool
  /-- STATUS.OVR (R35, R36). -/
  ovr : Bool
  /-- CMD_LAST (R34, R36): what a read of CMD returns. -/
  cmdLast : Word
  /-- PEND (R36, R45): the latched command word, read only while BUSY = 1. -/
  pend : Word
  /-- LOGN (R34). -/
  logn : BitVec 5
  /-- IN_LEN_A (R34). -/
  inLenA : Word
  /-- IN_LEN_B (R34). -/
  inLenB : Word
  /-- LEN_A (R34, R39). -/
  lenA : Word
  /-- LEN_B (R34, R39). -/
  lenB : Word
  /-- RES_LEN (R34, R42). -/
  resLen : Word
  /-- OUT_LEN (R34, R43). -/
  outLen : Word
  /-- IN_A (R38). -/
  inA : Mem 8
  /-- IN_B (R38). -/
  inB : Mem 8
  /-- DIG_A (R39). -/
  digA : Mem 4
  /-- DIG_B (R39). -/
  digB : Mem 4
  /-- BUF_A (R40). -/
  bufA : Mem 32
  /-- BUF_B (R40). -/
  bufB : Mem 32
  /-- BUF_C (R40). -/
  bufC : Mem 32
  /-- RES (R42). -/
  res : Mem 4
  /-- OUT (R43). -/
  out : Mem 8
  /-- The MODEL's own field (log entry 2): the interleaving still to come, the next step first (R83, R350). -/
  todo : List Event
  /-- The MODEL's own field (log entry 3): the words the host's reads have returned, newest first (R77). -/
  replies : List Word
deriving DecidableEq, Repr

/-- The state after reset, for any configuration: every register as R340 lists it, no element of any memory with a value
(R341). DESIGN CHOICE (log entries 2, 3): the model's own two fields are empty. -/
def State.resetWith (c : Config) : State where
  cfg := c
  x := Vector.replicate 8 0
  err := none
  errOp := 0
  busy := false
  ovr := false
  cmdLast := 0
  pend := 0
  logn := 0
  inLenA := 0
  inLenB := 0
  lenA := 0
  lenB := 0
  resLen := 0
  outLen := 0
  inA := []
  inB := []
  digA := []
  digB := []
  bufA := []
  bufB := []
  bufC := []
  res := []
  out := []
  todo := []
  replies := []

/-- The machine right after reset, at the reference LOGN_MAX = 21 (R5, R340). -/
def State.reset : State := State.resetWith Config.reference

/-- The outcome of a step of this machine. -/
abbrev Result := Host.Outcome State Fault Refusal

end Sys2Proof.Machine
end

