-- ==== Sys2Proof/Machine/Ops.lean ====
section
/-!
DEFINITION. The named operations over memory and registers, the end of a command, and taking an error: the shared
operations every meaning is written over.
-/

namespace Sys2Proof.Machine

open Sys2Proof

/-! ### One memory -/

/-- The element at index `i`, or none where no one has written it since reset (R87, R341). -/
def Mem.read {w : Nat} : Mem w → Nat → Option (BitVec w)
  | [], _ => none
  | (a, v) :: m, i => if a = i then some v else Mem.read m i

/-- Write the element at index `i`, keeping the indices strictly rising (R10, R87). -/
def Mem.write {w : Nat} : Mem w → Nat → BitVec w → Mem w
  | [], i, v => [(i, v)]
  | (a, u) :: m, i, v =>
    if i < a then (i, v) :: (a, u) :: m
    else if i = a then (i, v) :: m
    else (a, u) :: Mem.write m i v

/-- Write the elements `vs` at the indices `i`, `i + 1`, .... -/
def Mem.writeList {w : Nat} : Mem w → Nat → List (BitVec w) → Mem w
  | m, _, [] => m
  | m, i, v :: vs => Mem.writeList (m.write i v) (i + 1) vs

/-- The canonical form: indices strictly rising. (No entry can equal what an unlisted index reads as: that is no value.) -/
abbrev Mem.wf {w : Nat} (m : Mem w) : Prop := m.Pairwise fun a b => a.1 < b.1

/-! ### Reading inside a command or a host read -/

/-- A read of element `i` of the memory called `id`; an unwritten element faults (R341). -/
def readElem {w : Nat} (id : MemId) (m : Mem w) (i : Nat) : Except Stop (BitVec w) :=
  match m.read i with
  | some v => .ok v
  | none => .error (.fault (.unwritten id i))

/-- The elements `i`, `i + 1`, ..., `count` of them, read in rising order. -/
def readList {w : Nat} (id : MemId) (m : Mem w) : (count i : Nat) → Except Stop (List (BitVec w))
  | 0, _ => .ok []
  | count + 1, i => do
    let v ← readElem id m i
    let vs ← readList id m count (i + 1)
    return v :: vs

/-! ### Registers and buffers -/

/-- `x[r]` (R10, R30). -/
def State.reg (s : State) (r : Reg) : XReg := s.x[r]

/-- `x[r] <- v` (R10, R30). -/
def State.setReg (s : State) (r : Reg) (v : XReg) : State := { s with x := s.x.set r v }

/-- The name of a field buffer's memory. -/
def bufId : Buf → MemId
  | .A => .bufA
  | .B => .bufB
  | .C => .bufC

/-- The memory BUF_b (R40, R109). -/
def State.buf (s : State) : Buf → Mem 32
  | .A => s.bufA
  | .B => s.bufB
  | .C => s.bufC

/-- `s` with `m` in place of BUF_b. -/
def State.setBuf (s : State) (b : Buf) (m : Mem 32) : State :=
  match b with
  | .A => { s with bufA := m }
  | .B => { s with bufB := m }
  | .C => { s with bufC := m }

/-- `n` of a command's pseudocode: 2^LOGN (R10, R14). -/
def State.size (s : State) : Nat := 2 ^ s.logn.toNat

/-- The word a read of element `i` of memory `m` gives: the element zero-extended to 32 bits (spec/20_memory.md R74), or
none where no one has written it since reset (R341). -/
def State.elemWord (s : State) (m : MemId) (i : Nat) : Option Word :=
  match m with
  | .inA => (s.inA.read i).map (·.setWidth 32)
  | .inB => (s.inB.read i).map (·.setWidth 32)
  | .digA => (s.digA.read i).map (·.setWidth 32)
  | .digB => (s.digB.read i).map (·.setWidth 32)
  | .bufA => s.bufA.read i
  | .bufB => s.bufB.read i
  | .bufC => s.bufC.read i
  | .res => (s.res.read i).map (·.setWidth 32)
  | .out => (s.out.read i).map (·.setWidth 32)

/-! ### Issuing a command -/

/-- A host write of `w` to CMD (R36): dropped with OVR set while BUSY = 1, else latched for the sequencer. -/
def State.issue (s : State) (w : Word) : State :=
  if s.busy then { s with cmdLast := w, ovr := true }
  else { s with cmdLast := w, pend := w, busy := true }

/-! ### Taking an error, and clearing one -/

/-- A command raises error code `c` (R302): its writes are discarded, the error and the opcode of PEND are recorded, BUSY
is cleared. `s` is the state from before the command, so discarding the writes is starting from it. -/
def State.raise (s : State) (c : ErrCode) : State :=
  { s with err := some c, errOp := opcodeOf s.pend, busy := false }

/-- A write of `v` to CLEAR (R37, R305): the one way back from an error, beside reset. -/
def State.clear (s : State) (v : Word) : State :=
  { s with
    err := if v.getLsbD 0 then none else s.err
    errOp := if v.getLsbD 0 then 0 else s.errOp
    ovr := if v.getLsbD 1 then false else s.ovr }

/-- The end of a command that began in state `s` (R100, R302): its effect with BUSY cleared, or its error, or a fault of
the model. -/
def finish (s : State) : Except Stop State → Result
  | .ok t => .next { t with busy := false }
  | .error (.raise c) => .next (s.raise c)
  | .error (.fault f) => .fault f

end Sys2Proof.Machine
end

