-- ==== Sys2Proof/Machine/Operands.lean ====
section
/-!
DEFINITION. The operand forms of the commands (spec/30_encoding.md R109) with the checks the command rules put on them:
field-element registers, field-element buffer entries, buffer indices and stages.
-/

namespace Sys2Proof.Machine

open Sys2Proof

/-- The immediate operand `zext_64(imm21)` (R103). -/
def immOperand (imm : BitVec 21) : XReg := imm.setWidth 64

/-- A field element written to a register, `zext_64` of a value below MOD (R162). -/
def fieldWord (v : Nat) : XReg := BitVec.ofNat 64 v

/-- A field element as a buffer word (R40). -/
def bufWord (v : Nat) : Word := BitVec.ofNat 32 v

/-- A value that must be a field element, else E_OPERAND_RANGE (R41, R156-R160). -/
def checkField (v : Nat) : Except Stop Nat :=
  if modulus ≤ v then .error (.raise .operandRange) else .ok v

/-- `x[r]` as a field-element operand (R133, R156-R160, R207). -/
def fieldOperand (s : State) (r : Reg) : Except Stop Nat := checkField (s.reg r).toNat

/-- `x[r]` as a buffer index, else E_INDEX_RANGE (R132, R133). -/
def indexOperand (s : State) (r : Reg) : Except Stop Nat :=
  if s.cfg.nMax ≤ (s.reg r).toNat then .error (.raise .indexRange) else .ok (s.reg r).toNat

/-- `x[r]` as a stage, else E_UNSUPPORTED_SIZE (R208, R209). -/
def stageOperand (s : State) (r : Reg) : Except Stop Nat :=
  if s.cfg.lognMax < (s.reg r).toNat then .error (.raise .unsupportedSize) else .ok (s.reg r).toNat

/-- The buffer entry `i`, checked to be a field element (R41). -/
def fieldElem (id : MemId) (m : Mem 32) (i : Nat) : Except Stop Nat := do
  let v ← readElem id m i
  checkField v.toNat

/-- The buffer entries `i`, `i + 1`, ..., `count` of them in rising order, each checked to be a field element before the
next is read (R41, R205, R250). -/
def fieldList (id : MemId) (m : Mem 32) : (count i : Nat) → Except Stop (List Nat)
  | 0, _ => .ok []
  | count + 1, i => do
    let v ← fieldElem id m i
    let vs ← fieldList id m count (i + 1)
    return v :: vs

end Sys2Proof.Machine
end

