-- ==== Sys2Proof/Machine/Flags.lean ====
section
/-!
DEFINITION. The hardware has no condition codes, flags or predicates (spec/10_state.md R32), so there is no flag
computation. The one word of status bits is STATUS (R35), put together here from the fields State holds.
-/

namespace Sys2Proof.Machine

open Sys2Proof

/-- The number of an error code (R300). -/
def ErrCode.code : ErrCode → Nat
  | .invalidDigit => 1
  | .unsupportedSize => 2
  | .resultOverflow => 3
  | .illegal => 4
  | .operandRange => 5
  | .indexRange => 6

/-- STATUS.ERR as a number; 0 is no error (R35, R300). -/
def State.errField (s : State) : Nat :=
  match s.err with
  | none => 0
  | some c => c.code

/-- The STATUS word (R35): ERR in [3:0], BUSY in [8], OVR in [9], ERR_OP in [23:16], every other bit 0. -/
def State.statusWord (s : State) : Word :=
  BitVec.ofNat 32 (s.errField + s.busy.toNat * 2 ^ 8 + s.ovr.toNat * 2 ^ 9 + s.errOp.toNat * 2 ^ 16)

end Sys2Proof.Machine
end

