-- ==== Sys2Proof/Machine/Modular.lean ====
section
/-!
DEFINITION. The functions of the modular arithmetic unit (spec/41_mod_arith.md R150-R155), as exact integer arithmetic
(R164), and of the transform engine's root scheduler (spec/43_ntt_engine.md R200, R201).
-/

namespace Sys2Proof.Machine

open Sys2Proof

/-- `add_mod` (R150): one conditional subtraction. -/
def addMod (x y : Nat) : Nat := if x + y ≥ modulus then x + y - modulus else x + y

/-- `sub_mod` (R151): no negative intermediate value. -/
def subMod (x y : Nat) : Nat := if x ≥ y then x - y else x + modulus - y

/-- `mul_mod` (R152): the product, then one reduction. -/
def mulMod (x y : Nat) : Nat := x * y % modulus

/-- The square-and-multiply loop of R153, at most `fuel` rounds. -/
def powLoop : (fuel acc a t : Nat) → Nat
  | 0, acc, _, _ => acc
  | fuel + 1, acc, a, t =>
    if t = 0 then acc
    else powLoop fuel (if t % 2 = 1 then mulMod acc a else acc) (mulMod a a) (t / 2)

/-- `power_mod` (R153), for an exponent below 2^64: 64 rounds are enough. The accumulator starts at 1, so that
`power_mod(b, 0) = 1` for every b (D13). -/
def powMod (b e : Nat) : Nat := powLoop 64 1 b e

/-- `inv_mod` (R154): Fermat's exponent; 0 for 0. -/
def invMod (v : Nat) : Nat := powMod v (modulus - 2)

/-- `mod_reduce` (R155). -/
def modReduce (v : Nat) : Nat := v % modulus

/-- `bitrev` (R200): the low `bits` bits of `i` in reverse order. -/
def bitRev (i : Nat) : (bits : Nat) → Nat
  | 0 => 0
  | bits + 1 => i % 2 * 2 ^ bits + bitRev (i / 2) bits

/-- `w_len` (R201): the stage root for len = 2^s. -/
def stageRoot (s : Nat) : Dir → Nat
  | .fwd => powMod root ((modulus - 1) / 2 ^ s)
  | .inv => powMod root ((modulus - 1) - (modulus - 1) / 2 ^ s)

/-- TWROM entry (d, s) (spec/10_state.md R44, R202): the stage root up to LOGN_MAX, 0 above. -/
def twiddleRom (c : Config) (d : Dir) (s : Nat) : Nat := if s ≤ c.lognMax then stageRoot s d else 0

end Sys2Proof.Machine
end

