-- ==== Sys2Proof/Machine/Transfer.lean ====
section
/-!
DEFINITION. The register transfer commands (spec/40_transfer.md R130-R133).
-/

namespace Sys2Proof.Machine

open Sys2Proof

/-- NOP (R130). -/
def execNop (s : State) : Result := finish s (.ok s)

/-- LDI (R131): `x[ra] <- zext_64(imm21)`. -/
def execLdi (ra : Reg) (imm : BitVec 21) (s : State) : Result :=
  finish s (.ok (s.setReg ra (immOperand imm)))

/-- The effect of LDW (R132): the index is checked against N_MAX, the word moves unchecked. -/
def ldwEffect (ra rb : Reg) (bs : Buf) (s : State) : Except Stop State := do
  let idx ← indexOperand s rb
  let v ← readElem (bufId bs) (s.buf bs) idx
  return s.setReg ra (v.setWidth 64)

/-- LDW (R132). -/
def execLdw (ra rb : Reg) (bs : Buf) (s : State) : Result := finish s (ldwEffect ra rb bs s)

/-- The effect of STW (R133): the index check first, then the field-element check. -/
def stwEffect (ra rb : Reg) (bs : Buf) (s : State) : Except Stop State := do
  let idx ← indexOperand s rb
  let v ← fieldOperand s ra
  return s.setBuf bs ((s.buf bs).write idx (bufWord v))

/-- STW (R133). -/
def execStw (ra rb : Reg) (bs : Buf) (s : State) : Result := finish s (stwEffect ra rb bs s)

end Sys2Proof.Machine
end

