-- ==== Sys2Proof/Machine/ModArith.lean ====
section
/-!
DEFINITION. The commands of the modular arithmetic unit (spec/41_mod_arith.md R156-R161).
-/

namespace Sys2Proof.Machine

open Sys2Proof

/-- The shape of MADD, MSUB and MMUL (R156-R158): both sources are field elements, read before the write. -/
def binaryField (f : Nat → Nat → Nat) (ra rb rc : Reg) (s : State) : Except Stop State := do
  let a ← fieldOperand s rb
  let b ← fieldOperand s rc
  return s.setReg ra (fieldWord (f a b))

/-- MADD (R156). -/
def execMadd (ra rb rc : Reg) (s : State) : Result := finish s (binaryField addMod ra rb rc s)

/-- MSUB (R157). -/
def execMsub (ra rb rc : Reg) (s : State) : Result := finish s (binaryField subMod ra rb rc s)

/-- MMUL (R158). -/
def execMmul (ra rb rc : Reg) (s : State) : Result := finish s (binaryField mulMod ra rb rc s)

/-- The effect of MPOW (R159): the base is a field element, the exponent any 64-bit value. -/
def mpowEffect (ra rb rc : Reg) (s : State) : Except Stop State := do
  let b ← fieldOperand s rb
  return s.setReg ra (fieldWord (powMod b (s.reg rc).toNat))

/-- MPOW (R159). -/
def execMpow (ra rb rc : Reg) (s : State) : Result := finish s (mpowEffect ra rb rc s)

/-- The effect of MINV (R160). -/
def minvEffect (ra rb : Reg) (s : State) : Except Stop State := do
  let v ← fieldOperand s rb
  return s.setReg ra (fieldWord (invMod v))

/-- MINV (R160). -/
def execMinv (ra rb : Reg) (s : State) : Result := finish s (minvEffect ra rb s)

/-- MRED (R161): every 64-bit value is in the domain. -/
def execMred (ra rb : Reg) (s : State) : Result :=
  finish s (.ok (s.setReg ra (fieldWord (modReduce (s.reg rb).toNat))))

end Sys2Proof.Machine
end

