-- ==== Sys2Proof/Machine/Transform.lean ====
section
/-!
DEFINITION. The NTT transform engine (spec/43_ntt_engine.md R204-R209): bit reversal, the butterfly network, the inverse
scaling, and the scalar commands on the butterfly and the twiddle ROM.
-/

namespace Sys2Proof.Machine

open Sys2Proof

/-! ### Bit reversal -/

/-- The loop of R204 from index `i`, `count` rounds: swap entries i and j = bitrev(i) whenever i < j. -/
def bitRevLoop (id : MemId) (bits : Nat) : (count i : Nat) → Mem 32 → Except Stop (Mem 32)
  | 0, _, m => .ok m
  | count + 1, i, m =>
    let j := bitRev i bits
    if i < j then do
      let u ← readElem id m i
      let v ← readElem id m j
      bitRevLoop id bits count (i + 1) ((m.write i v).write j u)
    else bitRevLoop id bits count (i + 1) m

/-- The effect of BITREV (R204). -/
def bitrevEffect (b : Buf) (s : State) : Except Stop State := do
  let m ← bitRevLoop (bufId b) s.logn.toNat s.size 0 (s.buf b)
  return s.setBuf b m

/-- BITREV (R204). -/
def execBitrev (b : Buf) (s : State) : Result := finish s (bitrevEffect b s)

/-! ### The butterfly network -/

/-- The butterflies of one group (R205, R206): `us` is its lower half, `vs` its upper half, `w` the running twiddle. -/
def butterflies (wl : Nat) : (w : Nat) → (us vs : List Nat) → List Nat × List Nat
  | w, u :: us, v :: vs =>
    let t := mulMod v w
    let r := butterflies wl (mulMod w wl) us vs
    (addMod u t :: r.1, subMod u t :: r.2)
  | _, _, _ => ([], [])

/-- One stage (R205): `groups` groups of 2·half contiguous elements, the running twiddle restarting at 1 in each (R206). -/
def nttStage (wl half : Nat) : (groups : Nat) → List Nat → List Nat
  | 0, xs => xs
  | groups + 1, xs =>
    let r := butterflies wl 1 (xs.take half) ((xs.drop half).take half)
    r.1 ++ r.2 ++ nttStage wl half groups (xs.drop (2 * half))

/-- The stages `s`, `s + 1`, ..., `count` of them, on a buffer of 2^bits entries (step 3 of R205). -/
def nttStages (d : Dir) (bits : Nat) : (count s : Nat) → List Nat → List Nat
  | 0, _, xs => xs
  | count + 1, s, xs =>
    nttStages d bits count (s + 1) (nttStage (stageRoot s d) (2 ^ (s - 1)) (2 ^ (bits - s)) xs)

/-- Step 4 of R205: the inverse transform scales every entry by `inv_mod(n)`. -/
def nttScale (bits : Nat) : Dir → List Nat → List Nat
  | .fwd, xs => xs
  | .inv, xs => xs.map fun v => mulMod v (invMod (2 ^ bits))

/-- The effect of NTT (R205): check, bit reversal, stages 1 to LOGN, inverse scaling, all on entries 0..n-1. -/
def nttEffect (b : Buf) (d : Dir) (s : State) : Except Stop State := do
  let bits := s.logn.toNat
  let _ ← fieldList (bufId b) (s.buf b) s.size 0
  let m ← bitRevLoop (bufId b) bits s.size 0 (s.buf b)
  let xs ← readList (bufId b) m s.size 0
  let ys := nttScale bits d (nttStages d bits bits 1 (xs.map BitVec.toNat))
  return s.setBuf b (m.writeList 0 (ys.map bufWord))

/-- NTT (R205). -/
def execNtt (b : Buf) (d : Dir) (s : State) : Result := finish s (nttEffect b d s)

/-! ### Scalar commands -/

/-- The effect of BFLY (R207): all three sources are read before either write. -/
def bflyEffect (ra rb rc : Reg) (s : State) : Except Stop State := do
  let u ← fieldOperand s ra
  let v ← fieldOperand s rb
  let w ← fieldOperand s rc
  let t := mulMod v w
  return (s.setReg ra (fieldWord (addMod u t))).setReg rb (fieldWord (subMod u t))

/-- BFLY (R207). -/
def execBfly (ra rb rc : Reg) (s : State) : Result := finish s (bflyEffect ra rb rc s)

/-- The effect of ROOTW (R208): TWROM entry (d, s). -/
def rootwEffect (ra rb : Reg) (d : Dir) (s : State) : Except Stop State := do
  let stage ← stageOperand s rb
  return s.setReg ra (fieldWord (twiddleRom s.cfg d stage))

/-- ROOTW (R208). -/
def execRootw (ra rb : Reg) (d : Dir) (s : State) : Result := finish s (rootwEffect ra rb d s)

/-- The effect of TWID (R209): any 64-bit offset. -/
def twidEffect (ra rb rc : Reg) (d : Dir) (s : State) : Except Stop State := do
  let stage ← stageOperand s rb
  return s.setReg ra (fieldWord (powMod (twiddleRom s.cfg d stage) (s.reg rc).toNat))

/-- TWID (R209). -/
def execTwid (ra rb rc : Reg) (d : Dir) (s : State) : Result := finish s (twidEffect ra rb rc d s)

end Sys2Proof.Machine
end

