-- ==== Sys2Proof/Machine/Convolution.lean ====
section
/-!
DEFINITION. The convolution engine and the pointwise multiply unit (spec/44_convolution.md R230-R235).
-/

namespace Sys2Proof.Machine

open Sys2Proof

/-- The smallest k, from `k` on and within `fuel` rounds, with `s ≤ 2^k`. -/
def log2UpFrom (s : Nat) : (fuel k : Nat) → Nat
  | 0, k => k
  | fuel + 1, k => if s ≤ 2 ^ k then k else log2UpFrom s fuel (k + 1)

/-- `log2(next_pow2(s))` for s ≤ 2^64; 0 for s = 0 (R230, D18). Every size the commands ask for is below 2^64. -/
def log2Up (s : Nat) : Nat := log2UpFrom s 64 0

/-- `next_pow2` (R230). -/
def nextPow2 (s : Nat) : Nat := 2 ^ log2Up s

/-! ### PMUL -/

/-- The products of the entries `i`, `i + 1`, ..., `count` of them, each entry read checked (R232). -/
def productList (bx bY : Buf) (s : State) : (count i : Nat) → Except Stop (List Nat)
  | 0, _ => .ok []
  | count + 1, i => do
    let u ← fieldElem (bufId bx) (s.buf bx) i
    let v ← fieldElem (bufId bY) (s.buf bY) i
    let ps ← productList bx bY s count (i + 1)
    return mulMod u v :: ps

/-- The effect of PMUL (R232). Every check comes before the first write, and every product is of old values, so the
buffers may alias. -/
def pmulEffect (bd bx bY : Buf) (s : State) : Except Stop State := do
  let ps ← productList bx bY s s.size 0
  return s.setBuf bd ((s.buf bd).writeList 0 (ps.map bufWord))

/-- PMUL (R232). -/
def execPmul (bd bx bY : Buf) (s : State) : Result := finish s (pmulEffect bd bx bY s)

/-! ### SETN and PAD -/

/-- The effect of SETN (R234): the check is on the requested size itself. -/
def setnEffect (ra : Reg) (s : State) : Except Stop State :=
  let r := (s.reg ra).toNat
  if s.cfg.nMax < r then .error (.raise .unsupportedSize)
  else .ok { s with logn := BitVec.ofNat 5 (log2Up r) }

/-- SETN (R234). -/
def execSetn (ra : Reg) (s : State) : Result := finish s (setnEffect ra s)

/-- The zero-padded digit vector (R233): digits below index `len`, 0 from there on. -/
def padList (id : MemId) (m : Mem 4) (len : Nat) : (count i : Nat) → Except Stop (List Word)
  | 0, _ => .ok []
  | count + 1, i =>
    if i < len then do
      let v ← readElem id m i
      let vs ← padList id m len count (i + 1)
      return v.setWidth 32 :: vs
    else do
      let vs ← padList id m len count (i + 1)
      return 0 :: vs

/-- The effect of PAD (R233): the size check, the bounding-invariant check (R231), then LOGN and the two buffers. -/
def padEffect (s : State) : Except Stop State :=
  let a := s.lenA.toNat
  let b := s.lenB.toNat
  let m := nextPow2 (a + b)
  if s.cfg.nMax < m then .error (.raise .unsupportedSize)
  else if modulus ≤ 81 * min a b then .error (.raise .unsupportedSize)
  else do
    let va ← padList .digA s.digA a m 0
    let vb ← padList .digB s.digB b m 0
    return { s with
      logn := BitVec.ofNat 5 (log2Up (a + b))
      bufA := s.bufA.writeList 0 va
      bufB := s.bufB.writeList 0 vb }

/-- PAD (R233). -/
def execPad (s : State) : Result := finish s (padEffect s)

/-! ### CONV -/

/-- The effect of CONV (R235): PAD; NTT A, fwd; NTT B, fwd; PMUL C, A, B; NTT C, inv. An error of any step is the
command's error. -/
def convEffect (s : State) : Except Stop State := do
  let s ← padEffect s
  let s ← nttEffect .A .fwd s
  let s ← nttEffect .B .fwd s
  let s ← pmulEffect .C .A .B s
  nttEffect .C .inv s

/-- CONV (R235). -/
def execConv (s : State) : Result := finish s (convEffect s)

end Sys2Proof.Machine
end

