-- ==== Sys2Proof/Machine/Carry.lean ====
section
/-!
DEFINITION. The carry normalizer (spec/45_carry_normalizer.md R250).
-/

namespace Sys2Proof.Machine

open Sys2Proof

/-- The walk over the coefficients (R250): one digit for each, and the carry left at the end. -/
def carryWalk : (carry : Nat) → (xs : List Nat) → List Nat × Nat
  | carry, [] => ([], carry)
  | carry, c :: xs =>
    let r := carryWalk ((c + carry) / 10) xs
    ((c + carry) % 10 :: r.1, r.2)

/-- The residual carry (R250): digits from index `i` on while the carry is not 0, none at index `cap` or above. At most
`fuel` digits; a carry has at most 9 (R251). DEDUCED (log entry 12): the overflow follows R250's pseudocode alone, so at
LOGN_MAX = 3 it also arises at n < N_MAX, where R251's remark says it does not. -/
def carryRest (cap : Nat) : (fuel i carry : Nat) → Except Stop (List Nat)
  | 0, _, _ => .ok []
  | fuel + 1, i, carry =>
    if carry = 0 then .ok []
    else if cap ≤ i then .error (.raise .resultOverflow)
    else do
      let ds ← carryRest cap fuel (i + 1) (carry / 10)
      return carry % 10 :: ds

/-- The effect of CARRY (R250): RES and RES_LEN are written only on success. -/
def carryEffect (b : Buf) (s : State) : Except Stop State := do
  let xs ← fieldList (bufId b) (s.buf b) s.size 0
  let r := carryWalk 0 xs
  let rest ← carryRest s.cfg.resCap 64 s.size r.2
  let ds := r.1 ++ rest
  return { s with
    res := s.res.writeList 0 (ds.map (BitVec.ofNat 4))
    resLen := BitVec.ofNat 32 ds.length }

/-- CARRY (R250). -/
def execCarry (b : Buf) (s : State) : Result := finish s (carryEffect b s)

end Sys2Proof.Machine
end

