-- ==== Sys2Proof/Machine/Codec.lean ====
section
/-!
DEFINITION. The digit codec (spec/42_digit_codec.md): the decoder PARSE (R180-R184) and the encoder RENDER (R185, R186).
-/

namespace Sys2Proof.Machine

open Sys2Proof

/-! ### PARSE -/

/-- The name of a numeral's input memory. -/
def inId : Numeral → MemId
  | .A => .inA
  | .B => .inB

/-- IN_k (R38). -/
def State.inMem (s : State) : Numeral → Mem 8
  | .A => s.inA
  | .B => s.inB

/-- IN_LEN_k (R34). -/
def State.inLen (s : State) : Numeral → Word
  | .A => s.inLenA
  | .B => s.inLenB

/-- `s` with `m` in DIG_k and `len` in LEN_k (R180). -/
def State.setDigits (s : State) (k : Numeral) (m : Mem 4) (len : Word) : State :=
  match k with
  | .A => { s with digA := m, lenA := len }
  | .B => { s with digB := m, lenB := len }

/-- DIG_k (R39). -/
def State.digMem (s : State) : Numeral → Mem 4
  | .A => s.digA
  | .B => s.digB

/-- The digit count of a numeral of `len` bytes (R180, R182): one trailing LF, if there is one, is not counted. -/
def digitCount (id : MemId) (m : Mem 8) : (len : Nat) → Except Stop Nat
  | 0 => .ok 0
  | len + 1 => do
    let c ← readElem id m len
    return if c = 0x0A#8 then len else len + 1

/-- The digits of the bytes `i`, `i + 1`, ..., `count` of them, in written order (R181); a byte outside '0'..'9' is an
error. -/
def digitList (id : MemId) (m : Mem 8) : (count i : Nat) → Except Stop (List Digit)
  | 0, _ => .ok []
  | count + 1, i => do
    let c ← readElem id m i
    if c.toNat < 0x30 ∨ 0x39 < c.toNat then .error (.raise .invalidDigit)
    else do
      let ds ← digitList id m count (i + 1)
      return BitVec.ofNat 4 (c.toNat - 0x30) :: ds

/-- The effect of PARSE (R180), its checks in the pseudocode's order; the last character becomes digit 0. -/
def parseEffect (k : Numeral) (s : State) : Except Stop State :=
  let bytes := (s.inLen k).toNat
  if s.cfg.inCap < bytes then .error (.raise .unsupportedSize)
  else do
    let len ← digitCount (inId k) (s.inMem k) bytes
    if len = 0 then .error (.raise .invalidDigit)
    else if s.cfg.digCap < len then .error (.raise .unsupportedSize)
    else do
      let ds ← digitList (inId k) (s.inMem k) len 0
      return s.setDigits k ((s.digMem k).writeList 0 ds.reverse) (BitVec.ofNat 32 len)

/-- PARSE (R180). -/
def execParse (k : Numeral) (s : State) : Result := finish s (parseEffect k s)

/-! ### RENDER -/

/-- The `count` lowest elements of RES, most significant first, read from the most significant down (R185). -/
def resultDigits (m : Mem 4) : (count : Nat) → Except Stop (List Digit)
  | 0 => .ok []
  | count + 1 => do
    let d ← readElem .res m count
    let ds ← resultDigits m count
    return d :: ds

/-- The decimal string of digits given most significant first (R185, R186): no leading zeros, "0" for zero, then one LF
(spec/90_conflicts.md C3). -/
def renderString (ds : List Digit) : List Byte :=
  match ds.dropWhile (· == 0) with
  | [] => [0x30#8, 0x0A#8]
  | e :: es => (e :: es).map (fun d => BitVec.ofNat 8 (0x30 + d.toNat)) ++ [0x0A#8]

/-- The effect of RENDER (R185). -/
def renderEffect (s : State) : Except Stop State := do
  let ds ← resultDigits s.res s.resLen.toNat
  let str := renderString ds
  return { s with
    out := s.out.writeList 0 str
    outLen := BitVec.ofNat 32 str.length }

/-- RENDER (R185). -/
def execRender (s : State) : Result := finish s (renderEffect s)

end Sys2Proof.Machine
end

