-- ==== Sys2Proof/Machine/Pipeline.lean ====
section
/-!
DEFINITION. The whole multiplication pipeline as one command (spec/46_pipeline.md R270).
-/

namespace Sys2Proof.Machine

open Sys2Proof

/-- The effect of MULT (R270): PARSE A; PARSE B; CONV; CARRY C; RENDER. An error of any step is the command's error. -/
def multEffect (s : State) : Except Stop State := do
  let s ← parseEffect .A s
  let s ← parseEffect .B s
  let s ← convEffect s
  let s ← carryEffect .C s
  renderEffect s

/-- MULT (R270). -/
def execMult (s : State) : Result := finish s (multEffect s)

end Sys2Proof.Machine
end

