-- ==== Sys2Proof/Machine/Dispatch.lean ====
section
/-!
DEFINITION. The meaning of each command: one arm per constructor of `Instr` (spec/30_encoding.md R100, R106).
-/

namespace Sys2Proof.Machine

open Sys2Proof

def exec (i : Instr) (s : State) : Host.Outcome State Fault Refusal :=
  match i with
  | .nop => Sys2Proof.Machine.execNop s
  | .ldi ra imm21 => Sys2Proof.Machine.execLdi ra imm21 s
  | .ldw ra rb bs => Sys2Proof.Machine.execLdw ra rb bs s
  | .stw ra rb bs => Sys2Proof.Machine.execStw ra rb bs s
  | .madd ra rb rc => Sys2Proof.Machine.execMadd ra rb rc s
  | .msub ra rb rc => Sys2Proof.Machine.execMsub ra rb rc s
  | .mmul ra rb rc => Sys2Proof.Machine.execMmul ra rb rc s
  | .mpow ra rb rc => Sys2Proof.Machine.execMpow ra rb rc s
  | .minv ra rb => Sys2Proof.Machine.execMinv ra rb s
  | .mred ra rb => Sys2Proof.Machine.execMred ra rb s
  | .bfly ra rb rc => Sys2Proof.Machine.execBfly ra rb rc s
  | .rootw ra rb d => Sys2Proof.Machine.execRootw ra rb d s
  | .twid ra rb rc d => Sys2Proof.Machine.execTwid ra rb rc d s
  | .bitrev b0 => Sys2Proof.Machine.execBitrev b0 s
  | .ntt b0 d => Sys2Proof.Machine.execNtt b0 d s
  | .setn ra => Sys2Proof.Machine.execSetn ra s
  | .pad => Sys2Proof.Machine.execPad s
  | .pmul b0 b1 b2 => Sys2Proof.Machine.execPmul b0 b1 b2 s
  | .conv => Sys2Proof.Machine.execConv s
  | .carry b0 => Sys2Proof.Machine.execCarry b0 s
  | .parse b0 => Sys2Proof.Machine.execParse b0 s
  | .render => Sys2Proof.Machine.execRender s
  | .mult => Sys2Proof.Machine.execMult s

end Sys2Proof.Machine
end

