-- ==== Sys2Proof/Machine/Bus.lean ====
section
/-!
DEFINITION. The host's side: the register map (spec/10_state.md R33, R34), the address map (spec/20_memory.md R70-R74),
and the host's word accesses with their faults (R77-R79, spec/70_reset_and_hazards.md R352).
-/

namespace Sys2Proof.Machine

open Sys2Proof

/-- The control registers of R34. -/
inductive CtrlReg where
  | id | status | cmd | clear | mod | root | nmax | logn | nsize
  | inLenA | inLenB | lenA | lenB | resLen | outLen
  | xLo (k : Reg) | xHi (k : Reg)
deriving DecidableEq, Repr

/-- What a mapped address names (R72): a control register, an element of a memory, or a TWROM entry. -/
inductive Target where
  | ctrl (r : CtrlReg)
  | elem (m : MemId) (i : Nat)
  | rom (d : Dir) (stage : Nat)
deriving DecidableEq, Repr

/-! ### The maps -/

/-- The control register at a byte offset of the control region; none where R34 lists none (R33). -/
def ctrlAt (off : Nat) : Option CtrlReg :=
  match off with
  | 0x000 => some .id
  | 0x004 => some .status
  | 0x008 => some .cmd
  | 0x00C => some .clear
  | 0x010 => some .mod
  | 0x014 => some .root
  | 0x018 => some .nmax
  | 0x01C => some .logn
  | 0x020 => some .nsize
  | 0x024 => some .inLenA
  | 0x028 => some .inLenB
  | 0x02C => some .lenA
  | 0x030 => some .lenB
  | 0x034 => some .resLen
  | 0x038 => some .outLen
  | off =>
    if 0x040 ≤ off ∧ off ≤ 0x07C then
      if off % 8 = 0 then some (.xLo (Fin.ofNat 8 ((off - 0x040) / 8)))
      else if off % 8 = 4 then some (.xHi (Fin.ofNat 8 ((off - 0x040) / 8)))
      else none
    else none

/-- The number of elements of a memory (R38-R43, R72). -/
def MemId.capacity (c : Config) : MemId → Nat
  | .inA | .inB => c.inCap
  | .digA | .digB => c.digCap
  | .bufA | .bufB | .bufC => c.nMax
  | .res => c.resCap
  | .out => c.outCap

/-- The memory of region `k` of R72, for the regions that hold one. -/
def regionMem : (k : Nat) → Option MemId
  | 1 => some .inA
  | 2 => some .inB
  | 3 => some .digA
  | 4 => some .digB
  | 5 => some .bufA
  | 6 => some .bufB
  | 7 => some .bufC
  | 8 => some .res
  | 9 => some .out
  | _ => none

/-- What element `i` of region `k` is (R71, R72); none where it is unmapped. -/
def regionTarget (c : Config) (k i : Nat) : Option Target :=
  if k = 0 then (ctrlAt (4 * i)).map .ctrl
  else if k = 10 then
    if i < 64 then some (.rom (if i < 32 then .fwd else .inv) (i % 32)) else none
  else
    match regionMem k with
    | some m => if i < m.capacity c then some (.elem m i) else none
    | none => none

/-- What a host address names (R70, R71, R76); none for a bus error. -/
def target (c : Config) (addr : Nat) : Option Target :=
  if 2 ^ c.addrWidth ≤ addr ∨ addr % 4 ≠ 0 then none
  else regionTarget c (addr / c.stride) (addr % c.stride / 4)

/-! ### Reading -/

/-- The word a read of a control register gives (R34, R35): CLEAR reads 0, NSIZE is computed from LOGN. -/
def State.ctrlWord (s : State) : CtrlReg → Word
  | .id => idWord
  | .status => s.statusWord
  | .cmd => s.cmdLast
  | .clear => 0
  | .mod => BitVec.ofNat 32 modulus
  | .root => BitVec.ofNat 32 root
  | .nmax => BitVec.ofNat 32 s.cfg.nMax
  | .logn => s.logn.setWidth 32
  | .nsize => BitVec.ofNat 32 s.size
  | .inLenA => s.inLenA
  | .inLenB => s.inLenB
  | .lenA => s.lenA
  | .lenB => s.lenB
  | .resLen => s.resLen
  | .outLen => s.outLen
  | .xLo k => (s.reg k).extractLsb' 0 32
  | .xHi k => (s.reg k).extractLsb' 32 32

/-- The word at a target (R72, R74), or the fault of an unwritten element (R341). -/
def State.targetWord (s : State) : Target → Except Fault Word
  | .ctrl r => .ok (s.ctrlWord r)
  | .rom d stage => .ok (BitVec.ofNat 32 (twiddleRom s.cfg d stage))
  | .elem m i =>
    match s.elemWord m i with
    | some v => .ok v
    | none => .error (.unwritten m i)

/-- The reads with a defined result while BUSY = 1 (R352). -/
def Target.readableBusy : Target → Bool
  | .ctrl .status | .ctrl .id | .ctrl .mod | .ctrl .root | .ctrl .nmax | .ctrl .cmd => true
  | _ => false

/-- A host read (R77): the word goes to the host, here onto `replies`, and nothing else changes. DESIGN CHOICE (log entry
6): where several stops apply the spec gives no order, and the model names the bus error first (R79), then the race (R352),
then the unwritten element (R341). -/
def hostRead (addr : Nat) (s : State) : Result :=
  match target s.cfg addr with
  | none => .fault (.busError addr)
  | some t =>
    if s.busy && !t.readableBusy then .fault (.hostRace addr)
    else
      match s.targetWord t with
      | .ok v => .next { s with replies := v :: s.replies }
      | .error f => .fault f

/-! ### Writing -/

/-- A write of `v` to a control register (R34): CMD and CLEAR act, the RW registers store, the RO registers ignore it. -/
def State.writeCtrl (s : State) (v : Word) : CtrlReg → State
  | .cmd => s.issue v
  | .clear => s.clear v
  | .inLenA => { s with inLenA := v }
  | .inLenB => { s with inLenB := v }
  | .xLo k => s.setReg k ((s.reg k).extractLsb' 32 32 ++ v)
  | .xHi k => s.setReg k (v ++ (s.reg k).extractLsb' 0 32)
  | .id | .status | .mod | .root | .nmax | .logn | .nsize | .lenA | .lenB | .resLen | .outLen => s

/-- A write of `v` to element `i` of a memory (R72, R74): IN keeps bits [7:0], BUF the word, the RO memories ignore it. -/
def State.writeElem (s : State) (v : Word) (i : Nat) : MemId → State
  | .inA => { s with inA := s.inA.write i (v.setWidth 8) }
  | .inB => { s with inB := s.inB.write i (v.setWidth 8) }
  | .bufA => { s with bufA := s.bufA.write i v }
  | .bufB => { s with bufB := s.bufB.write i v }
  | .bufC => { s with bufC := s.bufC.write i v }
  | .digA | .digB | .res | .out => s

/-- A write of `v` to a target (R78). -/
def State.writeTarget (s : State) (v : Word) : Target → State
  | .ctrl r => s.writeCtrl v r
  | .elem m i => s.writeElem v i m
  | .rom _ _ => s

/-- The writes with a defined result while BUSY = 1 (R352). -/
def Target.writableBusy : Target → Bool
  | .ctrl .cmd | .ctrl .clear => true
  | _ => false

/-- A host write (R78). DESIGN CHOICE (log entry 6): the bus error (R79) before the race (R352). -/
def hostWrite (addr : Nat) (v : Word) (s : State) : Result :=
  match target s.cfg addr with
  | none => .fault (.busError addr)
  | some t =>
    if s.busy && !t.writableBusy then .fault (.hostRace addr)
    else .next (s.writeTarget v t)

end Sys2Proof.Machine
end

