-- ==== Sys2Proof/Machine/Sequencer.lean ====
section
/-!
DEFINITION. The sequencer's turn (spec/30_encoding.md R100, spec/60_exceptions.md R303, spec/70_reset_and_hazards.md
R350), the reset event (R340, R341), and one step of whichever agent moves next.
-/

namespace Sys2Proof.Machine

open Sys2Proof

/-- The sequencer takes the latched word (R100): dropped while ERR ≠ 0 (R303), E_ILLEGAL if no command (R107), else
executed. -/
def runPending (s : State) : Result :=
  match s.err with
  | some _ => .next { s with busy := false }
  | none =>
    match decode s.pend with
    | .error _ => .next (s.raise .illegal)
    | .ok i => exec i s

/-- A turn of the sequencer (R350): enabled exactly when BUSY = 1; otherwise it is idle and all state survives (R315). -/
def sequencerTurn (s : State) : Result := if s.busy then runPending s else .next s

/-- The external reset event (R340, R341). The parameter and the model's own two fields are no state of the hardware. -/
def State.powerOn (s : State) : State :=
  { State.resetWith s.cfg with todo := s.todo, replies := s.replies }

/-- What one event does (R15, R83, R350). -/
def runEvent (e : Event) (s : State) : Result :=
  match e with
  | .hostRead addr => hostRead addr s
  | .hostWrite addr v => hostWrite addr v s
  | .sequencer => sequencerTurn s
  | .reset => .next s.powerOn

/-- One step: the next event of the interleaving; with none left, the sequencer's turn (weak fairness of R350). -/
def runNext (s : State) : Result :=
  match s.todo with
  | e :: rest => runEvent e { s with todo := rest }
  | [] => sequencerTurn s

end Sys2Proof.Machine
end

