-- ==== Sys2Proof/Machine/Step.lean ====
section
/-!
DEFINITION. One step of the machine, and how a command word is placed so that the very next step runs it (log entry 9).
-/

namespace Sys2Proof.Machine

open Sys2Proof

/-- One step of the machine (spec/00_scope.md R15, spec/70_reset_and_hazards.md R350). -/
def step (s : State) : Host.Outcome State Fault Refusal := Sys2Proof.Machine.runNext s

/-- `s` as the host's accepted write of the word to CMD leaves it (spec/10_state.md R36), with no error pending and the
next turn the sequencer's: the very next step runs the command. -/
def State.withFetchWord (s : State) (nbits w : Nat) : State :=
  { s with
    cmdLast := Sys2Proof.tableWord nbits w
    pend := Sys2Proof.tableWord nbits w
    busy := true
    err := none
    errOp := 0
    todo := .sequencer :: s.todo }

end Sys2Proof.Machine
end

