-- ==== Sys2Proof/Safety.lean ====
section
/-!
DEFINITION. The terms the claims about modular_adder use: the invariant of the reachable states, which command may write
which state (spec/10_state.md R47), and the mathematical reading of memories as digit vectors, field vectors and decimal
lines.
-/

namespace Sys2Proof.Machine

open Sys2Proof

/-! ### The invariant -/

/-- A memory in canonical form whose indices are all below its capacity (R38-R43). -/
abbrev Mem.fits {w : Nat} (m : Mem w) (cap : Nat) : Prop := m.wf ∧ ∀ c ∈ m, c.1 < cap

/-- The elements below index `n` have been written (R341). -/
abbrev Mem.full {w : Nat} (m : Mem w) (n : Nat) : Prop := ∀ i < n, (m.read i).isSome = true

/-- Every written element is a digit 0..9 (R39, R42). -/
abbrev Mem.decimal (m : Mem 4) : Prop := ∀ c ∈ m, c.2.toNat ≤ 9

/-- What holds of every state a run from reset can reach. -/
structure State.Inv (s : State) : Prop where
  /-- LOGN is never above LOGN_MAX (R34). -/
  logn_le : s.logn.toNat ≤ s.cfg.lognMax
  /-- ERR_OP is 0 while ERR is 0 (R37, R340). -/
  errOp_clear : s.err = none → s.errOp = 0
  /-- The input memories (R38). -/
  inA_fits : s.inA.fits s.cfg.inCap
  inB_fits : s.inB.fits s.cfg.inCap
  /-- The digit memories hold digits, and LEN_A and LEN_B of them are valid (R39). -/
  digA_fits : s.digA.fits s.cfg.digCap
  digB_fits : s.digB.fits s.cfg.digCap
  digA_decimal : s.digA.decimal
  digB_decimal : s.digB.decimal
  lenA_le : s.lenA.toNat ≤ s.cfg.digCap
  lenB_le : s.lenB.toNat ≤ s.cfg.digCap
  digA_full : s.digA.full s.lenA.toNat
  digB_full : s.digB.full s.lenB.toNat
  /-- The field buffers (R40). -/
  bufA_fits : s.bufA.fits s.cfg.nMax
  bufB_fits : s.bufB.fits s.cfg.nMax
  bufC_fits : s.bufC.fits s.cfg.nMax
  /-- The result memory holds digits, RES_LEN of them valid (R42). -/
  res_fits : s.res.fits s.cfg.resCap
  res_decimal : s.res.decimal
  resLen_le : s.resLen.toNat ≤ s.cfg.resCap
  res_full : s.res.full s.resLen.toNat
  /-- The output memory, OUT_LEN bytes of it valid (R43). -/
  out_fits : s.out.fits s.cfg.outCap
  outLen_le : s.outLen.toNat ≤ s.cfg.outCap
  out_full : s.out.full s.outLen.toNat

/-! ### Who writes what (R47) -/

/-- The rows of R47's matrix that some command may write. -/
inductive Part where
  | registers | digits | buffers | size | result | output
deriving DecidableEq, Repr

/-- The column "written by commands" of R47. -/
def mayWrite : Instr → Part → Bool
  | .nop, _ => false
  | .ldi _ _, p => p == .registers
  | .ldw _ _ _, p => p == .registers
  | .stw _ _ _, p => p == .buffers
  | .madd _ _ _, p => p == .registers
  | .msub _ _ _, p => p == .registers
  | .mmul _ _ _, p => p == .registers
  | .mpow _ _ _, p => p == .registers
  | .minv _ _, p => p == .registers
  | .mred _ _, p => p == .registers
  | .bfly _ _ _, p => p == .registers
  | .rootw _ _ _, p => p == .registers
  | .twid _ _ _ _, p => p == .registers
  | .bitrev _, p => p == .buffers
  | .ntt _ _, p => p == .buffers
  | .setn _, p => p == .size
  | .pad, p => p == .size || p == .buffers
  | .pmul _ _ _, p => p == .buffers
  | .conv, p => p == .size || p == .buffers
  | .carry _, p => p == .result
  | .parse _, p => p == .digits
  | .render, p => p == .output
  | .mult, p => p != .registers

/-- `t` has the same content as `s` in one row of R47's matrix. -/
def State.agrees (s t : State) : Part → Prop
  | .registers => t.x = s.x
  | .digits => t.digA = s.digA ∧ t.digB = s.digB ∧ t.lenA = s.lenA ∧ t.lenB = s.lenB
  | .buffers => t.bufA = s.bufA ∧ t.bufB = s.bufB ∧ t.bufC = s.bufC
  | .size => t.logn = s.logn
  | .result => t.res = s.res ∧ t.resLen = s.resLen
  | .output => t.out = s.out ∧ t.outLen = s.outLen

/-- The column "raised by" of R300, E_ILLEGAL apart: that one is raised at decode, by no command. -/
def mayRaise : ErrCode → Instr → Bool
  | .invalidDigit, .parse _ | .invalidDigit, .mult => true
  | .unsupportedSize, .parse _ | .unsupportedSize, .pad | .unsupportedSize, .conv | .unsupportedSize, .mult => true
  | .unsupportedSize, .setn _ | .unsupportedSize, .rootw _ _ _ | .unsupportedSize, .twid _ _ _ _ => true
  | .resultOverflow, .carry _ => true
  | .operandRange, .stw _ _ _ | .operandRange, .madd _ _ _ | .operandRange, .msub _ _ _ => true
  | .operandRange, .mmul _ _ _ | .operandRange, .mpow _ _ _ | .operandRange, .minv _ _ => true
  | .operandRange, .bfly _ _ _ | .operandRange, .ntt _ _ | .operandRange, .pmul _ _ _ | .operandRange, .carry _ => true
  | .indexRange, .ldw _ _ _ | .indexRange, .stw _ _ _ => true
  | _, _ => false

/-- The state a command that raises `c` leaves, as R302 lists it. -/
abbrev raised (s : State) (c : ErrCode) : State :=
  { s with err := some c, errOp := s.pend.extractLsb' 24 8, busy := false }

/-- Run commands one after the other as the sequencer would, stopping at the first that raises an error (R303). -/
def runCommands : List Instr → State → Result
  | [], s => .next s
  | i :: is, s =>
    match exec i s with
    | .next t => if t.err = none then runCommands is t else .next t
    | r => r

/-! ### Memories read as mathematics -/

/-- The number element `i` of a memory holds, if anyone has written it (R38-R43, R341). -/
def State.element (s : State) (m : MemId) (i : Nat) : Option Nat :=
  match m with
  | .inA => (s.inA.read i).map BitVec.toNat
  | .inB => (s.inB.read i).map BitVec.toNat
  | .digA => (s.digA.read i).map BitVec.toNat
  | .digB => (s.digB.read i).map BitVec.toNat
  | .bufA => (s.bufA.read i).map BitVec.toNat
  | .bufB => (s.bufB.read i).map BitVec.toNat
  | .bufC => (s.bufC.read i).map BitVec.toNat
  | .res => (s.res.read i).map BitVec.toNat
  | .out => (s.out.read i).map BitVec.toNat

/-- The entries 0..n-1 of a buffer are the field elements `f 0`, ..., `f (n-1)` (R14, R41). -/
abbrev Mem.fields (m : Mem 32) (n : Nat) (f : Nat → Nat) : Prop :=
  ∀ i < n, f i < modulus ∧ m.read i = some (BitVec.ofNat 32 (f i))

/-- The entries 0..n-1 of a digit memory are the digits `f 0`, ..., `f (n-1)` (R39, R42). -/
abbrev Mem.digits (m : Mem 4) (n : Nat) (f : Nat → Nat) : Prop :=
  ∀ i < n, f i ≤ 9 ∧ m.read i = some (BitVec.ofNat 4 (f i))

/-- The value of `n` coefficients weighted by powers of 10 (R252). -/
def weighted (n : Nat) (f : Nat → Nat) : Nat := ∑ i ∈ Finset.range n, f i * 10 ^ i

/-- The exact convolution coefficient at index `i` of digit vectors of lengths `a` and `b` (R236). -/
def coefficient (a b : Nat) (f g : Nat → Nat) (i : Nat) : Nat :=
  ∑ j ∈ (Finset.range (i + 1)).filter (fun j => j < a ∧ i - j < b), f j * g (i - j)

/-- The numeral IN_k spells the decimal digits `cs`, most significant first, at least one, with or without one trailing
LF (R73, R181, R182). -/
abbrev State.spells (s : State) (k : Numeral) (cs : List Nat) : Prop :=
  1 ≤ cs.length ∧ (∀ c ∈ cs, c ≤ 9) ∧
  (∀ i < cs.length, (s.inMem k).read i = some (BitVec.ofNat 8 (0x30 + cs.getD i 0))) ∧
  ((s.inLen k).toNat = cs.length ∨
    ((s.inLen k).toNat = cs.length + 1 ∧ (s.inMem k).read cs.length = some 0x0A#8))

/-- The number the digits `cs`, most significant first, spell in decimal (R271). -/
def numeralValue (cs : List Nat) : Nat := Nat.ofDigits 10 cs.reverse

/-- The decimal string of `v`, no leading zero but the single "0", then one LF (R186, R271). -/
def decimalLine (v : Nat) : List Byte :=
  (if v = 0 then [0x30#8] else (Nat.digits 10 v).reverse.map fun d => BitVec.ofNat 8 (0x30 + d)) ++ [0x0A#8]

/-- The memory holds the bytes `bs` from index 0 on. -/
abbrev Mem.startsWith (m : Mem 8) (bs : List Byte) : Prop := ∀ i < bs.length, m.read i = bs[i]?

/-- The stage root for len = 2^s as R201 defines it, by exact exponentiation. -/
def rootOfUnity (s : Nat) : Dir → Nat
  | .fwd => root ^ ((modulus - 1) / 2 ^ s) % modulus
  | .inv => root ^ ((modulus - 1) - (modulus - 1) / 2 ^ s) % modulus

/-- The factor step 4 of R205 scales by: the inverse of n modulo MOD for the inverse transform, 1 for the forward. -/
def scaleFactor (bits : Nat) : Dir → Nat
  | .fwd => 1
  | .inv => (2 ^ bits) ^ (modulus - 2) % modulus

end Sys2Proof.Machine
end

