-- ==== Sys2Proof/Certificates/Slice0/Obligations.lean ====
section
/-!
DEFINITION. The statements about modular_adder for the provers, from the numbered rules of spec/. `n` of a command is
`s.size`, that is 2^LOGN; a statement whose operands include a buffer says what the buffer's entries read as.
-/

open Sys2Proof Sys2Proof.Machine

/-! ### The command word -/

/-- The worked words of R112 decode to the commands they stand for, and its illegal examples to none. For `LDW x3, C[x2]`
the word is the sum of the fields R112 lists, 0x026A_0000; the word R112 prints for it, 0x0268_0000, lacks the field
bs = 2 and is `LDW x3, A[x2]` by R105 (log entry 10). -/
def Obligations.WordsOfTheSpecDecode : Prop :=
  decode 0x00000000#32 = .ok .nop ∧
  decode 0x0120007B#32 = .ok (.ldi 1 123) ∧
  decode 0x026A0000#32 = .ok (.ldw 3 2 .C) ∧
  decode 0x02680000#32 = .ok (.ldw 3 2 .A) ∧
  decode 0x10298000#32 = .ok (.madd 1 2 3) ∧
  decode 0x14940000#32 = .ok (.minv 4 5) ∧
  decode 0x20050000#32 = .ok (.bfly 0 1 2) ∧
  decode 0x21284000#32 = .ok (.rootw 1 2 .inv) ∧
  decode 0x24820000#32 = .ok (.ntt .C .inv) ∧
  decode 0x32840000#32 = .ok (.pmul .C .A .B) ∧
  decode 0x50400000#32 = .ok (.parse .B) ∧
  decode 0x60000000#32 = .ok .mult ∧
  (decode 0x00000001#32).toOption = none ∧
  (decode 0x20240000#32).toOption = none ∧
  (decode 0x24C00000#32).toOption = none ∧
  (decode 0x50800000#32).toOption = none ∧
  (decode 0x70000000#32).toOption = none

/-- Decoding the word of any well-formed instruction gives it back, with every operand at every value. -/
def Obligations.DecodeEncodeRoundTrip : Prop :=
  ∀ i : Instr, i.wellFormed = true → decode (encode i) = .ok i

/-- A word that decodes is the word of the instruction it decodes to, so no two words are one command. -/
def Obligations.EncodeDecodeRoundTrip : Prop :=
  ∀ (w : Word) (i : Instr), decode w = .ok i → i.wellFormed = true ∧ encode i = w

/-- The decoder accepts exactly the legal words (R107). -/
def Obligations.LegalWordsAreTheDecodedOnes : Prop :=
  ∀ w : Word, legal w = true ↔ ∃ i : Instr, decode w = .ok i

/-- Every word with an opcode of the ranges R108 lists is illegal, and no command takes effect on it: the sequencer raises
E_ILLEGAL. -/
def Obligations.ReservedOpcodesAreIllegal : Prop :=
  ∀ w : Word,
    (let op := w.toNat / 2 ^ 24
     (0x04 ≤ op ∧ op ≤ 0x0F) ∨ (0x16 ≤ op ∧ op ≤ 0x1F) ∨ (0x25 ≤ op ∧ op ≤ 0x2F) ∨ (0x34 ≤ op ∧ op ≤ 0x3F) ∨
     (0x41 ≤ op ∧ op ≤ 0x4F) ∨ (0x52 ≤ op ∧ op ≤ 0x5F) ∨ (0x61 ≤ op ∧ op ≤ 0xFF)) →
    legal w = false ∧ (∃ e : Illegal, decode w = .error e) ∧
    ∀ s : State, s.busy = true → s.err = none → s.pend = w → sequencerTurn s = .next (raised s .illegal)

/-! ### Reset -/

/-- What reset leaves, for every configuration (R340): the registers, as the host reads them, and the hidden latch. -/
def Obligations.ResetValues : Prop :=
  ∀ c : Config,
    let s := State.resetWith c
    (∀ k : Reg, (s.reg k).toNat = 0) ∧
    s.ctrlWord .id = 0x4D410001#32 ∧ s.ctrlWord .mod = 0x78000001#32 ∧ s.ctrlWord .root = 0x1A427A41#32 ∧
    (s.ctrlWord .nmax).toNat = c.nMax ∧
    s.ctrlWord .status = 0 ∧ s.err = none ∧ s.busy = false ∧ s.ovr = false ∧ s.errOp = 0 ∧
    s.ctrlWord .cmd = 0 ∧ s.pend = 0 ∧
    s.ctrlWord .logn = 0 ∧ s.ctrlWord .nsize = 1 ∧
    s.ctrlWord .inLenA = 0 ∧ s.ctrlWord .inLenB = 0 ∧ s.ctrlWord .lenA = 0 ∧ s.ctrlWord .lenB = 0 ∧
    s.ctrlWord .resLen = 0 ∧ s.ctrlWord .outLen = 0

/-- No element of any memory has a value after reset, and TWROM is not affected (R341, R44). The reset event restores
exactly this state, whatever the state before it; the configuration, and the model's own two fields (log entries 2 and 3),
stand. -/
def Obligations.ResetEventAndMemories : Prop :=
  (∀ (c : Config) (m : MemId) (i : Nat) (d : Dir) (k : Nat),
    (State.resetWith c).targetWord (.elem m i) = .error (.unwritten m i) ∧
    (State.resetWith c).targetWord (.rom d k) =
      .ok (if k ≤ c.lognMax then BitVec.ofNat 32 (rootOfUnity k d) else 0)) ∧
  ∀ (s : State) (rest : List Event), s.todo = .reset :: rest →
    step s = .next { State.resetWith s.cfg with todo := rest, replies := s.replies }

/-! ### The invariant -/

/-- The invariant holds at reset, for every configuration. -/
def Obligations.InvHoldsAtReset : Prop := State.reset.Inv ∧ ∀ c : Config, (State.resetWith c).Inv

/-- Every step keeps the invariant: the memories canonical and within capacity, the digit memories decimal, the length
registers within capacity with their elements written, LOGN at most LOGN_MAX. -/
def Obligations.EveryStepKeepsInv : Prop :=
  ∀ s t : State, s.Inv → step s = .next t → t.Inv

/-! ### The sequencer -/

/-- What the sequencer does with a latched word (R100, R303): dropped while ERR ≠ 0, E_ILLEGAL if not legal, else executed,
and BUSY is 0 after it. -/
def Obligations.SequencerTakesTheLatchedWord : Prop :=
  ∀ s : State, s.busy = true →
    (s.err ≠ none → sequencerTurn s = .next { s with busy := false }) ∧
    (s.err = none → legal s.pend = false → sequencerTurn s = .next (raised s .illegal)) ∧
    (s.err = none → legal s.pend = true →
      ∃ i : Instr, decode s.pend = .ok i ∧ sequencerTurn s = exec i s) ∧
    ∀ t : State, sequencerTurn s = .next t → t.busy = false

/-- One step is the turn of whichever agent moves next, and adds nothing around it but taking that turn off the
interleaving (log entry 2): a host access is that access (R77, R78, R82); the sequencer's turn runs the decoded command, and
changes nothing while BUSY = 0 (R315, R350). -/
def Obligations.StepRunsTheDecodedCommand : Prop :=
  ∀ s : State,
    (∀ (i : Instr), s.busy = true → s.err = none → decode s.pend = .ok i →
      (∀ rest : List Event, s.todo = .sequencer :: rest → step s = exec i { s with todo := rest }) ∧
      (s.todo = [] → step s = exec i s)) ∧
    (s.busy = false →
      (∀ rest : List Event, s.todo = .sequencer :: rest → step s = .next { s with todo := rest }) ∧
      (s.todo = [] → step s = .next s)) ∧
    (∀ rest : List Event, s.todo = .sequencer :: rest → step s = sequencerTurn { s with todo := rest }) ∧
    (s.todo = [] → step s = sequencerTurn s) ∧
    (∀ (addr : Nat) (rest : List Event), s.todo = .hostRead addr :: rest →
      step s = hostRead addr { s with todo := rest }) ∧
    (∀ (addr : Nat) (v : Word) (rest : List Event), s.todo = .hostWrite addr v :: rest →
      step s = hostWrite addr v { s with todo := rest })

/-- A command runs when the host writes its word to CMD (R31, R36, R83): the write latches it, and the sequencer's turn
after it executes it. -/
def Obligations.CmdWriteThenTurnRunsTheCommand : Prop :=
  ∀ (s : State) (w : Word) (i : Instr) (rest : List Event),
    s.busy = false → s.err = none → decode w = .ok i → s.todo = .hostWrite 0x008 w :: .sequencer :: rest →
    ∃ t : State, step s = .next t ∧
      t = { s with cmdLast := w, pend := w, busy := true, todo := .sequencer :: rest } ∧
      step t = exec i { t with todo := rest }

/-- BUSY is set only by an accepted CMD write (R35, R36). -/
def Obligations.BusyIsSetOnlyByCmdWrite : Prop :=
  ∀ s t : State, step s = .next t → s.busy = false → t.busy = true →
    ∃ (addr : Nat) (w : Word) (rest : List Event),
      s.todo = .hostWrite addr w :: rest ∧ target s.cfg addr = some (.ctrl .cmd) ∧ t.pend = w

/-- ERR leaves a non-zero value only by a CLEAR write with bit 0 set, or by reset (R35, R305). -/
def Obligations.ErrorsStayUntilCleared : Prop :=
  ∀ (s t : State) (c : ErrCode), step s = .next t → s.err = some c →
    (t.err = some c ∧ t.errOp = s.errOp) ∨
    ∃ rest : List Event, s.todo = .reset :: rest ∨
      ∃ (addr : Nat) (v : Word), s.todo = .hostWrite addr v :: rest ∧ v.getLsbD 0 = true ∧
        target s.cfg addr = some (.ctrl .clear) ∧ t.err = none ∧ t.errOp = 0

/-! ### The host's accesses -/

/-- A CMD write (R36): dropped with OVR set while BUSY = 1, else latched. -/
def Obligations.CmdWriteLatchesOrOverruns : Prop :=
  ∀ (s : State) (w : Word),
    (s.busy = true → hostWrite 0x008 w s = .next { s with cmdLast := w, ovr := true }) ∧
    (s.busy = false → hostWrite 0x008 w s = .next { s with cmdLast := w, pend := w, busy := true }) ∧
    (∀ t : State, hostWrite 0x008 w s = .next t → hostRead 0x008 t = .next { t with replies := w :: t.replies })

/-- A CLEAR write (R37), whatever BUSY is. -/
def Obligations.ClearWriteClears : Prop :=
  ∀ (s : State) (v : Word),
    hostWrite 0x00C v s = .next { s with
      err := if v.toNat % 2 = 1 then none else s.err
      errOp := if v.toNat % 2 = 1 then 0 else s.errOp
      ovr := if v.toNat / 2 % 2 = 1 then false else s.ovr }

/-- The word a STATUS read gives, at any time (R35): ERR, BUSY, OVR and ERR_OP in their bits, every reserved bit 0. -/
def Obligations.StatusReadGivesItsFields : Prop :=
  ∀ s : State, ∃ w : Word, hostRead 0x004 s = .next { s with replies := w :: s.replies } ∧
    w.toNat % 2 ^ 4 = s.errField ∧
    w.getLsbD 8 = s.busy ∧
    w.getLsbD 9 = s.ovr ∧
    w.toNat / 2 ^ 16 % 2 ^ 8 = s.errOp.toNat ∧
    (∀ k : Nat, (4 ≤ k ∧ k ≤ 7) ∨ (10 ≤ k ∧ k ≤ 15) ∨ (24 ≤ k ∧ k ≤ 31) → w.getLsbD k = false)

/-- The register map of R34, read by the host while BUSY = 0, at every LOGN_MAX whose stride holds the whole map. -/
def Obligations.RegisterMapReads : Prop :=
  ∀ s : State, s.busy = false → 4 ≤ s.cfg.lognMax →
    (∀ p ∈ [(0x000, 0x4D410001#32), (0x004, s.statusWord), (0x008, s.cmdLast), (0x00C, 0#32), (0x010, 0x78000001#32),
            (0x014, 0x1A427A41#32), (0x018, BitVec.ofNat 32 s.cfg.nMax), (0x01C, s.logn.setWidth 32),
            (0x020, BitVec.ofNat 32 (2 ^ s.logn.toNat)), (0x024, s.inLenA), (0x028, s.inLenB), (0x02C, s.lenA),
            (0x030, s.lenB), (0x034, s.resLen), (0x038, s.outLen)],
      hostRead p.1 s = .next { s with replies := p.2 :: s.replies }) ∧
    (∀ k : Reg,
      hostRead (0x040 + 8 * k.val) s = .next { s with replies := BitVec.ofNat 32 (s.reg k).toNat :: s.replies } ∧
      hostRead (0x044 + 8 * k.val) s =
        .next { s with replies := BitVec.ofNat 32 ((s.reg k).toNat / 2 ^ 32) :: s.replies }) ∧
    (∀ off : Nat, off < s.cfg.stride → off = 0x03C ∨ 0x080 ≤ off ∨ off % 4 ≠ 0 →
      hostRead off s = .fault (.busError off))

/-- A write to one half of x[k] changes only that half (R34, R75, R353). -/
def Obligations.XWindowWritesOneHalf : Prop :=
  ∀ (s : State) (k : Reg) (v : Word), s.busy = false → 4 ≤ s.cfg.lognMax →
    (∃ u : XReg, hostWrite (0x040 + 8 * k.val) v s = .next { s with x := s.x.set k u } ∧
      u.toNat = (s.reg k).toNat / 2 ^ 32 * 2 ^ 32 + v.toNat) ∧
    (∃ u : XReg, hostWrite (0x044 + 8 * k.val) v s = .next { s with x := s.x.set k u } ∧
      u.toNat = v.toNat * 2 ^ 32 + (s.reg k).toNat % 2 ^ 32)

/-- The address map of R71 and R72, at every LOGN_MAX: element i of the memory of region k is at k·S + 4·i, and entry
(dir, s) of TWROM at 10·S + 4·(32·dir + s); an offset past a region's last element, a region from 11 on, a misaligned
address and an address of ADDR_W bits or more are unmapped. TWROM's entry reads as R44 gives it, in every state. That R71's
strides also hold at LOGN_MAX ≤ 4, where an entry of TWROM or a register of R34 at an offset of S or more has no address of
its own, is the model's reading (log entry 8). -/
def Obligations.AddressMapOfTheMemories : Prop :=
  (∀ c : Config,
    (∀ r ∈ [(1, MemId.inA, c.nMax + 1), (2, MemId.inB, c.nMax + 1), (3, MemId.digA, c.nMax), (4, MemId.digB, c.nMax),
            (5, MemId.bufA, c.nMax), (6, MemId.bufB, c.nMax), (7, MemId.bufC, c.nMax), (8, MemId.res, c.nMax + 1),
            (9, MemId.out, c.nMax + 2)],
      ∀ i : Nat,
        (i < r.2.2 → target c (r.1 * 2 ^ (c.lognMax + 3) + 4 * i) = some (.elem r.2.1 i)) ∧
        (r.2.2 ≤ i → 4 * i < 2 ^ (c.lognMax + 3) → target c (r.1 * 2 ^ (c.lognMax + 3) + 4 * i) = none)) ∧
    (∀ p ∈ [(0, Dir.fwd), (1, Dir.inv)], ∀ k < 32, 4 * (32 * p.1 + k) < 2 ^ (c.lognMax + 3) →
      target c (10 * 2 ^ (c.lognMax + 3) + 4 * (32 * p.1 + k)) = some (.rom p.2 k)) ∧
    (∀ i : Nat, 64 ≤ i → 4 * i < 2 ^ (c.lognMax + 3) → target c (10 * 2 ^ (c.lognMax + 3) + 4 * i) = none) ∧
    (∀ addr : Nat, 11 * 2 ^ (c.lognMax + 3) ≤ addr ∨ 2 ^ (c.lognMax + 7) ≤ addr ∨ addr % 4 ≠ 0 →
      target c addr = none)) ∧
  ∀ (s : State) (d : Dir) (k addr : Nat), s.busy = false → target s.cfg addr = some (.rom d k) →
    hostRead addr s = .next { s with
      replies := BitVec.ofNat 32 (if k ≤ s.cfg.lognMax then rootOfUnity k d else 0) :: s.replies }

/-- How a host access can stop (R77-R79, R352): an access to an unmapped address is a bus error, whatever BUSY is (bus
error before race is log entry 6); while BUSY = 1 the accesses with a defined result are exactly those of R352, by their
addresses, and every other mapped access is a race. -/
def Obligations.BusErrorsAndRaces : Prop :=
  ∀ (s : State) (addr : Nat) (v : Word),
    (target s.cfg addr = none ↔
      (hostRead addr s = .fault (.busError addr) ∧ hostWrite addr v s = .fault (.busError addr))) ∧
    (s.busy = true → 2 ≤ s.cfg.lognMax → target s.cfg addr ≠ none →
      (addr ∈ [0x000, 0x004, 0x008, 0x010, 0x014, 0x018] → ∃ t : State, hostRead addr s = .next t) ∧
      (addr ∉ [0x000, 0x004, 0x008, 0x010, 0x014, 0x018] → hostRead addr s = .fault (.hostRace addr)) ∧
      (addr ∈ [0x008, 0x00C] → ∃ t : State, hostWrite addr v s = .next t) ∧
      (addr ∉ [0x008, 0x00C] → hostWrite addr v s = .fault (.hostRace addr)))

/-- A read changes no state of the hardware and is idempotent (R77): it only hands the host its word (log entry 3). While
BUSY = 0, the word at an element of any memory is the element zero-extended (R74), and reading an element no one has written
is a fault that names it (R341), in every state. -/
def Obligations.HostReadHasNoSideEffect : Prop :=
  (∀ (s t : State) (addr : Nat), hostRead addr s = .next t →
    ∃ w : Word, t = { s with replies := w :: s.replies } ∧
      hostRead addr t = .next { s with replies := w :: w :: s.replies }) ∧
  ∀ (s : State) (m : MemId) (i addr : Nat), s.busy = false → target s.cfg addr = some (.elem m i) →
    (∀ v : Nat, s.element m i = some v →
      ∃ w : Word, w.toNat = v ∧ hostRead addr s = .next { s with replies := w :: s.replies }) ∧
    (s.element m i = none → hostRead addr s = .fault (.unwritten m i))

/-- While BUSY = 0 a write to an element of IN or BUF stores it (IN keeps bits [7:0]), a read of it then returns what was
stored, and no other element of any memory changes (R72, R74, R78, R87). A write to IN_LEN_A or IN_LEN_B stores any 32-bit
value and changes nothing else, and a read of it then returns the value (R34), at every LOGN_MAX whose stride holds the two
registers (log entry 8). -/
def Obligations.HostWriteThenReadReturnsIt : Prop :=
  (∀ (s : State) (m : MemId) (i addr : Nat) (v : Word),
    s.busy = false → m ∈ [MemId.inA, .inB, .bufA, .bufB, .bufC] → target s.cfg addr = some (.elem m i) →
    ∃ (t : State) (w : Word), hostWrite addr v s = .next t ∧
      w = (if m = .inA ∨ m = .inB then BitVec.ofNat 32 (v.toNat % 2 ^ 8) else v) ∧
      hostRead addr t = .next { t with replies := w :: t.replies } ∧
      (∀ (m' : MemId) (j : Nat), (m', j) ≠ (m, i) → t.elemWord m' j = s.elemWord m' j) ∧
      t = { s with inA := t.inA, inB := t.inB, bufA := t.bufA, bufB := t.bufB, bufC := t.bufC }) ∧
  ∀ (s : State) (v : Word), s.busy = false → 3 ≤ s.cfg.lognMax →
    hostWrite 0x024 v s = .next { s with inLenA := v } ∧
    hostRead 0x024 { s with inLenA := v } = .next { s with inLenA := v, replies := v :: s.replies } ∧
    hostWrite 0x028 v s = .next { s with inLenB := v } ∧
    hostRead 0x028 { s with inLenB := v } = .next { s with inLenB := v, replies := v :: s.replies }

/-- While BUSY = 0 a write to anything read-only has no effect (R33, R72, R78). -/
def Obligations.ReadOnlyWritesHaveNoEffect : Prop :=
  ∀ (s : State) (addr : Nat) (v : Word) (g : Target), s.busy = false → target s.cfg addr = some g →
    ((∃ (d : Dir) (k : Nat), g = .rom d k) ∨
      (∃ (m : MemId) (i : Nat), g = .elem m i ∧ m ∈ [MemId.digA, .digB, .res, .out]) ∨
      (∃ r ∈ [CtrlReg.id, .status, .mod, .root, .nmax, .logn, .nsize, .lenA, .lenB, .resLen, .outLen], g = .ctrl r)) →
    hostWrite addr v s = .next s

/-! ### Register transfer -/

/-- NOP (R130) and LDI (R131): what each leaves. -/
def Obligations.NopAndLdiComplete : Prop :=
  ∀ s : State,
    exec .nop s = .next { s with busy := false } ∧
    ∀ (ra : Reg) (imm : BitVec 21), ∃ v : XReg, v.toNat = imm.toNat ∧
      exec (.ldi ra imm) s = .next { s with x := s.x.set ra v, busy := false }

/-- LDW (R132): the index check, then the word moved unchanged and zero-extended; an unwritten word faults (R341). -/
def Obligations.LdwMovesTheWord : Prop :=
  ∀ (s : State) (ra rb : Reg) (bs : Buf),
    (s.cfg.nMax ≤ (s.reg rb).toNat → exec (.ldw ra rb bs) s = .next (raised s .indexRange)) ∧
    ((s.reg rb).toNat < s.cfg.nMax → (s.buf bs).read (s.reg rb).toNat = none →
      exec (.ldw ra rb bs) s = .fault (.unwritten (bufId bs) (s.reg rb).toNat)) ∧
    (∀ w : Word, (s.reg rb).toNat < s.cfg.nMax → (s.buf bs).read (s.reg rb).toNat = some w →
      ∃ v : XReg, v.toNat = w.toNat ∧
        exec (.ldw ra rb bs) s = .next { s with x := s.x.set ra v, busy := false })

/-- STW (R133): the index check before the field-element check, then one element stored and nothing else changed. -/
def Obligations.StwStoresTheFieldElement : Prop :=
  ∀ (s : State) (ra rb : Reg) (bs : Buf),
    (s.cfg.nMax ≤ (s.reg rb).toNat → exec (.stw ra rb bs) s = .next (raised s .indexRange)) ∧
    ((s.reg rb).toNat < s.cfg.nMax → modulus ≤ (s.reg ra).toNat →
      exec (.stw ra rb bs) s = .next (raised s .operandRange)) ∧
    ((s.reg rb).toNat < s.cfg.nMax → (s.reg ra).toNat < modulus →
      ∃ (t : State) (v : Word), exec (.stw ra rb bs) s = .next t ∧
        v.toNat = (s.reg ra).toNat ∧ (t.buf bs).read (s.reg rb).toNat = some v ∧
        (∀ (m : MemId) (j : Nat), (m, j) ≠ (bufId bs, (s.reg rb).toNat) → t.elemWord m j = s.elemWord m j) ∧
        t = { s with bufA := t.bufA, bufB := t.bufB, bufC := t.bufC, busy := false })

/-! ### Modular arithmetic -/

/-- MADD, MSUB and MMUL on field elements (R156-R158): the exact sum, difference and product modulo MOD in the destination,
whichever registers coincide. -/
def Obligations.AddSubMulResults : Prop :=
  ∀ (s : State) (ra rb rc : Reg), (s.reg rb).toNat < modulus → (s.reg rc).toNat < modulus →
    (∃ v : XReg, v.toNat = ((s.reg rb).toNat + (s.reg rc).toNat) % modulus ∧
      exec (.madd ra rb rc) s = .next { s with x := s.x.set ra v, busy := false }) ∧
    (∃ v : XReg, (v.toNat : Int) = ((s.reg rb).toNat - (s.reg rc).toNat : Int) % (modulus : Int) ∧
      exec (.msub ra rb rc) s = .next { s with x := s.x.set ra v, busy := false }) ∧
    (∃ v : XReg, v.toNat = (s.reg rb).toNat * (s.reg rc).toNat % modulus ∧
      exec (.mmul ra rb rc) s = .next { s with x := s.x.set ra v, busy := false })

/-- MPOW (R159): b^e mod MOD exactly, for any 64-bit exponent, the exponent not reduced first. -/
def Obligations.MpowResult : Prop :=
  ∀ (s : State) (ra rb rc : Reg), (s.reg rb).toNat < modulus →
    ∃ v : XReg, v.toNat = (s.reg rb).toNat ^ (s.reg rc).toNat % modulus ∧
      exec (.mpow ra rb rc) s = .next { s with x := s.x.set ra v, busy := false }

/-- MINV (R154, R160): the inverse of a non-zero field element, and 0 for 0, with no error. -/
def Obligations.MinvResult : Prop :=
  ∀ (s : State) (ra rb : Reg), (s.reg rb).toNat < modulus →
    ∃ v : XReg, v.toNat = (s.reg rb).toNat ^ (modulus - 2) % modulus ∧
      ((s.reg rb).toNat ≠ 0 → (s.reg rb).toNat * v.toNat % modulus = 1) ∧
      ((s.reg rb).toNat = 0 → v.toNat = 0) ∧
      exec (.minv ra rb) s = .next { s with x := s.x.set ra v, busy := false }

/-- MRED (R155, R161): any 64-bit value reduced modulo MOD. -/
def Obligations.MredResult : Prop :=
  ∀ (s : State) (ra rb : Reg),
    ∃ v : XReg, v.toNat = (s.reg rb).toNat % modulus ∧
      exec (.mred ra rb) s = .next { s with x := s.x.set ra v, busy := false }

/-- A register operand that must be a field element and is not raises E_OPERAND_RANGE, and nothing else changes
(R156-R160, R207, R302). -/
def Obligations.UnreducedRegisterOperandsRaise : Prop :=
  ∀ (s : State) (ra rb rc : Reg),
    (modulus ≤ (s.reg rb).toNat ∨ modulus ≤ (s.reg rc).toNat →
      exec (.madd ra rb rc) s = .next (raised s .operandRange) ∧
      exec (.msub ra rb rc) s = .next (raised s .operandRange) ∧
      exec (.mmul ra rb rc) s = .next (raised s .operandRange)) ∧
    (modulus ≤ (s.reg rb).toNat →
      exec (.mpow ra rb rc) s = .next (raised s .operandRange) ∧
      exec (.minv ra rb) s = .next (raised s .operandRange)) ∧
    (modulus ≤ (s.reg ra).toNat ∨ modulus ≤ (s.reg rb).toNat ∨ modulus ≤ (s.reg rc).toNat →
      exec (.bfly ra rb rc) s = .next (raised s .operandRange))

/-! ### The transform engine -/

/-- `bitrev` reverses the low `bits` bits of its argument and is its own inverse (R200). -/
def Obligations.BitRevReversesTheBits : Prop :=
  ∀ bits i : Nat, i < 2 ^ bits →
    bitRev i bits < 2 ^ bits ∧ bitRev (bitRev i bits) bits = i ∧
    ∀ k : Nat, k < bits → (bitRev i bits).testBit (bits - 1 - k) = i.testBit k

/-- The stage roots (R201): the value of `w_len`, order exactly 2^s, and the two directions inverse to each other. -/
def Obligations.StageRootsHaveExactOrder : Prop :=
  ∀ s : Nat, s ≤ 27 →
    (∀ d : Dir, stageRoot s d = rootOfUnity s d ∧
      rootOfUnity s d ^ 2 ^ s % modulus = 1 ∧
      ∀ k : Nat, 0 < k → k < 2 ^ s → rootOfUnity s d ^ k % modulus ≠ 1) ∧
    rootOfUnity s .fwd * rootOfUnity s .inv % modulus = 1

/-- BFLY (R207) on field elements: u + v·w and u − v·w modulo MOD, all sources read before either write, so rc may be ra
or rb. -/
def Obligations.BflyResult : Prop :=
  ∀ (s : State) (ra rb rc : Reg), ra ≠ rb →
    (s.reg ra).toNat < modulus → (s.reg rb).toNat < modulus → (s.reg rc).toNat < modulus →
    ∃ p q : XReg,
      p.toNat = ((s.reg ra).toNat + (s.reg rb).toNat * (s.reg rc).toNat) % modulus ∧
      (q.toNat : Int) = ((s.reg ra).toNat - (s.reg rb).toNat * (s.reg rc).toNat : Int) % (modulus : Int) ∧
      exec (.bfly ra rb rc) s = .next { s with x := (s.x.set ra p).set rb q, busy := false }

/-- ROOTW (R208) and TWID (R209): the stage root and its power for a stage up to LOGN_MAX, E_UNSUPPORTED_SIZE above. -/
def Obligations.RootwAndTwidRead : Prop :=
  ∀ (s : State) (ra rb rc : Reg) (d : Dir),
    ((s.reg rb).toNat ≤ s.cfg.lognMax →
      (∃ v : XReg, v.toNat = rootOfUnity (s.reg rb).toNat d ∧
        exec (.rootw ra rb d) s = .next { s with x := s.x.set ra v, busy := false }) ∧
      (∃ v : XReg, v.toNat = rootOfUnity (s.reg rb).toNat d ^ (s.reg rc).toNat % modulus ∧
        exec (.twid ra rb rc d) s = .next { s with x := s.x.set ra v, busy := false })) ∧
    (s.cfg.lognMax < (s.reg rb).toNat →
      exec (.rootw ra rb d) s = .next (raised s .unsupportedSize) ∧
      exec (.twid ra rb rc d) s = .next (raised s .unsupportedSize))

/-- BITREV (R204) of a buffer whose entries below n are written: entry i is the old entry bitrev(i), whatever words they
are; entries from n on, every other memory and register are unchanged. -/
def Obligations.BitrevPermutesTheBuffer : Prop :=
  ∀ (s : State) (b : Buf), (s.buf b).full s.size →
    ∃ t : State, exec (.bitrev b) s = .next t ∧
      t = { s.setBuf b (t.buf b) with busy := false } ∧
      (∀ i < s.size, (t.buf b).read i = (s.buf b).read (bitRev i s.logn.toNat)) ∧
      (∀ i : Nat, s.size ≤ i → (t.buf b).read i = (s.buf b).read i)

/-- NTT (R205, R210) of field elements f: entry k becomes the transform Σ f(i)·ω^(i·k) mod MOD, scaled by inv_mod(n) in
the inverse direction; entries from n on, every other memory and register are unchanged. -/
def Obligations.NttComputesTheTransform : Prop :=
  ∀ (s : State) (b : Buf) (d : Dir) (f : Nat → Nat),
    s.logn.toNat ≤ 27 → (s.buf b).fields s.size f →
    ∃ t : State, exec (.ntt b d) s = .next t ∧
      t = { s.setBuf b (t.buf b) with busy := false } ∧
      (t.buf b).fields s.size (fun k =>
        scaleFactor s.logn.toNat d *
          (∑ i ∈ Finset.range s.size, f i * rootOfUnity s.logn.toNat d ^ (i * k)) % modulus) ∧
      (∀ i : Nat, s.size ≤ i → (t.buf b).read i = (s.buf b).read i)

/-- NTT fwd then NTT inv at the same LOGN restores a buffer of field elements (R210): neither raises an error, each changes
nothing but the buffer and BUSY, and every element of the buffer ends as it began. -/
def Obligations.NttInverseRestoresTheBuffer : Prop :=
  ∀ (s : State) (b : Buf) (f : Nat → Nat), s.logn.toNat ≤ 27 → (s.buf b).fields s.size f →
    ∃ t u : State, exec (.ntt b .fwd) s = .next t ∧ exec (.ntt b .inv) t = .next u ∧
      t.err = s.err ∧ u.err = s.err ∧
      t = { s.setBuf b (t.buf b) with busy := false } ∧ u = { s.setBuf b (u.buf b) with busy := false } ∧
      ∀ i : Nat, (u.buf b).read i = (s.buf b).read i

/-! ### Convolution -/

/-- PMUL (R232) of field elements f and g: the products modulo MOD, the buffers aliasing in any combination. -/
def Obligations.PmulMultipliesPointwise : Prop :=
  ∀ (s : State) (bd b1 b2 : Buf) (f g : Nat → Nat),
    (s.buf b1).fields s.size f → (s.buf b2).fields s.size g →
    ∃ t : State, exec (.pmul bd b1 b2) s = .next t ∧
      t = { s.setBuf bd (t.buf bd) with busy := false } ∧
      (t.buf bd).fields s.size (fun i => f i * g i % modulus) ∧
      (∀ i : Nat, s.size ≤ i → (t.buf bd).read i = (s.buf bd).read i)

/-- NTT, PMUL and CARRY (R41) raise E_OPERAND_RANGE, with nothing else changed, when the entries before the first that is
not a field element are written. -/
def Obligations.UnreducedBufferEntriesRaise : Prop :=
  ∀ (s : State) (b bd b2 : Buf) (d : Dir) (j : Nat) (w : Word) (f g : Nat → Nat),
    j < s.size → (s.buf b).fields j f → (s.buf b).read j = some w → modulus ≤ w.toNat →
    exec (.ntt b d) s = .next (raised s .operandRange) ∧
    exec (.carry b) s = .next (raised s .operandRange) ∧
    ((s.buf b2).fields j g → exec (.pmul bd b b2) s = .next (raised s .operandRange)) ∧
    ((s.buf b2).fields (j + 1) g → exec (.pmul bd b2 b) s = .next (raised s .operandRange))

/-- SETN (R230, R234): LOGN becomes the logarithm of the smallest power of two that is at least the request, and no
buffer is touched; a request above N_MAX raises E_UNSUPPORTED_SIZE. -/
def Obligations.SetnRoundsUp : Prop :=
  ∀ (s : State) (ra : Reg),
    ((s.reg ra).toNat ≤ s.cfg.nMax →
      ∃ k : BitVec 5, k.toNat = Nat.clog 2 (s.reg ra).toNat ∧
        exec (.setn ra) s = .next { s with logn := k, busy := false }) ∧
    (s.cfg.nMax < (s.reg ra).toNat → exec (.setn ra) s = .next (raised s .unsupportedSize))

/-- PAD (R233) of digit vectors f and g whose lengths meet its two checks: LOGN for the smallest power of two m ≥ a + b,
the digit vectors zero-padded to m in BUF_A and BUF_B, entries from m on and everything else unchanged. -/
def Obligations.PadLoadsTheDigitVectors : Prop :=
  ∀ (s : State) (f g : Nat → Nat),
    s.lenA.toNat + s.lenB.toNat ≤ s.cfg.nMax → 81 * min s.lenA.toNat s.lenB.toNat < modulus →
    s.digA.digits s.lenA.toNat f → s.digB.digits s.lenB.toNat g →
    ∃ t : State, exec .pad s = .next t ∧
      t = { s with logn := t.logn, bufA := t.bufA, bufB := t.bufB, busy := false } ∧
      t.logn.toNat = Nat.clog 2 (s.lenA.toNat + s.lenB.toNat) ∧
      t.bufA.fields t.size (fun i => if i < s.lenA.toNat then f i else 0) ∧
      t.bufB.fields t.size (fun i => if i < s.lenB.toNat then g i else 0) ∧
      (∀ i : Nat, t.size ≤ i → t.bufA.read i = s.bufA.read i ∧ t.bufB.read i = s.bufB.read i)

/-- Lengths beyond the transform or beyond the bounding invariant (R231, R233, R235): PAD and CONV raise
E_UNSUPPORTED_SIZE before anything is written. -/
def Obligations.OversizeLengthsRaise : Prop :=
  ∀ s : State, s.cfg.nMax < s.lenA.toNat + s.lenB.toNat ∨ modulus ≤ 81 * min s.lenA.toNat s.lenB.toNat →
    exec .pad s = .next (raised s .unsupportedSize) ∧ exec .conv s = .next (raised s .unsupportedSize)

/-- CONV (R235, R236): BUF_C holds the exact convolution coefficients, and nothing but LOGN and the buffers changes. -/
def Obligations.ConvIsTheExactConvolution : Prop :=
  ∀ (s : State) (f g : Nat → Nat),
    s.lenA.toNat + s.lenB.toNat ≤ s.cfg.nMax → 81 * min s.lenA.toNat s.lenB.toNat < modulus →
    s.digA.digits s.lenA.toNat f → s.digB.digits s.lenB.toNat g →
    ∃ t : State, exec .conv s = .next t ∧
      t = { s with logn := t.logn, bufA := t.bufA, bufB := t.bufB, bufC := t.bufC, busy := false } ∧
      t.logn.toNat = Nat.clog 2 (s.lenA.toNat + s.lenB.toNat) ∧
      t.bufC.fields t.size (coefficient s.lenA.toNat s.lenB.toNat f g)

/-- CONV is its sequence of R235 run as one command: the same end state, or the same fault, or, if a step raises an error,
that error with no other effect. -/
def Obligations.ConvIsItsSequence : Prop :=
  ∀ s : State, s.err = none →
    exec .conv s =
      match runCommands [.pad, .ntt .A .fwd, .ntt .B .fwd, .pmul .C .A .B, .ntt .C .inv] s with
      | .next t => .next (match t.err with | none => t | some c => raised s c)
      | r => r

/-! ### Carry -/

/-- The width of the carry (R251): over field elements f no carry of the walk exceeds (MOD − 1) div 9 and no sum
2,236,962,133; a successful CARRY emits at most 9 residual digits, and E_RESULT_OVERFLOW arises only when n + 9 > RES_CAP. -/
def Obligations.CarryStaysBelowItsBound : Prop :=
  ∀ (s : State) (b : Buf) (f : Nat → Nat), (s.buf b).fields s.size f →
    (∀ k ≤ s.size, (carryWalk 0 ((List.range k).map f)).2 ≤ (modulus - 1) / 9) ∧
    (∀ k < s.size, f k + (carryWalk 0 ((List.range k).map f)).2 < 2236962134) ∧
    ∀ t : State, s.err = none → exec (.carry b) s = .next t →
      (t.err = none → t.resLen.toNat ≤ s.size + 9) ∧ (t.err = some .resultOverflow → s.cfg.resCap < s.size + 9)

/-- CARRY (R250, R252) of field elements f with value V = Σ f(i)·10^i. If V fits RES_CAP digits, RES holds the decimal
digits of V, n of them or as many as V has, and nothing else changes; else E_RESULT_OVERFLOW. That the overflow follows
R250's pseudocode alone, and so at LOGN_MAX = 3 also arises at n < N_MAX against R251's remark, is the model's reading
(DEDUCED, log entry 12). -/
def Obligations.CarryNormalizes : Prop :=
  ∀ (s : State) (b : Buf) (f : Nat → Nat), s.logn.toNat ≤ s.cfg.lognMax → (s.buf b).fields s.size f →
    (weighted s.size f < 10 ^ s.cfg.resCap →
      ∃ (t : State) (ds : Nat → Nat), exec (.carry b) s = .next t ∧
        t = { s with res := t.res, resLen := t.resLen, busy := false } ∧
        t.resLen.toNat = max s.size (Nat.digits 10 (weighted s.size f)).length ∧
        t.res.digits t.resLen.toNat ds ∧
        weighted t.resLen.toNat ds = weighted s.size f ∧
        (∀ i : Nat, t.resLen.toNat ≤ i → t.res.read i = s.res.read i)) ∧
    (10 ^ s.cfg.resCap ≤ weighted s.size f → exec (.carry b) s = .next (raised s .resultOverflow))

/-! ### The codec -/

/-- PARSE (R180-R182) of a numeral of at most DIG_CAP digits: the digits with the last character at index 0, leading zeros
kept, and their count; nothing else changes. -/
def Obligations.ParseDecodesTheNumeral : Prop :=
  ∀ (s : State) (k : Numeral) (cs : List Nat), s.spells k cs → cs.length ≤ s.cfg.digCap →
    ∃ (t : State) (len : Word), exec (.parse k) s = .next t ∧
      len.toNat = cs.length ∧
      t = { s.setDigits k (t.digMem k) len with busy := false } ∧
      (t.digMem k).digits cs.length (fun i => cs.getD (cs.length - 1 - i) 0) ∧
      (∀ i : Nat, cs.length ≤ i → (t.digMem k).read i = (s.digMem k).read i)

/-- PARSE's errors in their order (R180, R182, R183, R304): byte count, empty numeral, digit count, bad byte. -/
def Obligations.ParseErrorsInOrder : Prop :=
  ∀ (s : State) (k : Numeral),
    (s.cfg.inCap < (s.inLen k).toNat → exec (.parse k) s = .next (raised s .unsupportedSize)) ∧
    ((s.inLen k).toNat = 0 ∨ ((s.inLen k).toNat = 1 ∧ (s.inMem k).read 0 = some 0x0A#8) →
      exec (.parse k) s = .next (raised s .invalidDigit)) ∧
    (∀ c : Byte, (s.inLen k).toNat = s.cfg.inCap → (s.inMem k).read s.cfg.digCap = some c → c ≠ 0x0A#8 →
      exec (.parse k) s = .next (raised s .unsupportedSize)) ∧
    (∀ (len j : Nat) (c last : Byte), len ≤ s.cfg.digCap → j < len →
      (∀ i < j, ∃ e : Byte, (s.inMem k).read i = some e ∧ 0x30 ≤ e.toNat ∧ e.toNat ≤ 0x39) →
      (s.inMem k).read j = some c → c.toNat < 0x30 ∨ 0x39 < c.toNat →
      ((s.inLen k).toNat = len ∧ (s.inMem k).read (len - 1) = some last ∧ last ≠ 0x0A#8) ∨
        ((s.inLen k).toNat = len + 1 ∧ (s.inMem k).read len = some 0x0A#8) →
      exec (.parse k) s = .next (raised s .invalidDigit))

/-- RENDER (R185, R186) of result digits with value V: OUT holds the decimal string of V with no leading zero and one LF,
OUT_LEN its length; nothing else changes. -/
def Obligations.RenderWritesTheDecimalLine : Prop :=
  ∀ (s : State) (f : Nat → Nat), s.resLen.toNat ≤ s.cfg.resCap → s.res.digits s.resLen.toNat f →
    ∃ t : State, exec .render s = .next t ∧
      t = { s with out := t.out, outLen := t.outLen, busy := false } ∧
      t.out.startsWith (decimalLine (weighted s.resLen.toNat f)) ∧
      t.outLen.toNat = (decimalLine (weighted s.resLen.toNat f)).length ∧
      (∀ i : Nat, t.outLen.toNat ≤ i → t.out.read i = s.out.read i)

/-! ### The pipeline -/

/-- MULT (R271, R272): for numerals within the size bounds, OUT is the decimal string of the product and one LF. -/
def Obligations.MultWritesTheProduct : Prop :=
  ∀ (s : State) (cs ds : List Nat), s.spells .A cs → s.spells .B ds →
    cs.length + ds.length ≤ s.cfg.nMax → 81 * min cs.length ds.length < modulus →
    ∃ t : State, exec .mult s = .next t ∧ t.err = s.err ∧ t.errOp = s.errOp ∧ t.busy = false ∧
      t.out.startsWith (decimalLine (numeralValue cs * numeralValue ds)) ∧
      t.outLen.toNat = (decimalLine (numeralValue cs * numeralValue ds)).length ∧
      t = { s with
        digA := t.digA, digB := t.digB, lenA := t.lenA, lenB := t.lenB, logn := t.logn,
        bufA := t.bufA, bufB := t.bufB, bufC := t.bufC, res := t.res, resLen := t.resLen,
        out := t.out, outLen := t.outLen, busy := false }

/-- MULT succeeds exactly when both numerals spell digits and the sizes fit (R272). -/
def Obligations.MultSucceedsExactlyWhen : Prop :=
  ∀ s : State, s.err = none →
    ((∃ t : State, exec .mult s = .next t ∧ t.err = none) ↔
      ∃ cs ds : List Nat, s.spells .A cs ∧ s.spells .B ds ∧
        cs.length ≤ s.cfg.digCap ∧ ds.length ≤ s.cfg.digCap ∧
        2 ^ Nat.clog 2 (cs.length + ds.length) ≤ s.cfg.nMax ∧ 81 * min cs.length ds.length < modulus)

/-- MULT is its sequence of R270 run as one command: the same end state, or the same fault, or, if a step raises an error,
that error with no other effect. -/
def Obligations.MultIsItsSequence : Prop :=
  ∀ s : State, s.err = none →
    exec .mult s =
      match runCommands [.parse .A, .parse .B, .conv, .carry .C, .render] s with
      | .next t => .next (match t.err with | none => t | some c => raised s c)
      | r => r

/-- The result of a successful MULT depends only on the numeral bytes and their lengths (R344), whatever any other memory
or register held. -/
def Obligations.MultDependsOnlyOnTheNumerals : Prop :=
  ∀ s s' t : State, s.cfg = s'.cfg → s.err = none → s'.err = none →
    (∀ k : Numeral, s'.inLen k = s.inLen k ∧ ∀ i < (s.inLen k).toNat, (s'.inMem k).read i = (s.inMem k).read i) →
    exec .mult s = .next t → t.err = none →
    ∃ t' : State, exec .mult s' = .next t' ∧ t'.err = none ∧ t'.outLen = t.outLen ∧
      ∀ i < t.outLen.toNat, t'.out.read i = t.out.read i

/-- Commutativity (R273): swapping the contents of IN_A and IN_B gives the same output. -/
def Obligations.MultCommutes : Prop :=
  ∀ s s' t : State, s.cfg = s'.cfg → s.err = none → s'.err = none →
    s'.inA = s.inB → s'.inB = s.inA → s'.inLenA = s.inLenB → s'.inLenB = s.inLenA →
    exec .mult s = .next t → t.err = none →
    ∃ t' : State, exec .mult s' = .next t' ∧ t'.err = none ∧ t'.outLen = t.outLen ∧
      ∀ i < t.outLen.toNat, t'.out.read i = t.out.read i

/-! ### Rules over all commands -/

/-- Errors are precise (R302): a command either leaves STATUS.ERR and ERR_OP alone, or raises one error code and changes
nothing but ERR, ERR_OP and BUSY. -/
def Obligations.ErrorsArePrecise : Prop :=
  ∀ (i : Instr) (s t : State), exec i s = .next t →
    (t.err = s.err ∧ t.errOp = s.errOp) ∨ ∃ c : ErrCode, t = raised s c

/-- Which command may raise which error (R300), and the codes' numbers; E_ILLEGAL is raised by no decoded command. -/
def Obligations.EachErrorHasItsRaisers : Prop :=
  (∀ (i : Instr) (s t : State) (c : ErrCode), s.err = none → exec i s = .next t → t.err = some c → mayRaise c i = true) ∧
  [ErrCode.invalidDigit, .unsupportedSize, .resultOverflow, .illegal, .operandRange, .indexRange].map ErrCode.code =
    [1, 2, 3, 4, 5, 6]

/-- The frame of every command (R47): the inputs, the constants' parameter, CMD_LAST, PEND, OVR and the host's own fields
never change; the rest changes only where R47's matrix lists the command; BUSY is 0. -/
def Obligations.CommandsWriteOnlyTheirState : Prop :=
  ∀ (i : Instr) (s t : State), exec i s = .next t →
    t.busy = false ∧
    t.cfg = s.cfg ∧ t.inA = s.inA ∧ t.inB = s.inB ∧ t.inLenA = s.inLenA ∧ t.inLenB = s.inLenB ∧
    t.cmdLast = s.cmdLast ∧ t.pend = s.pend ∧ t.ovr = s.ovr ∧ t.todo = s.todo ∧ t.replies = s.replies ∧
    ∀ p : Part, mayWrite i p = false → s.agrees t p

/-- A command never stops but on a read of an element no one has written since reset (R341), and no command is refused. -/
def Obligations.CommandsStopOnlyOnUnwrittenReads : Prop :=
  ∀ (i : Instr) (s : State),
    (∀ f : Fault, exec i s = .fault f → ∃ (m : MemId) (j : Nat), f = .unwritten m j ∧ s.elemWord m j = none) ∧
    ∀ r : Refusal, exec i s ≠ .refused r
end

