-- ==== Sys2Proof/Laws/State.lean ====
section
/-!
SUPPORT. What each named update of the state leaves in each field: one lemma per field and update, so that no later proof
unfolds an update.
-/

namespace Sys2Proof.Machine

open Sys2Proof

/-! ### `x[r] <- v` -/

@[simp] theorem State.setReg_cfg (s : State) (r : Reg) (v : XReg) : (s.setReg r v).cfg = s.cfg := rfl
@[simp] theorem State.setReg_x (s : State) (r : Reg) (v : XReg) : (s.setReg r v).x = s.x.set r v := rfl
@[simp] theorem State.setReg_err (s : State) (r : Reg) (v : XReg) : (s.setReg r v).err = s.err := rfl
@[simp] theorem State.setReg_errOp (s : State) (r : Reg) (v : XReg) : (s.setReg r v).errOp = s.errOp := rfl
@[simp] theorem State.setReg_busy (s : State) (r : Reg) (v : XReg) : (s.setReg r v).busy = s.busy := rfl
@[simp] theorem State.setReg_ovr (s : State) (r : Reg) (v : XReg) : (s.setReg r v).ovr = s.ovr := rfl
@[simp] theorem State.setReg_cmdLast (s : State) (r : Reg) (v : XReg) : (s.setReg r v).cmdLast = s.cmdLast := rfl
@[simp] theorem State.setReg_pend (s : State) (r : Reg) (v : XReg) : (s.setReg r v).pend = s.pend := rfl
@[simp] theorem State.setReg_logn (s : State) (r : Reg) (v : XReg) : (s.setReg r v).logn = s.logn := rfl
@[simp] theorem State.setReg_inLenA (s : State) (r : Reg) (v : XReg) : (s.setReg r v).inLenA = s.inLenA := rfl
@[simp] theorem State.setReg_inLenB (s : State) (r : Reg) (v : XReg) : (s.setReg r v).inLenB = s.inLenB := rfl
@[simp] theorem State.setReg_lenA (s : State) (r : Reg) (v : XReg) : (s.setReg r v).lenA = s.lenA := rfl
@[simp] theorem State.setReg_lenB (s : State) (r : Reg) (v : XReg) : (s.setReg r v).lenB = s.lenB := rfl
@[simp] theorem State.setReg_resLen (s : State) (r : Reg) (v : XReg) : (s.setReg r v).resLen = s.resLen := rfl
@[simp] theorem State.setReg_outLen (s : State) (r : Reg) (v : XReg) : (s.setReg r v).outLen = s.outLen := rfl
@[simp] theorem State.setReg_inA (s : State) (r : Reg) (v : XReg) : (s.setReg r v).inA = s.inA := rfl
@[simp] theorem State.setReg_inB (s : State) (r : Reg) (v : XReg) : (s.setReg r v).inB = s.inB := rfl
@[simp] theorem State.setReg_digA (s : State) (r : Reg) (v : XReg) : (s.setReg r v).digA = s.digA := rfl
@[simp] theorem State.setReg_digB (s : State) (r : Reg) (v : XReg) : (s.setReg r v).digB = s.digB := rfl
@[simp] theorem State.setReg_bufA (s : State) (r : Reg) (v : XReg) : (s.setReg r v).bufA = s.bufA := rfl
@[simp] theorem State.setReg_bufB (s : State) (r : Reg) (v : XReg) : (s.setReg r v).bufB = s.bufB := rfl
@[simp] theorem State.setReg_bufC (s : State) (r : Reg) (v : XReg) : (s.setReg r v).bufC = s.bufC := rfl
@[simp] theorem State.setReg_res (s : State) (r : Reg) (v : XReg) : (s.setReg r v).res = s.res := rfl
@[simp] theorem State.setReg_out (s : State) (r : Reg) (v : XReg) : (s.setReg r v).out = s.out := rfl
@[simp] theorem State.setReg_todo (s : State) (r : Reg) (v : XReg) : (s.setReg r v).todo = s.todo := rfl
@[simp] theorem State.setReg_replies (s : State) (r : Reg) (v : XReg) : (s.setReg r v).replies = s.replies := rfl

/-! ### A field buffer -/

@[simp] theorem State.setBuf_cfg (s : State) (b : Buf) (m : Mem 32) : (s.setBuf b m).cfg = s.cfg := by cases b <;> rfl
@[simp] theorem State.setBuf_x (s : State) (b : Buf) (m : Mem 32) : (s.setBuf b m).x = s.x := by cases b <;> rfl
@[simp] theorem State.setBuf_err (s : State) (b : Buf) (m : Mem 32) : (s.setBuf b m).err = s.err := by cases b <;> rfl
@[simp] theorem State.setBuf_errOp (s : State) (b : Buf) (m : Mem 32) : (s.setBuf b m).errOp = s.errOp := by cases b <;> rfl
@[simp] theorem State.setBuf_busy (s : State) (b : Buf) (m : Mem 32) : (s.setBuf b m).busy = s.busy := by cases b <;> rfl
@[simp] theorem State.setBuf_ovr (s : State) (b : Buf) (m : Mem 32) : (s.setBuf b m).ovr = s.ovr := by cases b <;> rfl
@[simp] theorem State.setBuf_cmdLast (s : State) (b : Buf) (m : Mem 32) : (s.setBuf b m).cmdLast = s.cmdLast := by cases b <;> rfl
@[simp] theorem State.setBuf_pend (s : State) (b : Buf) (m : Mem 32) : (s.setBuf b m).pend = s.pend := by cases b <;> rfl
@[simp] theorem State.setBuf_logn (s : State) (b : Buf) (m : Mem 32) : (s.setBuf b m).logn = s.logn := by cases b <;> rfl
@[simp] theorem State.setBuf_inLenA (s : State) (b : Buf) (m : Mem 32) : (s.setBuf b m).inLenA = s.inLenA := by cases b <;> rfl
@[simp] theorem State.setBuf_inLenB (s : State) (b : Buf) (m : Mem 32) : (s.setBuf b m).inLenB = s.inLenB := by cases b <;> rfl
@[simp] theorem State.setBuf_lenA (s : State) (b : Buf) (m : Mem 32) : (s.setBuf b m).lenA = s.lenA := by cases b <;> rfl
@[simp] theorem State.setBuf_lenB (s : State) (b : Buf) (m : Mem 32) : (s.setBuf b m).lenB = s.lenB := by cases b <;> rfl
@[simp] theorem State.setBuf_resLen (s : State) (b : Buf) (m : Mem 32) : (s.setBuf b m).resLen = s.resLen := by cases b <;> rfl
@[simp] theorem State.setBuf_outLen (s : State) (b : Buf) (m : Mem 32) : (s.setBuf b m).outLen = s.outLen := by cases b <;> rfl
@[simp] theorem State.setBuf_inA (s : State) (b : Buf) (m : Mem 32) : (s.setBuf b m).inA = s.inA := by cases b <;> rfl
@[simp] theorem State.setBuf_inB (s : State) (b : Buf) (m : Mem 32) : (s.setBuf b m).inB = s.inB := by cases b <;> rfl
@[simp] theorem State.setBuf_digA (s : State) (b : Buf) (m : Mem 32) : (s.setBuf b m).digA = s.digA := by cases b <;> rfl
@[simp] theorem State.setBuf_digB (s : State) (b : Buf) (m : Mem 32) : (s.setBuf b m).digB = s.digB := by cases b <;> rfl
@[simp] theorem State.setBuf_res (s : State) (b : Buf) (m : Mem 32) : (s.setBuf b m).res = s.res := by cases b <;> rfl
@[simp] theorem State.setBuf_out (s : State) (b : Buf) (m : Mem 32) : (s.setBuf b m).out = s.out := by cases b <;> rfl
@[simp] theorem State.setBuf_todo (s : State) (b : Buf) (m : Mem 32) : (s.setBuf b m).todo = s.todo := by cases b <;> rfl
@[simp] theorem State.setBuf_replies (s : State) (b : Buf) (m : Mem 32) : (s.setBuf b m).replies = s.replies := by cases b <;> rfl

/-! ### Taking an error (R302) -/

@[simp] theorem State.raise_cfg (s : State) (c : ErrCode) : (s.raise c).cfg = s.cfg := rfl
@[simp] theorem State.raise_x (s : State) (c : ErrCode) : (s.raise c).x = s.x := rfl
@[simp] theorem State.raise_err (s : State) (c : ErrCode) : (s.raise c).err = some c := rfl
@[simp] theorem State.raise_errOp (s : State) (c : ErrCode) : (s.raise c).errOp = opcodeOf s.pend := rfl
@[simp] theorem State.raise_busy (s : State) (c : ErrCode) : (s.raise c).busy = false := rfl
@[simp] theorem State.raise_ovr (s : State) (c : ErrCode) : (s.raise c).ovr = s.ovr := rfl
@[simp] theorem State.raise_cmdLast (s : State) (c : ErrCode) : (s.raise c).cmdLast = s.cmdLast := rfl
@[simp] theorem State.raise_pend (s : State) (c : ErrCode) : (s.raise c).pend = s.pend := rfl
@[simp] theorem State.raise_logn (s : State) (c : ErrCode) : (s.raise c).logn = s.logn := rfl
@[simp] theorem State.raise_inLenA (s : State) (c : ErrCode) : (s.raise c).inLenA = s.inLenA := rfl
@[simp] theorem State.raise_inLenB (s : State) (c : ErrCode) : (s.raise c).inLenB = s.inLenB := rfl
@[simp] theorem State.raise_lenA (s : State) (c : ErrCode) : (s.raise c).lenA = s.lenA := rfl
@[simp] theorem State.raise_lenB (s : State) (c : ErrCode) : (s.raise c).lenB = s.lenB := rfl
@[simp] theorem State.raise_resLen (s : State) (c : ErrCode) : (s.raise c).resLen = s.resLen := rfl
@[simp] theorem State.raise_outLen (s : State) (c : ErrCode) : (s.raise c).outLen = s.outLen := rfl
@[simp] theorem State.raise_inA (s : State) (c : ErrCode) : (s.raise c).inA = s.inA := rfl
@[simp] theorem State.raise_inB (s : State) (c : ErrCode) : (s.raise c).inB = s.inB := rfl
@[simp] theorem State.raise_digA (s : State) (c : ErrCode) : (s.raise c).digA = s.digA := rfl
@[simp] theorem State.raise_digB (s : State) (c : ErrCode) : (s.raise c).digB = s.digB := rfl
@[simp] theorem State.raise_bufA (s : State) (c : ErrCode) : (s.raise c).bufA = s.bufA := rfl
@[simp] theorem State.raise_bufB (s : State) (c : ErrCode) : (s.raise c).bufB = s.bufB := rfl
@[simp] theorem State.raise_bufC (s : State) (c : ErrCode) : (s.raise c).bufC = s.bufC := rfl
@[simp] theorem State.raise_res (s : State) (c : ErrCode) : (s.raise c).res = s.res := rfl
@[simp] theorem State.raise_out (s : State) (c : ErrCode) : (s.raise c).out = s.out := rfl
@[simp] theorem State.raise_todo (s : State) (c : ErrCode) : (s.raise c).todo = s.todo := rfl
@[simp] theorem State.raise_replies (s : State) (c : ErrCode) : (s.raise c).replies = s.replies := rfl

/-! ### The CLEAR write (R37) -/

@[simp] theorem State.clear_cfg (s : State) (v : Word) : (s.clear v).cfg = s.cfg := rfl
@[simp] theorem State.clear_x (s : State) (v : Word) : (s.clear v).x = s.x := rfl
@[simp] theorem State.clear_err (s : State) (v : Word) : (s.clear v).err = if v.getLsbD 0 then none else s.err := rfl
@[simp] theorem State.clear_errOp (s : State) (v : Word) :
    (s.clear v).errOp = if v.getLsbD 0 then 0 else s.errOp := rfl
@[simp] theorem State.clear_busy (s : State) (v : Word) : (s.clear v).busy = s.busy := rfl
@[simp] theorem State.clear_ovr (s : State) (v : Word) :
    (s.clear v).ovr = if v.getLsbD 1 then false else s.ovr := rfl
@[simp] theorem State.clear_cmdLast (s : State) (v : Word) : (s.clear v).cmdLast = s.cmdLast := rfl
@[simp] theorem State.clear_pend (s : State) (v : Word) : (s.clear v).pend = s.pend := rfl
@[simp] theorem State.clear_logn (s : State) (v : Word) : (s.clear v).logn = s.logn := rfl
@[simp] theorem State.clear_inLenA (s : State) (v : Word) : (s.clear v).inLenA = s.inLenA := rfl
@[simp] theorem State.clear_inLenB (s : State) (v : Word) : (s.clear v).inLenB = s.inLenB := rfl
@[simp] theorem State.clear_lenA (s : State) (v : Word) : (s.clear v).lenA = s.lenA := rfl
@[simp] theorem State.clear_lenB (s : State) (v : Word) : (s.clear v).lenB = s.lenB := rfl
@[simp] theorem State.clear_resLen (s : State) (v : Word) : (s.clear v).resLen = s.resLen := rfl
@[simp] theorem State.clear_outLen (s : State) (v : Word) : (s.clear v).outLen = s.outLen := rfl
@[simp] theorem State.clear_inA (s : State) (v : Word) : (s.clear v).inA = s.inA := rfl
@[simp] theorem State.clear_inB (s : State) (v : Word) : (s.clear v).inB = s.inB := rfl
@[simp] theorem State.clear_digA (s : State) (v : Word) : (s.clear v).digA = s.digA := rfl
@[simp] theorem State.clear_digB (s : State) (v : Word) : (s.clear v).digB = s.digB := rfl
@[simp] theorem State.clear_bufA (s : State) (v : Word) : (s.clear v).bufA = s.bufA := rfl
@[simp] theorem State.clear_bufB (s : State) (v : Word) : (s.clear v).bufB = s.bufB := rfl
@[simp] theorem State.clear_bufC (s : State) (v : Word) : (s.clear v).bufC = s.bufC := rfl
@[simp] theorem State.clear_res (s : State) (v : Word) : (s.clear v).res = s.res := rfl
@[simp] theorem State.clear_out (s : State) (v : Word) : (s.clear v).out = s.out := rfl
@[simp] theorem State.clear_todo (s : State) (v : Word) : (s.clear v).todo = s.todo := rfl
@[simp] theorem State.clear_replies (s : State) (v : Word) : (s.clear v).replies = s.replies := rfl

/-! ### The CMD write (R36) -/

@[simp] theorem State.issue_cfg (s : State) (w : Word) : (s.issue w).cfg = s.cfg := by
  unfold State.issue; split <;> rfl
@[simp] theorem State.issue_x (s : State) (w : Word) : (s.issue w).x = s.x := by
  unfold State.issue; split <;> rfl
@[simp] theorem State.issue_err (s : State) (w : Word) : (s.issue w).err = s.err := by
  unfold State.issue; split <;> rfl
@[simp] theorem State.issue_errOp (s : State) (w : Word) : (s.issue w).errOp = s.errOp := by
  unfold State.issue; split <;> rfl
@[simp] theorem State.issue_busy (s : State) (w : Word) : (s.issue w).busy = true := by
  unfold State.issue; split <;> simp_all
@[simp] theorem State.issue_ovr (s : State) (w : Word) :
    (s.issue w).ovr = (s.ovr || s.busy) := by
  unfold State.issue; split <;> simp_all
@[simp] theorem State.issue_cmdLast (s : State) (w : Word) : (s.issue w).cmdLast = w := by
  unfold State.issue; split <;> rfl
@[simp] theorem State.issue_pend (s : State) (w : Word) :
    (s.issue w).pend = if s.busy then s.pend else w := by
  unfold State.issue; split <;> rfl
@[simp] theorem State.issue_logn (s : State) (w : Word) : (s.issue w).logn = s.logn := by
  unfold State.issue; split <;> rfl
@[simp] theorem State.issue_inLenA (s : State) (w : Word) : (s.issue w).inLenA = s.inLenA := by
  unfold State.issue; split <;> rfl
@[simp] theorem State.issue_inLenB (s : State) (w : Word) : (s.issue w).inLenB = s.inLenB := by
  unfold State.issue; split <;> rfl
@[simp] theorem State.issue_lenA (s : State) (w : Word) : (s.issue w).lenA = s.lenA := by
  unfold State.issue; split <;> rfl
@[simp] theorem State.issue_lenB (s : State) (w : Word) : (s.issue w).lenB = s.lenB := by
  unfold State.issue; split <;> rfl
@[simp] theorem State.issue_resLen (s : State) (w : Word) : (s.issue w).resLen = s.resLen := by
  unfold State.issue; split <;> rfl
@[simp] theorem State.issue_outLen (s : State) (w : Word) : (s.issue w).outLen = s.outLen := by
  unfold State.issue; split <;> rfl
@[simp] theorem State.issue_inA (s : State) (w : Word) : (s.issue w).inA = s.inA := by
  unfold State.issue; split <;> rfl
@[simp] theorem State.issue_inB (s : State) (w : Word) : (s.issue w).inB = s.inB := by
  unfold State.issue; split <;> rfl
@[simp] theorem State.issue_digA (s : State) (w : Word) : (s.issue w).digA = s.digA := by
  unfold State.issue; split <;> rfl
@[simp] theorem State.issue_digB (s : State) (w : Word) : (s.issue w).digB = s.digB := by
  unfold State.issue; split <;> rfl
@[simp] theorem State.issue_bufA (s : State) (w : Word) : (s.issue w).bufA = s.bufA := by
  unfold State.issue; split <;> rfl
@[simp] theorem State.issue_bufB (s : State) (w : Word) : (s.issue w).bufB = s.bufB := by
  unfold State.issue; split <;> rfl
@[simp] theorem State.issue_bufC (s : State) (w : Word) : (s.issue w).bufC = s.bufC := by
  unfold State.issue; split <;> rfl
@[simp] theorem State.issue_res (s : State) (w : Word) : (s.issue w).res = s.res := by
  unfold State.issue; split <;> rfl
@[simp] theorem State.issue_out (s : State) (w : Word) : (s.issue w).out = s.out := by
  unfold State.issue; split <;> rfl
@[simp] theorem State.issue_todo (s : State) (w : Word) : (s.issue w).todo = s.todo := by
  unfold State.issue; split <;> rfl
@[simp] theorem State.issue_replies (s : State) (w : Word) : (s.issue w).replies = s.replies := by
  unfold State.issue; split <;> rfl

/-! ### A digit vector (R180) -/

@[simp] theorem State.setDigits_cfg (s : State) (k : Numeral) (m : Mem 4) (n : Word) : (s.setDigits k m n).cfg = s.cfg := by
  cases k <;> rfl
@[simp] theorem State.setDigits_x (s : State) (k : Numeral) (m : Mem 4) (n : Word) : (s.setDigits k m n).x = s.x := by
  cases k <;> rfl
@[simp] theorem State.setDigits_err (s : State) (k : Numeral) (m : Mem 4) (n : Word) : (s.setDigits k m n).err = s.err := by
  cases k <;> rfl
@[simp] theorem State.setDigits_errOp (s : State) (k : Numeral) (m : Mem 4) (n : Word) : (s.setDigits k m n).errOp = s.errOp := by
  cases k <;> rfl
@[simp] theorem State.setDigits_busy (s : State) (k : Numeral) (m : Mem 4) (n : Word) : (s.setDigits k m n).busy = s.busy := by
  cases k <;> rfl
@[simp] theorem State.setDigits_ovr (s : State) (k : Numeral) (m : Mem 4) (n : Word) : (s.setDigits k m n).ovr = s.ovr := by
  cases k <;> rfl
@[simp] theorem State.setDigits_cmdLast (s : State) (k : Numeral) (m : Mem 4) (n : Word) : (s.setDigits k m n).cmdLast = s.cmdLast := by
  cases k <;> rfl
@[simp] theorem State.setDigits_pend (s : State) (k : Numeral) (m : Mem 4) (n : Word) : (s.setDigits k m n).pend = s.pend := by
  cases k <;> rfl
@[simp] theorem State.setDigits_logn (s : State) (k : Numeral) (m : Mem 4) (n : Word) : (s.setDigits k m n).logn = s.logn := by
  cases k <;> rfl
@[simp] theorem State.setDigits_inLenA (s : State) (k : Numeral) (m : Mem 4) (n : Word) : (s.setDigits k m n).inLenA = s.inLenA := by
  cases k <;> rfl
@[simp] theorem State.setDigits_inLenB (s : State) (k : Numeral) (m : Mem 4) (n : Word) : (s.setDigits k m n).inLenB = s.inLenB := by
  cases k <;> rfl
@[simp] theorem State.setDigits_resLen (s : State) (k : Numeral) (m : Mem 4) (n : Word) : (s.setDigits k m n).resLen = s.resLen := by
  cases k <;> rfl
@[simp] theorem State.setDigits_outLen (s : State) (k : Numeral) (m : Mem 4) (n : Word) : (s.setDigits k m n).outLen = s.outLen := by
  cases k <;> rfl
@[simp] theorem State.setDigits_inA (s : State) (k : Numeral) (m : Mem 4) (n : Word) : (s.setDigits k m n).inA = s.inA := by
  cases k <;> rfl
@[simp] theorem State.setDigits_inB (s : State) (k : Numeral) (m : Mem 4) (n : Word) : (s.setDigits k m n).inB = s.inB := by
  cases k <;> rfl
@[simp] theorem State.setDigits_bufA (s : State) (k : Numeral) (m : Mem 4) (n : Word) : (s.setDigits k m n).bufA = s.bufA := by
  cases k <;> rfl
@[simp] theorem State.setDigits_bufB (s : State) (k : Numeral) (m : Mem 4) (n : Word) : (s.setDigits k m n).bufB = s.bufB := by
  cases k <;> rfl
@[simp] theorem State.setDigits_bufC (s : State) (k : Numeral) (m : Mem 4) (n : Word) : (s.setDigits k m n).bufC = s.bufC := by
  cases k <;> rfl
@[simp] theorem State.setDigits_res (s : State) (k : Numeral) (m : Mem 4) (n : Word) : (s.setDigits k m n).res = s.res := by
  cases k <;> rfl
@[simp] theorem State.setDigits_out (s : State) (k : Numeral) (m : Mem 4) (n : Word) : (s.setDigits k m n).out = s.out := by
  cases k <;> rfl
@[simp] theorem State.setDigits_todo (s : State) (k : Numeral) (m : Mem 4) (n : Word) : (s.setDigits k m n).todo = s.todo := by
  cases k <;> rfl
@[simp] theorem State.setDigits_replies (s : State) (k : Numeral) (m : Mem 4) (n : Word) : (s.setDigits k m n).replies = s.replies := by
  cases k <;> rfl

/-! ### Reading back -/

@[simp] theorem State.reg_setReg_same (s : State) (r : Reg) (v : XReg) : (s.setReg r v).reg r = v := by
  simp [State.reg, State.setReg]

theorem State.reg_setReg_ne (s : State) {r r' : Reg} (v : XReg) (h : r' ≠ r) : (s.setReg r v).reg r' = s.reg r' := by
  have : r.val ≠ r'.val := fun e => h (Fin.ext e.symm)
  simp [State.reg, State.setReg, this]

@[simp] theorem State.buf_setBuf_same (s : State) (b : Buf) (m : Mem 32) : (s.setBuf b m).buf b = m := by
  cases b <;> rfl

theorem State.buf_setBuf_ne (s : State) {b b' : Buf} (m : Mem 32) (h : b' ≠ b) : (s.setBuf b m).buf b' = s.buf b' := by
  cases b <;> cases b' <;> first | rfl | exact absurd rfl h

@[simp] theorem State.setBuf_buf (s : State) (b : Buf) : s.setBuf b (s.buf b) = s := by cases b <;> rfl

@[simp] theorem State.setBuf_setBuf (s : State) (b : Buf) (m m' : Mem 32) :
    (s.setBuf b m).setBuf b m' = s.setBuf b m' := by cases b <;> rfl

@[simp] theorem State.size_setBuf (s : State) (b : Buf) (m : Mem 32) : (s.setBuf b m).size = s.size := by
  simp [State.size]

@[simp] theorem State.digMem_setDigits_same (s : State) (k : Numeral) (m : Mem 4) (n : Word) :
    (s.setDigits k m n).digMem k = m := by cases k <;> rfl

@[simp] theorem State.inMem_setDigits (s : State) (k k' : Numeral) (m : Mem 4) (n : Word) :
    (s.setDigits k m n).inMem k' = s.inMem k' := by cases k <;> cases k' <;> rfl

@[simp] theorem State.inLen_setDigits (s : State) (k k' : Numeral) (m : Mem 4) (n : Word) :
    (s.setDigits k m n).inLen k' = s.inLen k' := by cases k <;> cases k' <;> rfl

end Sys2Proof.Machine
end

