-- ==== Sys2Proof/Laws/Mem.lean ====
section
/-!
SUPPORT. The laws of one memory: reading after writing, and the canonical form every operation keeps.
-/

namespace Sys2Proof.Machine

open Sys2Proof

variable {w : Nat}

@[simp] theorem Mem.read_nil (i : Nat) : Mem.read ([] : Mem w) i = none := rfl

/-- Reading after one write: the element written, and every other element as before. -/
theorem Mem.read_write (m : Mem w) (i j : Nat) (v : BitVec w) :
    (m.write i v).read j = if j = i then some v else m.read j := by
  induction m with
  | nil => simp [Mem.write, Mem.read, eq_comm]
  | cons c m ih =>
    obtain ⟨a, u⟩ := c
    unfold Mem.write
    split
    · by_cases hj : j = i
      · subst hj; simp [Mem.read]
      · simp [Mem.read, hj, Ne.symm hj]
    · split
      · rename_i h1 h2
        subst h2
        by_cases hj : j = i
        · subst hj; simp [Mem.read]
        · simp [Mem.read, hj, Ne.symm hj]
      · rename_i h1 h2
        by_cases ha : a = j
        · subst ha; simp [Mem.read, Ne.symm h2]
        · simp only [Mem.read, ha, if_false]; exact ih

@[simp] theorem Mem.read_write_same (m : Mem w) (i : Nat) (v : BitVec w) : (m.write i v).read i = some v := by
  induction m with
  | nil => simp [Mem.write, Mem.read]
  | cons c m ih =>
    unfold Mem.write
    split
    · simp [Mem.read]
    · split
      · simp [Mem.read]
      · rename_i h1 h2; simp [Mem.read, Ne.symm h2, ih]

/-- The cells after a write: the new one, or old ones. -/
theorem Mem.mem_write {m : Mem w} {i : Nat} {v : BitVec w} {c : Nat × BitVec w} (h : c ∈ m.write i v) :
    c = (i, v) ∨ c ∈ m := by
  induction m with
  | nil => simpa [Mem.write] using h
  | cons d m ih =>
    unfold Mem.write at h
    split at h
    · simpa using h
    · split at h
      · simp only [List.mem_cons] at h ⊢; tauto
      · simp only [List.mem_cons] at h ⊢
        rcases h with h | h
        · tauto
        · rcases ih h with h | h <;> tauto

/-- A write keeps the canonical form. -/
theorem Mem.wf_write {m : Mem w} (i : Nat) (v : BitVec w) (h : m.wf) : (m.write i v).wf := by
  induction m with
  | nil => simp [Mem.write, Mem.wf]
  | cons d m ih =>
    obtain ⟨hlt, hm⟩ := List.pairwise_cons.1 h
    unfold Mem.write
    split
    · rename_i h1
      refine List.pairwise_cons.2 ⟨fun c hc => ?_, h⟩
      rcases List.mem_cons.1 hc with rfl | hc
      · exact h1
      · exact lt_trans h1 (hlt c hc)
    · split
      · rename_i h1 h2
        subst h2
        exact List.pairwise_cons.2 ⟨hlt, hm⟩
      · rename_i h1 h2
        refine List.pairwise_cons.2 ⟨fun c hc => ?_, ih hm⟩
        rcases Mem.mem_write hc with rfl | hc
        · show d.1 < i; omega
        · exact hlt c hc

/-- A written element is listed, and conversely. -/
theorem Mem.mem_of_read {m : Mem w} {i : Nat} {v : BitVec w} (h : m.read i = some v) : (i, v) ∈ m := by
  induction m with
  | nil => simp at h
  | cons d m ih =>
    unfold Mem.read at h
    split at h
    · rename_i e
      obtain ⟨a, u⟩ := d
      simp_all
    · exact List.mem_cons_of_mem _ (ih h)

/-- Writing never takes an element's value away. -/
theorem Mem.read_isSome_write {m : Mem w} (i j : Nat) (v : BitVec w) (h : (m.read j).isSome) :
    ((m.write i v).read j).isSome := by
  induction m with
  | nil => simp at h
  | cons d m ih =>
    obtain ⟨a, u⟩ := d
    unfold Mem.write
    split
    · unfold Mem.read; split <;> simp_all
    · split
      · rename_i h1 h2
        subst h2
        unfold Mem.read at h ⊢
        split <;> simp_all
      · unfold Mem.read at h ⊢
        split at h <;> rename_i e
        · simp [e]
        · simp [e, ih h]

/-! ### A list of writes -/

theorem Mem.wf_writeList {m : Mem w} (i : Nat) (vs : List (BitVec w)) (h : m.wf) : (m.writeList i vs).wf := by
  induction vs generalizing m i with
  | nil => exact h
  | cons v vs ih => exact ih (i + 1) (Mem.wf_write i v h)

/-- Reading after a list of writes. -/
theorem Mem.read_writeList (m : Mem w) (i : Nat) (vs : List (BitVec w)) (j : Nat) :
    (m.writeList i vs).read j = if i ≤ j ∧ j < i + vs.length then vs[j - i]? else m.read j := by
  induction vs generalizing m i with
  | nil =>
    have : ¬ (i ≤ j ∧ j < i + ([] : List (BitVec w)).length) := by simp
    rw [if_neg this]; rfl
  | cons v vs ih =>
    rw [Mem.writeList, ih, Mem.read_write]
    by_cases h1 : j = i
    · subst h1; simp
    · by_cases h2 : i ≤ j ∧ j < i + (v :: vs).length
      · have h3 : i + 1 ≤ j ∧ j < i + 1 + vs.length := by simp at h2; omega
        rw [if_pos h3, if_pos h2]
        obtain ⟨k, rfl⟩ : ∃ k, j = i + 1 + k := ⟨j - (i + 1), by omega⟩
        have e1 : i + 1 + k - (i + 1) = k := by omega
        have e2 : i + 1 + k - i = k + 1 := by omega
        rw [e1, e2, List.getElem?_cons_succ]
      · have h3 : ¬ (i + 1 ≤ j ∧ j < i + 1 + vs.length) := by simp at h2; omega
        rw [if_neg h3, if_neg h2, if_neg h1]

theorem Mem.mem_writeList {m : Mem w} {i : Nat} {vs : List (BitVec w)} {c : Nat × BitVec w}
    (h : c ∈ m.writeList i vs) : (i ≤ c.1 ∧ c.1 < i + vs.length ∧ c.2 ∈ vs) ∨ c ∈ m := by
  induction vs generalizing m i with
  | nil => exact .inr h
  | cons v vs ih =>
    rcases ih h with ⟨h1, h2, h3⟩ | h1
    · left; simp only [List.length_cons, List.mem_cons]; exact ⟨by omega, by omega, .inr h3⟩
    · rcases Mem.mem_write h1 with rfl | h1
      · left; simp
      · exact .inr h1

theorem Mem.read_isSome_writeList {m : Mem w} (i j : Nat) (vs : List (BitVec w)) (h : (m.read j).isSome) :
    ((m.writeList i vs).read j).isSome := by
  induction vs generalizing m i with
  | nil => exact h
  | cons v vs ih => exact ih (i + 1) (Mem.read_isSome_write i j v h)

end Sys2Proof.Machine
end

