-- ==== Sys2Proof/Laws/Ops.lean ====
section
/-!
SUPPORT. What each shared operation can do, said once: the end of a command, reads inside a command, checks, and loops of
reads.
-/

namespace Sys2Proof.Machine

open Sys2Proof

/-! ### Sequencing -/

theorem bind_eq_ok {ε α β : Type} {x : Except ε α} {f : α → Except ε β} {b : β} :
    (x >>= f) = .ok b ↔ ∃ a, x = .ok a ∧ f a = .ok b := by
  cases x <;> simp [bind, Except.bind]

theorem bind_eq_error {ε α β : Type} {x : Except ε α} {f : α → Except ε β} {e : ε} :
    (x >>= f) = .error e ↔ x = .error e ∨ ∃ a, x = .ok a ∧ f a = .error e := by
  cases x <;> simp [bind, Except.bind]

@[simp] theorem ok_bind {ε α β : Type} (a : α) (f : α → Except ε β) : ((.ok a : Except ε α) >>= f) = f a := rfl

@[simp] theorem error_bind {ε α β : Type} (e : ε) (f : α → Except ε β) :
    ((.error e : Except ε α) >>= f) = .error e := rfl

@[simp] theorem pure_eq_ok {ε α : Type} (a : α) : (pure a : Except ε α) = .ok a := rfl

/-! ### The end of a command -/

theorem finish_eq_next {s t : State} {r : Except Stop State} :
    finish s r = .next t ↔
      (∃ u, r = .ok u ∧ t = { u with busy := false }) ∨ ∃ c, r = .error (.raise c) ∧ t = s.raise c := by
  rcases r with (c | f) | u <;> simp [finish, eq_comm]

theorem finish_eq_fault {s : State} {r : Except Stop State} {f : Fault} :
    finish s r = .fault f ↔ r = .error (.fault f) := by
  rcases r with (c | f) | u <;> simp [finish]

theorem finish_ne_refused (s : State) (r : Except Stop State) (q : Refusal) : finish s r ≠ .refused q := by
  rcases r with (c | f) | u <;> simp [finish]

@[simp] theorem finish_ok (s t : State) : finish s (.ok t) = .next { t with busy := false } := rfl

@[simp] theorem finish_raise (s : State) (c : ErrCode) : finish s (.error (.raise c)) = .next (s.raise c) := rfl

@[simp] theorem finish_fault (s : State) (f : Fault) : finish s (.error (.fault f)) = .fault f := rfl

/-! ### Reads and checks -/

theorem readElem_eq_ok {w : Nat} {id : MemId} {m : Mem w} {i : Nat} {v : BitVec w} :
    readElem id m i = .ok v ↔ m.read i = some v := by
  unfold readElem; cases m.read i <;> simp

theorem readElem_eq_error {w : Nat} {id : MemId} {m : Mem w} {i : Nat} {e : Stop} :
    readElem id m i = .error e ↔ m.read i = none ∧ e = .fault (.unwritten id i) := by
  unfold readElem; cases m.read i <;> simp [eq_comm]

theorem checkField_eq_ok {v x : Nat} : checkField v = .ok x ↔ v < modulus ∧ x = v := by
  unfold checkField; split <;> simp <;> omega

theorem checkField_eq_error {v : Nat} {e : Stop} :
    checkField v = .error e ↔ modulus ≤ v ∧ e = .raise .operandRange := by
  unfold checkField; split <;> simp_all [eq_comm]

theorem fieldOperand_eq_ok {s : State} {r : Reg} {x : Nat} :
    fieldOperand s r = .ok x ↔ (s.reg r).toNat < modulus ∧ x = (s.reg r).toNat := checkField_eq_ok

theorem fieldOperand_eq_error {s : State} {r : Reg} {e : Stop} :
    fieldOperand s r = .error e ↔ modulus ≤ (s.reg r).toNat ∧ e = .raise .operandRange := checkField_eq_error

theorem indexOperand_eq_ok {s : State} {r : Reg} {x : Nat} :
    indexOperand s r = .ok x ↔ (s.reg r).toNat < s.cfg.nMax ∧ x = (s.reg r).toNat := by
  unfold indexOperand; split <;> simp [eq_comm] <;> omega

theorem indexOperand_eq_error {s : State} {r : Reg} {e : Stop} :
    indexOperand s r = .error e ↔ s.cfg.nMax ≤ (s.reg r).toNat ∧ e = .raise .indexRange := by
  unfold indexOperand; split <;> simp_all [eq_comm]

theorem stageOperand_eq_ok {s : State} {r : Reg} {x : Nat} :
    stageOperand s r = .ok x ↔ (s.reg r).toNat ≤ s.cfg.lognMax ∧ x = (s.reg r).toNat := by
  unfold stageOperand; split <;> simp [eq_comm] <;> omega

theorem stageOperand_eq_error {s : State} {r : Reg} {e : Stop} :
    stageOperand s r = .error e ↔ s.cfg.lognMax < (s.reg r).toNat ∧ e = .raise .unsupportedSize := by
  unfold stageOperand; split <;> simp_all [eq_comm]

theorem fieldElem_eq_ok {id : MemId} {m : Mem 32} {i x : Nat} :
    fieldElem id m i = .ok x ↔ x < modulus ∧ m.read i = some (BitVec.ofNat 32 x) := by
  unfold fieldElem
  rw [bind_eq_ok]
  constructor
  · rintro ⟨v, h1, h2⟩
    obtain ⟨h3, rfl⟩ := checkField_eq_ok.1 h2
    exact ⟨h3, by rw [readElem_eq_ok.1 h1]; simp⟩
  · rintro ⟨h1, h2⟩
    refine ⟨_, readElem_eq_ok.2 h2, checkField_eq_ok.2 ?_⟩
    have : x < 2 ^ 32 := lt_trans h1 (by decide)
    rw [BitVec.toNat_ofNat, Nat.mod_eq_of_lt this]
    exact ⟨h1, rfl⟩

/-- A checked read stops on an unwritten element, or on a word that is no field element. -/
theorem fieldElem_eq_error {id : MemId} {m : Mem 32} {i : Nat} {e : Stop} :
    fieldElem id m i = .error e ↔
      (m.read i = none ∧ e = .fault (.unwritten id i)) ∨
        ∃ v, m.read i = some v ∧ modulus ≤ v.toNat ∧ e = .raise .operandRange := by
  unfold fieldElem
  rw [bind_eq_error]
  simp only [readElem_eq_error, readElem_eq_ok, checkField_eq_error]

/-! ### Loops of reads -/

theorem readList_eq_ok {w : Nat} {id : MemId} {m : Mem w} {count i : Nat} {vs : List (BitVec w)} :
    readList id m count i = .ok vs ↔ vs.length = count ∧ ∀ k < count, m.read (i + k) = vs[k]? := by
  induction count generalizing i vs with
  | zero => cases vs <;> simp [readList]
  | succ count ih =>
    simp only [readList, bind_eq_ok, pure_eq_ok, Except.ok.injEq, readElem_eq_ok]
    constructor
    · rintro ⟨v, hv, us, hus, rfl⟩
      obtain ⟨h1, h2⟩ := ih.1 hus
      refine ⟨by simp [h1], fun k hk => ?_⟩
      cases k with
      | zero => simpa using hv
      | succ k =>
        have := h2 k (by omega)
        rw [List.getElem?_cons_succ, ← this]; congr 1; omega
    · rintro ⟨h1, h2⟩
      cases vs with
      | nil => simp at h1
      | cons v us =>
        refine ⟨v, by simpa using h2 0 (by omega), us, ih.2 ⟨by simpa using h1, fun k hk => ?_⟩, rfl⟩
        have := h2 (k + 1) (by omega)
        rw [List.getElem?_cons_succ] at this
        rw [← this]; congr 1; omega

theorem readList_eq_error {w : Nat} {id : MemId} {m : Mem w} {count i : Nat} {e : Stop}
    (h : readList id m count i = .error e) :
    ∃ k < count, m.read (i + k) = none ∧ e = .fault (.unwritten id (i + k)) := by
  induction count generalizing i with
  | zero => simp [readList] at h
  | succ count ih =>
    simp only [readList, bind_eq_error, pure_eq_ok, reduceCtorEq, and_false, exists_false, or_false,
      readElem_eq_error] at h
    rcases h with h | ⟨v, -, h⟩
    · exact ⟨0, by omega, h⟩
    · obtain ⟨k, hk, h⟩ := ih h
      have e1 : i + (k + 1) = i + 1 + k := by omega
      exact ⟨k + 1, by omega, by rw [e1]; exact h⟩

theorem fieldList_eq_ok {id : MemId} {m : Mem 32} {count i : Nat} {xs : List Nat} :
    fieldList id m count i = .ok xs ↔
      xs.length = count ∧ ∀ k (h : k < xs.length), xs[k] < modulus ∧ m.read (i + k) = some (BitVec.ofNat 32 xs[k]) := by
  induction count generalizing i xs with
  | zero => cases xs <;> simp [fieldList]
  | succ count ih =>
    simp only [fieldList, bind_eq_ok, pure_eq_ok, Except.ok.injEq, fieldElem_eq_ok]
    constructor
    · rintro ⟨v, hv, us, hus, rfl⟩
      obtain ⟨h1, h2⟩ := ih.1 hus
      refine ⟨by simp [h1], fun k hk => ?_⟩
      cases k with
      | zero => simpa using hv
      | succ k =>
        have := h2 k (by simpa using hk)
        rw [List.getElem_cons_succ]
        rwa [show i + (k + 1) = i + 1 + k by omega]
    · rintro ⟨h1, h2⟩
      cases xs with
      | nil => simp at h1
      | cons v us =>
        refine ⟨v, h2 0 (Nat.zero_lt_succ _), us, ih.2 ⟨by simpa using h1, fun k hk => ?_⟩, rfl⟩
        have := h2 (k + 1) (by simpa using hk)
        rw [List.getElem_cons_succ] at this
        rwa [show i + 1 + k = i + (k + 1) by omega]

/-- A loop of checked reads over the field elements `f` gives them as a list. -/
theorem fieldList_of_fields (id : MemId) {m : Mem 32} {n : Nat} {f : Nat → Nat} (h : m.fields n f) :
    fieldList id m n 0 = .ok ((List.range n).map f) :=
  fieldList_eq_ok.2 ⟨by simp, fun k hk => by
    have hk' : k < n := by simpa using hk
    simpa using h k hk'⟩

/-- A loop of checked reads stops at the first element that is unwritten or no field element. -/
theorem fieldList_eq_error {id : MemId} {m : Mem 32} {count i : Nat} {e : Stop}
    (h : fieldList id m count i = .error e) :
    ∃ k < count, (m.read (i + k) = none ∧ e = .fault (.unwritten id (i + k))) ∨
      (∃ v, m.read (i + k) = some v ∧ modulus ≤ v.toNat ∧ e = .raise .operandRange) := by
  induction count generalizing i with
  | zero => simp [fieldList] at h
  | succ count ih =>
    simp only [fieldList, bind_eq_error, pure_eq_ok, reduceCtorEq, and_false, exists_false, or_false,
      fieldElem_eq_error] at h
    rcases h with h | ⟨v, -, h⟩
    · exact ⟨0, by omega, h⟩
    · obtain ⟨k, hk, h⟩ := ih h
      have e1 : i + (k + 1) = i + 1 + k := by omega
      exact ⟨k + 1, by omega, by rw [e1]; exact h⟩

/-- The first entry that is no field element raises E_OPERAND_RANGE. -/
theorem fieldList_raises {id : MemId} {m : Mem 32} {count i j : Nat} {f : Nat → Nat} {w : Word} (hj : j < count)
    (h : ∀ k < j, f k < modulus ∧ m.read (i + k) = some (BitVec.ofNat 32 (f k))) (hr : m.read (i + j) = some w)
    (hw : modulus ≤ w.toNat) : fieldList id m count i = .error (.raise .operandRange) := by
  induction count generalizing i j f with
  | zero => omega
  | succ count ih =>
    rw [fieldList, bind_eq_error]
    cases j with
    | zero => exact .inl (fieldElem_eq_error.2 (.inr ⟨w, hr, hw, rfl⟩))
    | succ j =>
      refine .inr ⟨f 0, fieldElem_eq_ok.2 (h 0 (by omega)), ?_⟩
      rw [bind_eq_error]
      refine .inl (ih (j := j) (f := fun k => f (k + 1)) (by omega) (fun k hk => ?_) ?_)
      · have := h (k + 1) (by omega)
        rwa [show i + 1 + k = i + (k + 1) by omega]
      · rwa [show i + 1 + j = i + (j + 1) by omega]

/-! ### Elements as numbers -/

/-- The word of an element is its number, zero-extended (spec/20_memory.md R74). -/
theorem State.elemWord_eq_element (s : State) (m : MemId) (i : Nat) :
    s.elemWord m i = (s.element m i).map (BitVec.ofNat 32) := by
  cases m <;> simp [State.elemWord, State.element, Function.comp_def, BitVec.ofNat_toNat]

/-- Every element fits a word. -/
theorem State.element_lt {s : State} {m : MemId} {i v : Nat} (h : s.element m i = some v) : v < 2 ^ 32 := by
  cases m <;> simp only [State.element, Option.map_eq_some_iff] at h <;> obtain ⟨a, -, rfl⟩ := h <;> omega

end Sys2Proof.Machine
end

