-- ==== Sys2Proof/Laws/Modular.lean ====
section
/-!
SUPPORT. The functions of the modular unit equal exact arithmetic modulo MOD (spec/41_mod_arith.md R150-R155), and the
bit reversal of R200.
-/

namespace Sys2Proof.Machine

open Sys2Proof

theorem modulus_pos : 0 < modulus := by decide

theorem addMod_eq {x y : Nat} (hx : x < modulus) (hy : y < modulus) : addMod x y = (x + y) % modulus := by
  unfold addMod
  split
  · rw [Nat.mod_eq_sub_mod (by omega), Nat.mod_eq_of_lt (by omega)]
  · rw [Nat.mod_eq_of_lt (by omega)]

theorem addMod_lt {x y : Nat} (hx : x < modulus) (hy : y < modulus) : addMod x y < modulus := by
  rw [addMod_eq hx hy]; exact Nat.mod_lt _ modulus_pos

theorem subMod_eq {x y : Nat} (hx : x < modulus) (hy : y < modulus) : subMod x y = (x + (modulus - y)) % modulus := by
  unfold subMod
  split
  · rw [show x + (modulus - y) = x - y + modulus by omega, Nat.add_mod_right, Nat.mod_eq_of_lt (by omega)]
  · rw [show x + (modulus - y) = x + modulus - y by omega, Nat.mod_eq_of_lt (by omega)]

theorem subMod_lt {x y : Nat} (hx : x < modulus) (hy : y < modulus) : subMod x y < modulus := by
  rw [subMod_eq hx hy]; exact Nat.mod_lt _ modulus_pos

/-- `sub_mod` is the difference modulo MOD, the remainder taken in [0, MOD) (R9, R151). -/
theorem subMod_cast {x y : Nat} (hx : x < modulus) (hy : y < modulus) :
    (subMod x y : Int) = ((x : Int) - y) % (modulus : Int) := by
  unfold subMod
  split
  · rw [Int.emod_eq_of_lt (by omega) (by omega)]; omega
  · rw [← Int.add_emod_right, Int.emod_eq_of_lt (by omega) (by omega)]; omega

theorem mulMod_lt (x y : Nat) : mulMod x y < modulus := Nat.mod_lt _ modulus_pos

theorem modReduce_lt (v : Nat) : modReduce v < modulus := Nat.mod_lt _ modulus_pos

/-- The square-and-multiply loop computes the power, given enough rounds. -/
theorem powLoop_eq (fuel acc a t : Nat) (ht : t < 2 ^ fuel) (hacc : acc < modulus) :
    powLoop fuel acc a t = acc * a ^ t % modulus := by
  induction fuel generalizing acc a t with
  | zero =>
    obtain rfl : t = 0 := by simpa using ht
    simp [powLoop, Nat.mod_eq_of_lt hacc]
  | succ fuel ih =>
    unfold powLoop
    split
    · rename_i h; subst h; simp [Nat.mod_eq_of_lt hacc]
    · have ht2 : t / 2 < 2 ^ fuel := by rw [pow_succ] at ht; omega
      have hsq : (mulMod a a) ^ (t / 2) % modulus = a ^ (2 * (t / 2)) % modulus := by
        rw [mulMod, ← Nat.pow_mod, ← pow_two, ← pow_mul]
      split
      · rename_i h1
        rw [ih _ _ _ ht2 (mulMod_lt _ _), Nat.mul_mod, hsq, ← Nat.mul_mod]
        have : t = 2 * (t / 2) + 1 := by omega
        conv_rhs => rw [this, pow_succ]
        rw [mulMod, Nat.mod_mul_mod]
        congr 1; ring
      · rename_i h1
        rw [ih _ _ _ ht2 hacc, Nat.mul_mod, hsq, ← Nat.mul_mod]
        congr 3; omega

/-- `power_mod` is exact exponentiation modulo MOD (R153). -/
theorem powMod_eq (b : Nat) {e : Nat} (he : e < 2 ^ 64) : powMod b e = b ^ e % modulus := by
  rw [powMod, powLoop_eq 64 1 b e he (by decide), one_mul]

theorem invMod_eq (v : Nat) : invMod v = v ^ (modulus - 2) % modulus := powMod_eq v (by decide)

theorem powMod_lt (b : Nat) {e : Nat} (he : e < 2 ^ 64) : powMod b e < modulus := by
  rw [powMod_eq b he]; exact Nat.mod_lt _ modulus_pos

/-- Zero has no inverse and gives 0 (R154), by evaluation: the power itself is too large to unfold. -/
theorem invMod_zero : invMod 0 = 0 := by decide +kernel

theorem invMod_lt (v : Nat) : invMod v < modulus := powMod_lt v (by decide)

/-- `w_len` as R201 defines it. -/
theorem stageRoot_eq (s : Nat) (d : Dir) : stageRoot s d = rootOfUnity s d := by
  have h : (modulus - 1) / 2 ^ s ≤ modulus - 1 := Nat.div_le_self _ _
  have h2 : modulus - 1 < 2 ^ 64 := by decide
  cases d with
  | fwd => exact powMod_eq root (lt_of_le_of_lt h h2)
  | inv => exact powMod_eq root (lt_of_le_of_lt (Nat.sub_le _ _) h2)

theorem rootOfUnity_lt (s : Nat) (d : Dir) : rootOfUnity s d < modulus := by
  cases d <;> exact Nat.mod_lt _ modulus_pos

theorem scaleFactor_lt (bits : Nat) (d : Dir) : scaleFactor bits d < modulus := by
  cases d with
  | fwd => show 1 < modulus; decide
  | inv => exact Nat.mod_lt _ modulus_pos

/-! ### Values below MOD fit the words that hold them (R9) -/

theorem toNat_fieldWord {v : Nat} (h : v < modulus) : (fieldWord v).toNat = v := by
  rw [fieldWord, BitVec.toNat_ofNat, Nat.mod_eq_of_lt (lt_trans h (by decide))]

theorem toNat_bufWord {v : Nat} (h : v < modulus) : (bufWord v).toNat = v := by
  rw [bufWord, BitVec.toNat_ofNat, Nat.mod_eq_of_lt (lt_trans h (by decide))]

/-! ### Bit reversal (R200) -/

theorem bitRev_lt (bits i : Nat) : bitRev i bits < 2 ^ bits := by
  induction bits generalizing i with
  | zero => simp [bitRev]
  | succ bits ih =>
    have := ih (i / 2)
    have h2 : i % 2 * 2 ^ bits ≤ 1 * 2 ^ bits := Nat.mul_le_mul_right _ (by omega)
    rw [bitRev, pow_succ]; omega

theorem bitRev_double (bits j : Nat) : bitRev (2 * j) (bits + 1) = bitRev j bits := by
  rw [bitRev, show 2 * j % 2 = 0 by omega, show 2 * j / 2 = j by omega, zero_mul, zero_add]

theorem bitRev_double_add_one (bits j : Nat) : bitRev (2 * j + 1) (bits + 1) = 2 ^ bits + bitRev j bits := by
  rw [bitRev, show (2 * j + 1) % 2 = 1 by omega, show (2 * j + 1) / 2 = j by omega, one_mul]

/-- Bit `bits-1-k` of the result is bit `k` of the argument. -/
theorem testBit_bitRev (bits i k : Nat) (hk : k < bits) : (bitRev i bits).testBit (bits - 1 - k) = i.testBit k := by
  induction bits generalizing i k with
  | zero => omega
  | succ bits ih =>
    have hlt := bitRev_lt bits (i / 2)
    rw [bitRev, mul_comm]
    cases k with
    | zero =>
      rw [show bits + 1 - 1 - 0 = bits by omega, Nat.testBit_two_pow_mul_add _ hlt]
      simp [Nat.testBit_zero]
    | succ k =>
      rw [Nat.testBit_two_pow_mul_add _ hlt, if_pos (by omega), show bits + 1 - 1 - (k + 1) = bits - 1 - k by omega,
        ih _ _ (by omega), Nat.testBit_succ]

theorem bitRev_bitRev (bits i : Nat) (h : i < 2 ^ bits) : bitRev (bitRev i bits) bits = i := by
  refine Nat.eq_of_testBit_eq fun k => ?_
  by_cases hk : k < bits
  · have h1 := testBit_bitRev bits (bitRev i bits) (bits - 1 - k) (by omega)
    have h2 := testBit_bitRev bits i k hk
    rw [show bits - 1 - (bits - 1 - k) = k by omega] at h1
    rw [h1, h2]
  · have hp : (2 : Nat) ^ bits ≤ 2 ^ k := Nat.pow_le_pow_right (by decide) (by omega)
    rw [Nat.testBit_lt_two_pow (lt_of_lt_of_le (bitRev_lt _ _) hp), Nat.testBit_lt_two_pow (lt_of_lt_of_le h hp)]

end Sys2Proof.Machine
end

