-- ==== Sys2Proof/Laws/Field.lean ====
section
/-!
SUPPORT. The integers modulo MOD as a field: MOD is prime (spec/00_scope.md R7), the modular functions are the field's
operations, and the stage roots have exact order 2^s (spec/43_ntt_engine.md R201).
-/

namespace Sys2Proof.Machine

open Sys2Proof

/-- The field of R13: the integers modulo MOD. -/
abbrev Field := ZMod modulus

/-! ### MOD is prime -/

/-- A power in the field, computed by the model's own `power_mod`. -/
theorem pow_cast (b : Nat) {e : Nat} (he : e < 2 ^ 64) : ((b : Field)) ^ e = (powMod b e : Nat) := by
  rw [powMod_eq b he, ZMod.natCast_mod, Nat.cast_pow]

theorem cast_ne_one_of_powMod {v : Nat} (h : v < modulus) (h1 : v ≠ 1) : ((v : Nat) : Field) ≠ 1 := by
  intro e
  have : ((v : Nat) : Field) = ((1 : Nat) : Field) := by simpa using e
  rw [ZMod.natCast_eq_natCast_iff', Nat.mod_eq_of_lt h, Nat.mod_eq_of_lt (by decide)] at this
  exact h1 this

/-- MOD is prime (R7): 31 has order MOD − 1 = 15·2^27. -/
theorem modulus_prime : Nat.Prime modulus := by
  refine lucas_primality modulus ((31 : Nat) : Field) ?_ ?_
  · rw [pow_cast 31 (by decide), show powMod 31 (modulus - 1) = 1 by decide +kernel]; rfl
  · intro q hq hd
    have hq' : q = 2 ∨ q = 3 ∨ q = 5 := by
      have h1 : modulus - 1 = 2 ^ 27 * 3 * 5 := by decide
      rw [h1] at hd
      rcases (Nat.Prime.dvd_mul hq).1 hd with hd | hd
      · rcases (Nat.Prime.dvd_mul hq).1 hd with hd | hd
        · exact .inl ((Nat.prime_dvd_prime_iff_eq hq Nat.prime_two).1 (hq.dvd_of_dvd_pow hd))
        · exact .inr (.inl ((Nat.prime_dvd_prime_iff_eq hq Nat.prime_three).1 hd))
      · exact .inr (.inr ((Nat.prime_dvd_prime_iff_eq hq Nat.prime_five).1 hd))
    have hlt : (modulus - 1) / q < 2 ^ 64 := lt_of_le_of_lt (Nat.div_le_self _ _) (by decide)
    rw [pow_cast 31 hlt]
    refine cast_ne_one_of_powMod (powMod_lt _ hlt) ?_
    rcases hq' with rfl | rfl | rfl <;> decide +kernel

/-! ### The modular functions in the field -/

/-- Two field elements that agree in the field are equal. -/
theorem eq_of_cast_eq {x y : Nat} (hx : x < modulus) (hy : y < modulus) (h : (x : Field) = y) : x = y := by
  rwa [ZMod.natCast_eq_natCast_iff', Nat.mod_eq_of_lt hx, Nat.mod_eq_of_lt hy] at h

@[simp] theorem cast_modulus : ((modulus : Nat) : Field) = 0 := ZMod.natCast_self _

theorem cast_mod (x : Nat) : ((x % modulus : Nat) : Field) = x := ZMod.natCast_mod _ _

theorem cast_mulMod (x y : Nat) : (mulMod x y : Field) = x * y := by
  rw [mulMod, cast_mod, Nat.cast_mul]

theorem cast_addMod {x y : Nat} (hx : x < modulus) (hy : y < modulus) : (addMod x y : Field) = x + y := by
  rw [addMod_eq hx hy, cast_mod, Nat.cast_add]

theorem cast_subMod {x y : Nat} (hx : x < modulus) (hy : y < modulus) : (subMod x y : Field) = x - y := by
  rw [subMod_eq hx hy, cast_mod, Nat.cast_add, Nat.cast_sub hy.le, cast_modulus]; ring

/-- The inverse of R154 is the field's inverse. -/
theorem cast_invMod (v : Nat) : (invMod v : Field) = (v : Field)⁻¹ := by
  have : Fact (Nat.Prime modulus) := ⟨modulus_prime⟩
  by_cases h : (v : Field) = 0
  · rw [invMod_eq, cast_mod, Nat.cast_pow, h, inv_zero, zero_pow (by decide)]
  · refine eq_inv_of_mul_eq_one_left ?_
    rw [invMod_eq, cast_mod, Nat.cast_pow, ← pow_succ]
    exact ZMod.pow_card_sub_one_eq_one h

theorem cast_two_pow_ne_zero (k : Nat) : ((2 ^ k : Nat) : Field) ≠ 0 := by
  have : Fact (Nat.Prime modulus) := ⟨modulus_prime⟩
  rw [Nat.cast_pow]
  refine pow_ne_zero _ fun h => ?_
  have := (ZMod.natCast_eq_zero_iff 2 modulus).1 h
  exact absurd (Nat.le_of_dvd (by decide) this) (by decide)

/-! ### The stage roots -/

/-- The stage root of len = 2^s as a field element. -/
def zeta (s : Nat) (d : Dir) : Field := (rootOfUnity s d : Nat)

theorem cast_stageRoot (s : Nat) (d : Dir) : (stageRoot s d : Field) = zeta s d := by
  rw [stageRoot_eq]; rfl

theorem exponent_eq {s : Nat} (h : s ≤ 27) : (modulus - 1) / 2 ^ s = 15 * 2 ^ (27 - s) := by
  have : modulus - 1 = 15 * 2 ^ (27 - s) * 2 ^ s := by
    rw [mul_assoc, ← pow_add, Nat.sub_add_cancel h]; decide
  rw [this, Nat.mul_div_cancel _ (by positivity)]

theorem zeta_fwd {s : Nat} (h : s ≤ 27) : zeta s .fwd = (root : Field) ^ (15 * 2 ^ (27 - s)) := by
  rw [zeta, rootOfUnity, exponent_eq h, cast_mod, Nat.cast_pow]

theorem root_pow_half : (root : Field) ^ (15 * 2 ^ 26) = -1 := by
  have : ((root : Nat) : Field) ^ (15 * 2 ^ 26) = ((modulus - 1 : Nat) : Field) := by
    rw [pow_cast root (by decide), show powMod root (15 * 2 ^ 26) = modulus - 1 by decide +kernel]
  rw [this, Nat.cast_sub (by decide), cast_modulus]; simp

theorem root_pow_full : (root : Field) ^ (15 * 2 ^ 27) = 1 := by
  rw [show 15 * 2 ^ 27 = 15 * 2 ^ 26 * 2 by decide, pow_mul, root_pow_half]; ring

/-- The inverse stage root undoes the forward one (R201). -/
theorem zeta_fwd_mul_inv {s : Nat} (h : s ≤ 27) : zeta s .fwd * zeta s .inv = 1 := by
  have hle : 15 * 2 ^ (27 - s) ≤ 15 * 2 ^ 27 := Nat.mul_le_mul_left _ (Nat.pow_le_pow_right (by decide) (by omega))
  rw [zeta_fwd h, zeta, rootOfUnity, exponent_eq h, cast_mod, Nat.cast_pow, ← pow_add,
    show modulus - 1 = 15 * 2 ^ 27 by decide, Nat.add_sub_cancel' hle, root_pow_full]

theorem zeta_inv_eq {s : Nat} (h : s ≤ 27) : zeta s .inv = (zeta s .fwd)⁻¹ := by
  have : Fact (Nat.Prime modulus) := ⟨modulus_prime⟩
  exact eq_inv_of_mul_eq_one_right (zeta_fwd_mul_inv h)

theorem zeta_zero (d : Dir) : zeta 0 d = 1 := by
  have h : zeta 0 .fwd = 1 := by rw [zeta_fwd (by decide)]; exact root_pow_full
  cases d with
  | fwd => exact h
  | inv => have := zeta_fwd_mul_inv (s := 0) (by decide); rwa [h, one_mul] at this

/-- The stage root of len is the square of the next stage's. -/
theorem zeta_succ_sq {s : Nat} (h : s + 1 ≤ 27) (d : Dir) : zeta (s + 1) d ^ 2 = zeta s d := by
  have hf : zeta (s + 1) .fwd ^ 2 = zeta s .fwd := by
    rw [zeta_fwd h, zeta_fwd (by omega), ← pow_mul]
    congr 1
    rw [show 27 - s = 27 - (s + 1) + 1 by omega, pow_succ]; ring
  cases d with
  | fwd => exact hf
  | inv =>
    have : Fact (Nat.Prime modulus) := ⟨modulus_prime⟩
    rw [zeta_inv_eq h, zeta_inv_eq (by omega), inv_pow, hf]

/-- Half way round its circle a stage root is −1. -/
theorem zeta_succ_pow_half {s : Nat} (h : s + 1 ≤ 27) (d : Dir) : zeta (s + 1) d ^ 2 ^ s = -1 := by
  have hf : zeta (s + 1) .fwd ^ 2 ^ s = -1 := by
    rw [zeta_fwd h, ← pow_mul, mul_assoc, ← pow_add, show 27 - (s + 1) + s = 26 by omega, root_pow_half]
  cases d with
  | fwd => exact hf
  | inv =>
    have : Fact (Nat.Prime modulus) := ⟨modulus_prime⟩
    rw [zeta_inv_eq h, inv_pow, hf, inv_neg, inv_one]

theorem zeta_pow_full {s : Nat} (h : s ≤ 27) (d : Dir) : zeta s d ^ 2 ^ s = 1 := by
  cases s with
  | zero => rw [zeta_zero, one_pow]
  | succ s => rw [pow_succ, pow_mul, zeta_succ_pow_half h]; ring

theorem neg_one_ne_one : (-1 : Field) ≠ 1 := by
  intro h
  have h2 : ((2 ^ 1 : Nat) : Field) = 0 := by
    have : (1 : Field) + 1 = 0 := by nth_rewrite 1 [← h]; ring
    simpa [one_add_one_eq_two] using this
  exact cast_two_pow_ne_zero 1 h2

/-- A stage root has order exactly 2^s (R201). -/
theorem orderOf_zeta {s : Nat} (h : s ≤ 27) (d : Dir) : orderOf (zeta s d) = 2 ^ s := by
  cases s with
  | zero => rw [zeta_zero, orderOf_one, pow_zero]
  | succ s =>
    refine orderOf_eq_prime_pow ?_ (zeta_pow_full h d)
    rw [zeta_succ_pow_half h]; exact neg_one_ne_one

end Sys2Proof.Machine
end

