-- ==== Sys2Proof/Laws/Transform.lean ====
section
/-!
SUPPORT. The transform engine: what the bit-reversal loop leaves (spec/43_ntt_engine.md R204), and that the butterfly
network computes the transform of its bit-reversed input (R205, R206, R210).
-/

namespace Sys2Proof.Machine

open Sys2Proof

/-! ### The bit-reversal loop -/

/-- From index `i` on, the loop exchanges every pair neither of whose members lies below `i`. -/
theorem bitRevLoop_eq_ok (id : MemId) (bits count i : Nat) (m : Mem 32) (hi : i + count = 2 ^ bits)
    (hm : m.full (2 ^ bits)) :
    ∃ m', bitRevLoop id bits count i m = .ok m' ∧
      ∀ j, m'.read j =
        if j < 2 ^ bits ∧ i ≤ j ∧ i ≤ bitRev j bits then m.read (bitRev j bits) else m.read j := by
  induction count generalizing i m with
  | zero =>
    refine ⟨m, rfl, fun j => ?_⟩
    rw [if_neg]; omega
  | succ count ih =>
    have hin : i < 2 ^ bits := by omega
    have hrev : bitRev (bitRev i bits) bits = i := bitRev_bitRev bits i hin
    have key : ∀ j, j < 2 ^ bits → bitRev j bits = i → j = bitRev i bits := fun j hj e => by
      rw [← e, bitRev_bitRev bits j hj]
    unfold bitRevLoop
    simp only
    split
    · rename_i hlt
      obtain ⟨u, hu⟩ := Option.isSome_iff_exists.1 (hm i hin)
      obtain ⟨v, hv⟩ := Option.isSome_iff_exists.1 (hm _ (bitRev_lt bits i))
      have hm1 : ((m.write i v).write (bitRev i bits) u).full (2 ^ bits) := fun k hk =>
        Mem.read_isSome_write _ _ _ (Mem.read_isSome_write _ _ _ (hm k hk))
      obtain ⟨m', h1, h2⟩ := ih (i + 1) ((m.write i v).write (bitRev i bits) u) (by omega) hm1
      refine ⟨m', ?_, fun j => ?_⟩
      · rw [readElem_eq_ok.2 hu, readElem_eq_ok.2 hv]; exact h1
      · have hr : ∀ k, ((m.write i v).write (bitRev i bits) u).read k =
            if k = bitRev i bits then some u else if k = i then some v else m.read k := fun k => by
          rw [Mem.read_write, Mem.read_write]
        rw [h2, hr, hr]
        by_cases hj : j < 2 ^ bits
        · by_cases e1 : j = i
          · subst e1
            rw [if_neg (by omega), if_neg (by omega), if_pos rfl, if_pos (by omega), hv]
          · by_cases e2 : j = bitRev i bits
            · subst e2
              rw [if_neg (by omega), if_pos rfl, hrev, if_pos (by omega), hu]
            · have e3 : bitRev j bits ≠ i := fun e => e2 (key j hj e)
              have e4 : bitRev j bits ≠ bitRev i bits := fun e => e1 (by
                rw [← bitRev_bitRev bits j hj, e, hrev])
              rw [if_neg e4, if_neg e3, if_neg e2, if_neg e1]
              congr 1
              simp only [eq_iff_iff]; omega
        · have e1 : j ≠ i := by omega
          have e2 : j ≠ bitRev i bits := by have := bitRev_lt bits i; omega
          rw [if_neg (by omega), if_neg e2, if_neg e1, if_neg (by omega)]
    · rename_i hge
      obtain ⟨m', h1, h2⟩ := ih (i + 1) m (by omega) hm
      refine ⟨m', h1, fun j => ?_⟩
      rw [h2]
      by_cases hj : j < 2 ^ bits
      · by_cases e1 : j = i
        · subst e1
          rw [if_neg (by omega)]
          split
          · have : bitRev j bits = j := by omega
            rw [this]
          · rfl
        · have e3 : bitRev j bits ≠ i ∨ j < i := by
            by_contra hc
            push Not at hc
            have := key j hj hc.1
            omega
          congr 1
          simp only [eq_iff_iff]; omega
      · rw [if_neg (by omega), if_neg (by omega)]

/-- The whole loop of R204: entry i becomes the old entry bitrev(i). -/
theorem bitRevLoop_permutes (id : MemId) (bits : Nat) (m : Mem 32) (hm : m.full (2 ^ bits)) :
    ∃ m', bitRevLoop id bits (2 ^ bits) 0 m = .ok m' ∧
      (∀ j < 2 ^ bits, m'.read j = m.read (bitRev j bits)) ∧ ∀ j, 2 ^ bits ≤ j → m'.read j = m.read j := by
  obtain ⟨m', h1, h2⟩ := bitRevLoop_eq_ok id bits (2 ^ bits) 0 m (by omega) hm
  refine ⟨m', h1, fun j hj => ?_, fun j hj => ?_⟩
  · rw [h2, if_pos (by omega)]
  · rw [h2, if_neg (by omega)]

/-- The loop stops only on an entry unwritten at its start. -/
theorem bitRevLoop_eq_error {id : MemId} {bits count i : Nat} {m : Mem 32} {e : Stop}
    (h : bitRevLoop id bits count i m = .error e) : ∃ k, m.read k = none ∧ e = .fault (.unwritten id k) := by
  induction count generalizing i m with
  | zero => simp [bitRevLoop] at h
  | succ count ih =>
    unfold bitRevLoop at h
    simp only at h
    split at h
    · simp only [bind_eq_error, readElem_eq_error, readElem_eq_ok] at h
      rcases h with h | ⟨u, hu, h | ⟨v, hv, h⟩⟩
      · exact ⟨_, h⟩
      · exact ⟨_, h⟩
      · obtain ⟨k, h1, h2⟩ := ih h
        refine ⟨k, ?_, h2⟩
        cases hk : m.read k with
        | none => rfl
        | some x =>
          have := Mem.read_isSome_write (bitRev i bits) k u (Mem.read_isSome_write i k v (by simp [hk] : (m.read k).isSome))
          rw [h1] at this; simp at this
    · exact ih h

/-- The loop keeps a memory in canonical form and within its capacity. -/
theorem bitRevLoop_fits {id : MemId} {bits count i cap : Nat} {m m' : Mem 32} (hc : 2 ^ bits ≤ cap)
    (hi : i + count ≤ 2 ^ bits) (hm : m.fits cap) (h : bitRevLoop id bits count i m = .ok m') : m'.fits cap := by
  have hw : ∀ {m : Mem 32} {k : Nat} (v : Word), m.fits cap → k < 2 ^ bits → (m.write k v).fits cap :=
    fun v hm hk => ⟨Mem.wf_write _ v hm.1, fun c hcm => by
      rcases Mem.mem_write hcm with rfl | h
      · exact lt_of_lt_of_le hk hc
      · exact hm.2 c h⟩
  induction count generalizing i m with
  | zero => simp only [bitRevLoop, Except.ok.injEq] at h; rwa [← h]
  | succ count ih =>
    unfold bitRevLoop at h
    simp only at h
    split at h
    · simp only [bind_eq_ok] at h
      obtain ⟨u, -, v, -, h⟩ := h
      exact ih (by omega) (hw u (hw v hm (by omega)) (bitRev_lt bits i)) h
    · exact ih (by omega) hm h

/-! ### One group of butterflies -/

/-- All entries are field elements. -/
abbrev AllField (xs : List Nat) : Prop := ∀ x ∈ xs, x < modulus

theorem AllField.getD {xs : List Nat} (h : AllField xs) (i : Nat) : xs.getD i 0 < modulus := by
  by_cases hi : i < xs.length
  · rw [List.getD_eq_getElem _ _ hi]; exact h _ (List.getElem_mem hi)
  · rw [List.getD_eq_default _ _ (by omega)]; exact modulus_pos

theorem butterflies_length (wl w : Nat) (us vs : List Nat) (h : us.length = vs.length) :
    (butterflies wl w us vs).1.length = us.length ∧ (butterflies wl w us vs).2.length = us.length := by
  induction us generalizing w vs with
  | nil => cases vs <;> simp [butterflies]
  | cons u us ih =>
    cases vs with
    | nil => simp at h
    | cons v vs =>
      have := ih (mulMod w wl) vs (by simpa using h)
      simp [butterflies, this.1, this.2]

theorem butterflies_field (wl w : Nat) (us vs : List Nat) (hu : AllField us) (hv : AllField vs) :
    AllField (butterflies wl w us vs).1 ∧ AllField (butterflies wl w us vs).2 := by
  induction us generalizing w vs with
  | nil => cases vs <;> simp [butterflies, AllField]
  | cons u us ih =>
    cases vs with
    | nil => simp [butterflies, AllField]
    | cons v vs =>
      have hu' : AllField us := fun x hx => hu x (List.mem_cons_of_mem _ hx)
      have hv' : AllField vs := fun x hx => hv x (List.mem_cons_of_mem _ hx)
      have := ih (mulMod w wl) vs hu' hv'
      have hlt : u < modulus := hu u (by simp)
      constructor
      · intro x hx
        rcases List.mem_cons.1 hx with rfl | hx
        · exact addMod_lt hlt (mulMod_lt _ _)
        · exact this.1 x hx
      · intro x hx
        rcases List.mem_cons.1 hx with rfl | hx
        · exact subMod_lt hlt (mulMod_lt _ _)
        · exact this.2 x hx

/-- The butterfly at offset k of a group uses the twiddle w·wl^k (R206). -/
theorem butterflies_cast (wl w : Nat) (us vs : List Nat) (h : us.length = vs.length) (hu : AllField us)
    (k : Nat) (hk : k < us.length) :
    (((butterflies wl w us vs).1.getD k 0 : Nat) : Field) =
        (us.getD k 0 : Nat) + (vs.getD k 0 : Nat) * ((w : Field) * (wl : Field) ^ k) ∧
      (((butterflies wl w us vs).2.getD k 0 : Nat) : Field) =
        (us.getD k 0 : Nat) - (vs.getD k 0 : Nat) * ((w : Field) * (wl : Field) ^ k) := by
  induction us generalizing w vs k with
  | nil => simp at hk
  | cons u us ih =>
    cases vs with
    | nil => simp at h
    | cons v vs =>
      have hlt : u < modulus := hu u (by simp)
      cases k with
      | zero =>
        simp only [butterflies, List.getD_cons_zero, pow_zero, mul_one]
        rw [cast_addMod hlt (mulMod_lt _ _), cast_subMod hlt (mulMod_lt _ _), cast_mulMod]
        exact ⟨rfl, rfl⟩
      | succ k =>
        have := ih (mulMod w wl) vs (by simpa using h) (fun x hx => hu x (List.mem_cons_of_mem _ hx)) k
          (by simpa using hk)
        simp only [butterflies, List.getD_cons_succ]
        rw [this.1, this.2, cast_mulMod]
        constructor <;> ring

/-! ### One stage -/

theorem nttStage_length (wl half groups : Nat) (xs : List Nat) (h : xs.length = groups * (2 * half)) :
    (nttStage wl half groups xs).length = xs.length := by
  induction groups generalizing xs with
  | zero => rfl
  | succ groups ih =>
    have h0 : xs.length = groups * (2 * half) + 2 * half := by rw [h]; ring
    have hl := butterflies_length wl 1 (xs.take half) ((xs.drop half).take half) (by simp; omega)
    have hr := ih (xs.drop (2 * half)) (by simp; omega)
    simp only [nttStage, List.length_append, hl.1, hl.2, hr, List.length_take, List.length_drop]
    omega

theorem nttStage_field (wl half groups : Nat) (xs : List Nat) (hx : AllField xs) :
    AllField (nttStage wl half groups xs) := by
  induction groups generalizing xs with
  | zero => exact hx
  | succ groups ih =>
    have hd : ∀ n, AllField (xs.drop n) := fun n x h => hx x (List.mem_of_mem_drop h)
    have hb := butterflies_field wl 1 (xs.take half) ((xs.drop half).take half)
      (fun x h => hx x (List.mem_of_mem_take h)) (fun x h => hd half x (List.mem_of_mem_take h))
    intro x h
    simp only [nttStage, List.mem_append] at h
    rcases h with (h | h) | h
    · exact hb.1 x h
    · exact hb.2 x h
    · exact ih _ (hd _) x h

theorem getD_take {xs : List Nat} {n i : Nat} (h : i < n) : (xs.take n).getD i 0 = xs.getD i 0 := by
  simp [List.getD_eq_getElem?_getD, h]

theorem getD_drop (xs : List Nat) (n i : Nat) : (xs.drop n).getD i 0 = xs.getD (n + i) 0 := by
  simp [List.getD_eq_getElem?_getD]

theorem getD_append_left {xs ys : List Nat} {i : Nat} (h : i < xs.length) : (xs ++ ys).getD i 0 = xs.getD i 0 := by
  simp [List.getD_eq_getElem?_getD, List.getElem?_append_left h]

theorem getD_append_right {xs ys : List Nat} {i : Nat} (h : xs.length ≤ i) :
    (xs ++ ys).getD i 0 = ys.getD (i - xs.length) 0 := by
  simp [List.getD_eq_getElem?_getD, List.getElem?_append_right h]

/-- What one stage does to the pair of entries at offset k of group q. -/
theorem nttStage_cast (wl half groups : Nat) (xs : List Nat) (h : xs.length = groups * (2 * half))
    (hx : AllField xs) (q k : Nat) (hq : q < groups) (hk : k < half) :
    (((nttStage wl half groups xs).getD (q * (2 * half) + k) 0 : Nat) : Field) =
        (xs.getD (q * (2 * half) + k) 0 : Nat) + (xs.getD (q * (2 * half) + half + k) 0 : Nat) * (wl : Field) ^ k ∧
      (((nttStage wl half groups xs).getD (q * (2 * half) + half + k) 0 : Nat) : Field) =
        (xs.getD (q * (2 * half) + k) 0 : Nat) - (xs.getD (q * (2 * half) + half + k) 0 : Nat) * (wl : Field) ^ k := by
  induction groups generalizing xs q with
  | zero => omega
  | succ groups ih =>
    have h0 : xs.length = groups * (2 * half) + 2 * half := by rw [h]; ring
    have hlen : (xs.take half).length = ((xs.drop half).take half).length := by simp; omega
    have hl := butterflies_length wl 1 _ _ hlen
    have htl : (xs.take half).length = half := by simp; omega
    rw [htl] at hl
    simp only [nttStage]
    cases q with
    | zero =>
      have hb := butterflies_cast wl 1 _ _ hlen (fun x h => hx x (List.mem_of_mem_take h)) k (by omega)
      rw [getD_take hk, getD_take hk, getD_drop] at hb
      constructor
      · rw [getD_append_left (by simp [hl]; omega), getD_append_left (by rw [hl.1]; omega)]
        simpa using hb.1
      · rw [getD_append_left (by simp [hl]; omega), getD_append_right (by rw [hl.1]; omega), hl.1,
          show 0 * (2 * half) + half + k - half = k by omega]
        simpa using hb.2
    | succ q =>
      have hlen2 : ((butterflies wl 1 (xs.take half) ((xs.drop half).take half)).1 ++
          (butterflies wl 1 (xs.take half) ((xs.drop half).take half)).2).length = 2 * half := by
        rw [List.length_append, hl.1, hl.2]; omega
      have e1 : (q + 1) * (2 * half) + k = 2 * half + (q * (2 * half) + k) := by ring
      have e2 : (q + 1) * (2 * half) + half + k = 2 * half + (q * (2 * half) + half + k) := by ring
      have := ih (xs.drop (2 * half)) (by simp; omega) (fun x h => hx x (List.mem_of_mem_drop h)) q (by omega)
      rw [getD_append_right (by omega), getD_append_right (by omega), hlen2, e1, e2, Nat.add_sub_cancel_left,
        Nat.add_sub_cancel_left, this.1, this.2, getD_drop, getD_drop]
      exact ⟨rfl, rfl⟩

/-! ### All stages -/

/-- The transform of size 2^s of the block of `x` that begins at `base`, its input in bit-reversed order. -/
def blockTransform (d : Dir) (s : Nat) (x : Nat → Field) (base k : Nat) : Field :=
  ∑ j ∈ Finset.range (2 ^ s), x (base + bitRev j s) * zeta s d ^ (j * k)

theorem sum_range_two_mul {M : Type} [AddCommMonoid M] (n : Nat) (F : Nat → M) :
    ∑ j ∈ Finset.range (2 * n), F j = ∑ j ∈ Finset.range n, (F (2 * j) + F (2 * j + 1)) := by
  induction n with
  | zero => simp
  | succ n ih =>
    rw [show 2 * (n + 1) = 2 * n + 1 + 1 by ring, Finset.sum_range_succ, Finset.sum_range_succ, ih,
      Finset.sum_range_succ, add_assoc]

/-- A block's transform from those of its halves: the butterfly, above and below. -/
theorem blockTransform_succ (d : Dir) {s : Nat} (hs : s + 1 ≤ 27) (x : Nat → Field) (base k : Nat) :
    blockTransform d (s + 1) x base k =
        blockTransform d s x base k + blockTransform d s x (base + 2 ^ s) k * zeta (s + 1) d ^ k ∧
      blockTransform d (s + 1) x base (2 ^ s + k) =
        blockTransform d s x base k - blockTransform d s x (base + 2 ^ s) k * zeta (s + 1) d ^ k := by
  have hsq : ∀ j e, zeta (s + 1) d ^ (2 * j * e) = zeta s d ^ (j * e) := fun j e => by
    rw [mul_assoc, pow_mul, zeta_succ_sq hs]
  have hodd : ∀ j e, zeta (s + 1) d ^ ((2 * j + 1) * e) = zeta s d ^ (j * e) * zeta (s + 1) d ^ e := fun j e => by
    rw [add_mul, pow_add, hsq, one_mul]
  have hwrap : ∀ j, zeta s d ^ (j * (2 ^ s + k)) = zeta s d ^ (j * k) := fun j => by
    rw [mul_add, pow_add, mul_comm j (2 ^ s), pow_mul, zeta_pow_full (by omega), one_pow, one_mul]
  have hneg : zeta (s + 1) d ^ (2 ^ s + k) = - zeta (s + 1) d ^ k := by
    rw [pow_add, zeta_succ_pow_half hs]; ring
  constructor
  · rw [blockTransform, pow_succ, mul_comm (2 ^ s) 2, sum_range_two_mul, Finset.sum_add_distrib, blockTransform,
      blockTransform, Finset.sum_mul]
    congr 1
    · exact Finset.sum_congr rfl fun j _ => by rw [bitRev_double, hsq]
    · exact Finset.sum_congr rfl fun j _ => by rw [bitRev_double_add_one, hodd, ← add_assoc]; ring
  · rw [blockTransform, pow_succ, mul_comm (2 ^ s) 2, sum_range_two_mul, Finset.sum_add_distrib, blockTransform,
      blockTransform, sub_eq_add_neg, Finset.sum_mul, ← Finset.sum_neg_distrib]
    congr 1
    · exact Finset.sum_congr rfl fun j _ => by rw [bitRev_double, hsq, hwrap]
    · exact Finset.sum_congr rfl fun j _ => by
        rw [bitRev_double_add_one, hodd, hwrap, hneg, ← add_assoc]; ring

/-- `ys` holds, block by block of 2^s entries, the transforms of the blocks of `x`. -/
def Transformed (d : Dir) (bits s : Nat) (x : Nat → Field) (ys : List Nat) : Prop :=
  ys.length = 2 ^ bits ∧ AllField ys ∧
    ∀ q < 2 ^ (bits - s), ∀ k < 2 ^ s, ((ys.getD (q * 2 ^ s + k) 0 : Nat) : Field) =
      blockTransform d s x (q * 2 ^ s) k

theorem nttStage_transforms (d : Dir) {bits s : Nat} (hs : s + 1 ≤ bits) (hb : bits ≤ 27) (x : Nat → Field)
    (ys : List Nat) (h : Transformed d bits s x ys) :
    Transformed d bits (s + 1) x (nttStage (stageRoot (s + 1) d) (2 ^ s) (2 ^ (bits - (s + 1))) ys) := by
  obtain ⟨h1, h2, h3⟩ := h
  have hlen : ys.length = 2 ^ (bits - (s + 1)) * (2 * 2 ^ s) := by
    rw [h1, ← pow_succ', ← pow_add]; congr 1; omega
  refine ⟨by rw [nttStage_length _ _ _ _ hlen, h1], nttStage_field _ _ _ _ h2, fun q hq k hk => ?_⟩
  have hq2 : 2 * q + 1 < 2 ^ (bits - s) := by
    rw [show bits - s = bits - (s + 1) + 1 by omega, pow_succ]; omega
  have e0 : q * 2 ^ (s + 1) = q * (2 * 2 ^ s) := by rw [pow_succ']
  have e1 : ∀ k, q * (2 * 2 ^ s) + k = 2 * q * 2 ^ s + k := fun k => by ring
  have e3 : q * (2 * 2 ^ s) = 2 * q * 2 ^ s := by ring
  have e4 : q * (2 * 2 ^ s) + 2 ^ s = (2 * q + 1) * 2 ^ s := by ring
  rw [e0]
  by_cases hlo : k < 2 ^ s
  · have hc := (nttStage_cast (stageRoot (s + 1) d) (2 ^ s) _ ys hlen h2 q k hq hlo).1
    rw [hc, cast_stageRoot, (blockTransform_succ d (by omega) x _ k).1, e4, e1, h3 _ (by omega) k hlo,
      h3 _ hq2 k hlo, e3]
  · obtain ⟨k, rfl⟩ : ∃ k', k = 2 ^ s + k' := ⟨k - 2 ^ s, by omega⟩
    have hlo' : k < 2 ^ s := by rw [pow_succ] at hk; omega
    have hc := (nttStage_cast (stageRoot (s + 1) d) (2 ^ s) _ ys hlen h2 q k hq hlo').2
    rw [← add_assoc, hc, cast_stageRoot, (blockTransform_succ d (by omega) x _ k).2, e4, e1,
      h3 _ (by omega) k hlo', h3 _ hq2 k hlo', e3]

theorem nttStages_transforms (d : Dir) {bits : Nat} (hb : bits ≤ 27) (x : Nat → Field) (count s : Nat)
    (hc : s + count = bits) (ys : List Nat) (h : Transformed d bits s x ys) :
    Transformed d bits bits x (nttStages d bits count (s + 1) ys) := by
  induction count generalizing s ys with
  | zero => obtain rfl : s = bits := by omega
            exact h
  | succ count ih =>
    exact ih (s + 1) (by omega) _ (nttStage_transforms d (by omega) hb x ys h)

/-- The butterfly network computes the transform of its bit-reversed input (R205, R210). -/
theorem nttStages_eq (d : Dir) {bits : Nat} (hb : bits ≤ 27) (f : Nat → Nat) (hf : ∀ i < 2 ^ bits, f i < modulus) :
    nttStages d bits bits 1 ((List.range (2 ^ bits)).map fun i => f (bitRev i bits)) =
      (List.range (2 ^ bits)).map fun k =>
        (∑ i ∈ Finset.range (2 ^ bits), f i * rootOfUnity bits d ^ (i * k)) % modulus := by
  have h0 : Transformed d bits 0 (fun i => (f (bitRev i bits) : Nat))
      ((List.range (2 ^ bits)).map fun i => f (bitRev i bits)) := by
    refine ⟨by simp, fun x hx => ?_, fun q hq k hk => ?_⟩
    · obtain ⟨i, -, rfl⟩ := List.mem_map.1 hx
      exact hf _ (bitRev_lt _ _)
    · have hk0 : k = 0 := by simpa using hk
      subst hk0
      have hq' : q < 2 ^ bits := by simpa using hq
      simp [blockTransform, bitRev, hq']
  obtain ⟨h1, h2, h3⟩ := nttStages_transforms d hb _ bits 0 (by omega) _ h0
  rw [zero_add] at h1 h2 h3
  refine List.ext_getElem (by simp [h1]) fun k hk1 hk2 => ?_
  have hk : k < 2 ^ bits := by simpa using hk2
  have h4 := h3 0 (by simp) k hk
  simp only [zero_mul, zero_add, List.getD_eq_getElem _ _ hk1] at h4
  simp only [List.getElem_map, List.getElem_range]
  refine eq_of_cast_eq (h2 _ (List.getElem_mem hk1)) (Nat.mod_lt _ modulus_pos) ?_
  rw [h4, blockTransform, cast_mod, Nat.cast_sum]
  refine Finset.sum_congr rfl fun j hj => ?_
  rw [zero_add, bitRev_bitRev _ _ (Finset.mem_range.1 hj), Nat.cast_mul, Nat.cast_pow]
  rfl

end Sys2Proof.Machine
end

