-- ==== Sys2Proof/Laws/Convolution.lean ====
section
/-!
SUPPORT. The transform undoes its inverse and turns convolution into pointwise products (spec/43_ntt_engine.md R210,
spec/44_convolution.md R231, R236).
-/

namespace Sys2Proof.Machine

open Sys2Proof

/-! ### The transform and its inverse over the field -/

/-- The sum of the powers of a 2^s-th root of unity that is not 1 vanishes. -/
theorem sum_pow_eq_zero {z : Field} {n : Nat} (h1 : z ^ n = 1) (h2 : z ≠ 1) : ∑ k ∈ Finset.range n, z ^ k = 0 := by
  have : Fact (Nat.Prime modulus) := ⟨modulus_prime⟩
  have h := geom_sum_mul z n
  rw [h1, sub_self] at h
  exact (mul_eq_zero.1 h).resolve_right (sub_ne_zero.2 h2)

/-- Orthogonality of the stage roots' powers. -/
theorem sum_zeta_mul {s : Nat} (hs : s ≤ 27) {i j : Nat} (hi : i < 2 ^ s) (hj : j < 2 ^ s) :
    ∑ k ∈ Finset.range (2 ^ s), zeta s .fwd ^ (i * k) * zeta s .inv ^ (k * j) =
      if i = j then ((2 ^ s : Nat) : Field) else 0 := by
  have : Fact (Nat.Prime modulus) := ⟨modulus_prime⟩
  have hne : zeta s .fwd ≠ 0 := fun h => by
    have := zeta_fwd_mul_inv hs; rw [h, zero_mul] at this; exact zero_ne_one this
  have hterm : ∀ k, zeta s .fwd ^ (i * k) * zeta s .inv ^ (k * j) = (zeta s .fwd ^ i * zeta s .inv ^ j) ^ k :=
    fun k => by rw [mul_pow, ← pow_mul, ← pow_mul, mul_comm k j]
  rw [Finset.sum_congr rfl fun k _ => hterm k]
  split
  · rename_i h
    subst h
    rw [← mul_pow, zeta_fwd_mul_inv hs, one_pow]
    simp
  · rename_i h
    refine sum_pow_eq_zero ?_ fun e => h ?_
    · rw [mul_pow, ← pow_mul, ← pow_mul, mul_comm i, mul_comm j, pow_mul, pow_mul, zeta_pow_full hs,
        zeta_pow_full hs, one_pow, one_pow, one_mul]
    · have h2 : zeta s .fwd ^ i = zeta s .fwd ^ j := by
        rw [zeta_inv_eq hs, inv_pow] at e
        exact mul_inv_eq_one₀ (pow_ne_zero _ hne) |>.1 e
      exact pow_injOn_Iio_orderOf (by simpa [orderOf_zeta hs] using hi) (by simpa [orderOf_zeta hs] using hj) h2

/-- The forward transform of `x`. -/
def forward (s : Nat) (x : Nat → Field) (k : Nat) : Field := ∑ i ∈ Finset.range (2 ^ s), x i * zeta s .fwd ^ (i * k)

/-- The inverse transform of `y`, scaled by the inverse of n. -/
def backward (s : Nat) (y : Nat → Field) (j : Nat) : Field :=
  ((2 ^ s : Nat) : Field)⁻¹ * ∑ k ∈ Finset.range (2 ^ s), y k * zeta s .inv ^ (k * j)

/-- A weighted sum of characters, transformed back, is the sum of the weights at the index. -/
theorem backward_characters {s : Nat} (hs : s ≤ 27) {ι : Type} (S : Finset ι) (c : ι → Field) (e : ι → Nat)
    (he : ∀ a ∈ S, e a < 2 ^ s) {j : Nat} (hj : j < 2 ^ s) :
    backward s (fun k => ∑ a ∈ S, c a * zeta s .fwd ^ (e a * k)) j = ∑ a ∈ S, if e a = j then c a else 0 := by
  have : Fact (Nat.Prime modulus) := ⟨modulus_prime⟩
  have h1 : ∑ k ∈ Finset.range (2 ^ s), (∑ a ∈ S, c a * zeta s .fwd ^ (e a * k)) * zeta s .inv ^ (k * j) =
      ∑ a ∈ S, c a * if e a = j then ((2 ^ s : Nat) : Field) else 0 := by
    simp only [Finset.sum_mul]
    rw [Finset.sum_comm]
    refine Finset.sum_congr rfl fun a ha => ?_
    rw [← sum_zeta_mul hs (he a ha) hj, Finset.mul_sum]
    exact Finset.sum_congr rfl fun k _ => by ring
  rw [backward, h1, Finset.mul_sum]
  refine Finset.sum_congr rfl fun a _ => ?_
  split
  · rw [mul_left_comm, inv_mul_cancel₀ (cast_two_pow_ne_zero s), mul_one]
  · simp

theorem backward_forward {s : Nat} (hs : s ≤ 27) (x : Nat → Field) {j : Nat} (hj : j < 2 ^ s) :
    backward s (forward s x) j = x j := by
  have := backward_characters hs (Finset.range (2 ^ s)) x (fun i => i) (fun i hi => Finset.mem_range.1 hi) hj
  rw [show forward s x = fun k => ∑ a ∈ Finset.range (2 ^ s), x a * zeta s .fwd ^ (a * k) from rfl, this]
  simp [Finset.sum_ite_eq', hj]

/-! ### Coefficients -/

/-- A coefficient, summed over both operands' digits. -/
theorem coefficient_eq (a b : Nat) (f g : Nat → Nat) (j : Nat) :
    coefficient a b f g j =
      ∑ i ∈ Finset.range a, ∑ l ∈ Finset.range b, if i + l = j then f i * g l else 0 := by
  have inner : ∀ i, (∑ l ∈ Finset.range b, if i + l = j then f i * g l else 0) =
      if i ≤ j ∧ j - i < b then f i * g (j - i) else 0 := fun i => by
    by_cases h : i ≤ j ∧ j - i < b
    · rw [if_pos h, Finset.sum_eq_single (j - i)]
      · rw [if_pos (by omega)]
      · intro l _ hl; rw [if_neg (by omega)]
      · intro hl; exact absurd (Finset.mem_range.2 h.2) hl
    · rw [if_neg h]
      refine Finset.sum_eq_zero fun l hl => if_neg ?_
      have := Finset.mem_range.1 hl
      omega
  rw [Finset.sum_congr rfl fun i _ => inner i, ← Finset.sum_filter, coefficient]
  refine Finset.sum_congr ?_ fun _ _ => rfl
  ext i
  simp only [Finset.mem_filter, Finset.mem_range]
  omega

/-- The bounding invariant (R231): a coefficient of digits is at most 81·min(a, b). -/
theorem coefficient_le (a b : Nat) (f g : Nat → Nat) (hf : ∀ i < a, f i ≤ 9) (hg : ∀ i < b, g i ≤ 9) (j : Nat) :
    coefficient a b f g j ≤ 81 * min a b := by
  have hcard : ((Finset.range (j + 1)).filter fun i => i < a ∧ j - i < b).card ≤ min a b := by
    refine le_min ?_ ?_
    · refine le_trans (Finset.card_le_card (t := Finset.range a) fun i hi => ?_) (by simp)
      simp only [Finset.mem_filter] at hi
      exact Finset.mem_range.2 hi.2.1
    · have := Finset.card_le_card_of_injOn (s := (Finset.range (j + 1)).filter fun i => i < a ∧ j - i < b)
        (t := Finset.range b) (fun i => j - i) (fun i hi => by simp_all) (fun i hi k hk e => by
          simp only [Finset.coe_filter, Finset.mem_range, Set.mem_ofPred_eq] at hi hk e
          omega)
      simpa using this
  unfold coefficient
  refine le_trans (Finset.sum_le_card_nsmul _ _ 81 fun i hi => ?_) ?_
  · simp only [Finset.mem_filter] at hi
    exact le_trans (Nat.mul_le_mul (hf i hi.2.1) (hg _ hi.2.2)) (by decide)
  · rw [smul_eq_mul, mul_comm]; exact Nat.mul_le_mul_left _ hcard

/-- The coefficients weighted by powers of 10 give the product of the two numbers (R253). -/
theorem weighted_coefficient {a b m : Nat} (hm : a + b ≤ m) (f g : Nat → Nat) :
    weighted m (coefficient a b f g) = weighted a f * weighted b g := by
  unfold weighted
  simp only [coefficient_eq, Finset.sum_mul]
  rw [Finset.sum_comm]
  refine Finset.sum_congr rfl fun i hi => ?_
  rw [Finset.mul_sum, Finset.sum_comm]
  refine Finset.sum_congr rfl fun l hl => ?_
  have h1 := Finset.mem_range.1 hi
  have h2 := Finset.mem_range.1 hl
  rw [Finset.sum_eq_single (i + l)]
  · rw [if_pos rfl, pow_add]; ring
  · intro j _ hj; rw [if_neg (Ne.symm hj), zero_mul]
  · intro h; exact absurd (Finset.mem_range.2 (by omega)) h

/-- The convolution theorem for zero-padded digit vectors whose product fits the transform (R236). -/
theorem backward_mul_forward {s a b : Nat} (hs : s ≤ 27) (hab : a + b ≤ 2 ^ s) (f g : Nat → Nat) {j : Nat}
    (hj : j < 2 ^ s) :
    backward s (fun k => forward s (fun i => ((if i < a then f i else 0 : Nat) : Field)) k *
        forward s (fun i => ((if i < b then g i else 0 : Nat) : Field)) k) j =
      (coefficient a b f g j : Nat) := by
  have hpad : ∀ (c : Nat) (h : Nat → Nat) (k : Nat), c ≤ 2 ^ s →
      forward s (fun i => ((if i < c then h i else 0 : Nat) : Field)) k =
        ∑ i ∈ Finset.range c, (h i : Field) * zeta s .fwd ^ (i * k) := fun c h k hc => by
    unfold forward
    rw [← Finset.sum_subset (Finset.range_subset_range.2 hc)]
    · exact Finset.sum_congr rfl fun i hi => by
        show ((if i < c then h i else 0 : Nat) : Field) * _ = _
        rw [if_pos (Finset.mem_range.1 hi)]
    · intro i _ hi
      show ((if i < c then h i else 0 : Nat) : Field) * _ = _
      rw [if_neg fun h => hi (Finset.mem_range.2 h), Nat.cast_zero, zero_mul]
  have hprod : ∀ k, forward s (fun i => ((if i < a then f i else 0 : Nat) : Field)) k *
        forward s (fun i => ((if i < b then g i else 0 : Nat) : Field)) k =
      ∑ p ∈ Finset.range a ×ˢ Finset.range b, ((f p.1 : Field) * g p.2) * zeta s .fwd ^ ((p.1 + p.2) * k) :=
    fun k => by
    rw [hpad a f k (by omega), hpad b g k (by omega), Finset.sum_mul_sum, ← Finset.sum_product']
    exact Finset.sum_congr rfl fun p _ => by rw [add_mul, pow_add]; ring
  rw [funext hprod, backward_characters hs (Finset.range a ×ˢ Finset.range b)
    (fun p => (f p.1 : Field) * g p.2) (fun p => p.1 + p.2) (fun p hp => by
      have := Finset.mem_product.1 hp
      simp only [Finset.mem_range] at this
      omega) hj, Finset.sum_product, coefficient_eq]
  push_cast
  rfl

end Sys2Proof.Machine
end

