-- ==== Sys2Proof/Laws/Decimal.lean ====
section
/-!
SUPPORT. Decimal digits: the carry walk keeps the weighted value (spec/45_carry_normalizer.md R250-R252), and the
rendered string is the decimal string of the value (spec/42_digit_codec.md R185, R186).
-/

namespace Sys2Proof.Machine

open Sys2Proof

/-- A list of digits, least significant first. -/
abbrev AllDigit (ds : List Nat) : Prop := ∀ d ∈ ds, d < 10

theorem ofDigits_lt {ds : List Nat} (h : AllDigit ds) : Nat.ofDigits 10 ds < 10 ^ ds.length :=
  Nat.ofDigits_lt_base_pow_length (by decide) h

theorem weighted_eq_ofDigits (n : Nat) (f : Nat → Nat) : weighted n f = Nat.ofDigits 10 ((List.range n).map f) := by
  unfold weighted
  induction n with
  | zero => simp
  | succ n ih =>
    rw [Finset.sum_range_succ, ih, List.range_succ, List.map_append, Nat.ofDigits_append]
    simp [mul_comm]

/-! ### The walk -/

theorem carryWalk_length (carry : Nat) (xs : List Nat) : (carryWalk carry xs).1.length = xs.length := by
  induction xs generalizing carry with
  | nil => rfl
  | cons c xs ih => simp [carryWalk, ih]

theorem carryWalk_digit (carry : Nat) (xs : List Nat) : AllDigit (carryWalk carry xs).1 := by
  induction xs generalizing carry with
  | nil => simp [carryWalk, AllDigit]
  | cons c xs ih =>
    intro d hd
    rcases List.mem_cons.1 hd with rfl | hd
    · exact Nat.mod_lt _ (by decide)
    · exact ih _ d hd

/-- The digits emitted and the carry left hold the value read so far (R252). -/
theorem carryWalk_value (carry : Nat) (xs : List Nat) :
    Nat.ofDigits 10 (carryWalk carry xs).1 + 10 ^ xs.length * (carryWalk carry xs).2 =
      Nat.ofDigits 10 xs + carry := by
  induction xs generalizing carry with
  | nil => simp [carryWalk]
  | cons c xs ih =>
    have := ih ((c + carry) / 10)
    simp only [carryWalk, Nat.ofDigits_cons, List.length_cons, pow_succ]
    have e : 10 ^ xs.length * 10 * (carryWalk ((c + carry) / 10) xs).2 =
        10 * (10 ^ xs.length * (carryWalk ((c + carry) / 10) xs).2) := by ring
    omega

/-- The residual carry's digits, or the overflow of R250, for a carry within the loop's rounds. -/
theorem carryRest_eq (cap fuel i carry : Nat) (hc : carry < 10 ^ fuel) (hi : i ≤ cap) :
    carryRest cap fuel i carry =
      if carry < 10 ^ (cap - i) then .ok (Nat.digits 10 carry) else .error (.raise .resultOverflow) := by
  induction fuel generalizing i carry with
  | zero =>
    obtain rfl : carry = 0 := by simpa using hc
    rw [if_pos (by positivity)]; simp [carryRest]
  | succ fuel ih =>
    unfold carryRest
    by_cases h0 : carry = 0
    · subst h0; rw [if_pos rfl, if_pos (by positivity)]; simp
    · rw [if_neg h0]
      by_cases h1 : cap ≤ i
      · have : cap - i = 0 := by omega
        rw [if_pos h1, this, if_neg (by omega)]
      · have hd : carry / 10 < 10 ^ fuel := by rw [pow_succ] at hc; omega
        have hp : 10 ^ (cap - i) = 10 ^ (cap - (i + 1)) * 10 := by rw [← pow_succ]; congr 1; omega
        rw [if_neg h1, ih (i + 1) (carry / 10) hd (by omega), hp]
        by_cases h2 : carry / 10 < 10 ^ (cap - (i + 1))
        · rw [if_pos h2, if_pos (by omega), Nat.digits_def' (b := 10) (n := carry) (by decide) (by omega)]; rfl
        · rw [if_neg h2, if_neg (by omega)]; rfl

/-- A carry never exceeds (MOD − 1) div 9 (R251). -/
theorem carryWalk_le (carry : Nat) (xs : List Nat) (hx : AllField xs) (hc : carry ≤ (modulus - 1) / 9) :
    (carryWalk carry xs).2 ≤ (modulus - 1) / 9 := by
  induction xs generalizing carry with
  | nil => exact hc
  | cons c xs ih =>
    have h1 : c < 2013265921 := hx c (by simp)
    have h2 : (modulus - 1) / 9 = 223696213 := by decide
    exact ih _ (fun x h => hx x (List.mem_cons_of_mem _ h)) (by rw [h2] at hc ⊢; omega)

/-- The whole carry: the decimal digits of the value, at least as many as there are coefficients, or the overflow. -/
theorem carry_digits (cap : Nat) (xs : List Nat) (hx : AllField xs) (hn : xs.length ≤ cap) :
    (Nat.ofDigits 10 xs < 10 ^ cap → ∃ rest, carryRest cap 64 xs.length (carryWalk 0 xs).2 = .ok rest ∧
      AllDigit ((carryWalk 0 xs).1 ++ rest) ∧
      Nat.ofDigits 10 ((carryWalk 0 xs).1 ++ rest) = Nat.ofDigits 10 xs ∧
      ((carryWalk 0 xs).1 ++ rest).length = max xs.length (Nat.digits 10 (Nat.ofDigits 10 xs)).length) ∧
    (10 ^ cap ≤ Nat.ofDigits 10 xs →
      carryRest cap 64 xs.length (carryWalk 0 xs).2 = .error (.raise .resultOverflow)) := by
  have hv := carryWalk_value 0 xs
  have hl := carryWalk_length 0 xs
  have hd := carryWalk_digit 0 xs
  have hlt := ofDigits_lt hd
  rw [hl] at hlt
  have hc : (carryWalk 0 xs).2 < 10 ^ 64 :=
    lt_of_le_of_lt (carryWalk_le 0 xs hx (Nat.zero_le _)) (by decide)
  rw [carryRest_eq cap 64 _ _ hc hn]
  generalize (carryWalk 0 xs).2 = C at *
  generalize (carryWalk 0 xs).1 = D at *
  generalize Nat.ofDigits 10 xs = V at *
  rw [add_zero] at hv
  have hp : 10 ^ cap = 10 ^ xs.length * 10 ^ (cap - xs.length) := by rw [← pow_add]; congr 1; omega
  have hpos : 0 < 10 ^ xs.length := by positivity
  constructor
  · intro h
    have hC : C < 10 ^ (cap - xs.length) := by
      by_contra hn
      have := Nat.mul_le_mul_left (10 ^ xs.length) (not_lt.1 hn)
      omega
    rw [if_pos hC]
    have hval : Nat.ofDigits 10 (D ++ Nat.digits 10 C) = V := by
      rw [Nat.ofDigits_append, Nat.ofDigits_digits, hl, hv]
    have hall : AllDigit (D ++ Nat.digits 10 C) := fun d hd' => by
      rcases List.mem_append.1 hd' with h | h
      · exact hd d h
      · exact Nat.digits_lt_base (by decide) h
    refine ⟨_, rfl, hall, hval, ?_⟩
    by_cases h0 : C = 0
    · subst h0
      have : V < 10 ^ xs.length := by omega
      have := Nat.digits_length_le_iff (b := 10) (by decide) V (k := xs.length) |>.2 this
      simp [hl]; omega
    · have hdig : Nat.digits 10 V = D ++ Nat.digits 10 C := by
        rw [← hval]
        refine Nat.digits_ofDigits 10 (by decide) _ hall fun hne => ?_
        rw [List.getLast_append_of_ne_nil _ (Nat.digits_ne_nil_iff_ne_zero.2 h0)]
        exact Nat.getLast_digit_ne_zero 10 h0
      rw [hdig, List.length_append, hl]; omega
  · intro h
    rw [if_neg]
    intro hC
    have h2 : C + 1 ≤ 10 ^ (cap - xs.length) := hC
    have := Nat.mul_le_mul_left (10 ^ xs.length) h2
    rw [mul_add, mul_one] at this
    omega

/-! ### The decimal string -/

/-- Dropping leading zeros from digits written most significant first leaves the digits of the number. -/
theorem dropWhile_reverse (ds : List Nat) (h : AllDigit ds) :
    ds.reverse.dropWhile (· == 0) = (Nat.digits 10 (Nat.ofDigits 10 ds)).reverse := by
  induction ds using List.reverseRecOn with
  | nil => simp
  | append_singleton ds d ih =>
    rw [List.reverse_append, List.reverse_singleton, List.singleton_append]
    by_cases hd : d = 0
    · subst hd
      rw [List.dropWhile_cons_of_pos (by simp), ih fun x hx => h x (by simp [hx]), Nat.ofDigits_append]
      simp
    · rw [List.dropWhile_cons_of_neg (by simpa using hd), Nat.digits_ofDigits 10 (by decide) _ h
        (fun _ => by simpa using hd)]
      simp

/-- `renderString` of digits given most significant first is the decimal line of their number. -/
theorem renderString_eq (ds : List Nat) (h : AllDigit ds) :
    renderString (ds.reverse.map (BitVec.ofNat 4)) = decimalLine (Nat.ofDigits 10 ds) := by
  have hz : ∀ d, d < 10 → ((BitVec.ofNat 4 d == 0) = (d == 0)) := by decide
  have hdrop : ∀ es : List Nat, AllDigit es →
      (es.map (BitVec.ofNat 4)).dropWhile (· == 0) = (es.dropWhile (· == 0)).map (BitVec.ofNat 4) := by
    intro es he
    induction es with
    | nil => rfl
    | cons e es ih =>
      have h1 := hz e (he e (by simp))
      have h2 := ih fun x hx => he x (List.mem_cons_of_mem _ hx)
      simp only [List.map_cons, List.dropWhile_cons, h1, h2]
      split <;> simp
  have hrev : AllDigit ds.reverse := fun x hx => h x (by simpa using hx)
  have hval : ∀ d, d < 10 → BitVec.ofNat 8 (0x30 + (BitVec.ofNat 4 d).toNat) = BitVec.ofNat 8 (0x30 + d) := by decide
  unfold renderString decimalLine
  rw [hdrop _ hrev, dropWhile_reverse ds h]
  generalize Nat.ofDigits 10 ds = v
  by_cases hv : v = 0
  · subst hv; simp
  · rw [if_neg hv]
    have hne : (Nat.digits 10 v).reverse ≠ [] := by simpa [Nat.digits_ne_nil_iff_ne_zero] using hv
    obtain ⟨e, es, hes⟩ := List.exists_cons_of_ne_nil hne
    rw [hes]
    have hlt : ∀ x ∈ e :: es, x < 10 := fun x hx => by
      rw [← hes] at hx
      exact Nat.digits_lt_base (by decide) (by simpa using hx)
    show ((e :: es).map (BitVec.ofNat 4)).map (fun d => BitVec.ofNat 8 (0x30 + d.toNat)) ++ _ = _
    rw [List.map_map]
    congr 1
    exact List.map_congr_left fun x hx => hval x (hlt x hx)

theorem decimalLine_length_le {v n : Nat} (h : v < 10 ^ n) : (decimalLine v).length ≤ max n 1 + 1 := by
  unfold decimalLine
  have := Nat.digits_length_le_iff (b := 10) (by decide) v (k := n) |>.2 h
  split <;> simp; omega

end Sys2Proof.Machine
end

