-- ==== Sys2Proof/Laws/Effects.lean ====
section
/-!
SUPPORT. What the effect of each buffer command computes, once its operands are field elements or digits
(spec/43_ntt_engine.md R204, R205, spec/44_convolution.md R232-R236, spec/45_carry_normalizer.md R250,
spec/42_digit_codec.md R180, R185, spec/46_pipeline.md R270, R271).
-/

namespace Sys2Proof.Machine

open Sys2Proof

/-! ### Sizes -/

theorem log2UpFrom_eq (s fuel k : Nat) (h1 : k ≤ Nat.clog 2 s) (h2 : Nat.clog 2 s ≤ k + fuel) :
    log2UpFrom s fuel k = Nat.clog 2 s := by
  induction fuel generalizing k with
  | zero => show k = _; omega
  | succ fuel ih =>
    unfold log2UpFrom
    split
    · rename_i h
      exact le_antisymm h1 ((Nat.clog_le_iff_le_pow (by decide)).2 h)
    · rename_i h
      have : ¬ Nat.clog 2 s ≤ k := fun hc => h ((Nat.clog_le_iff_le_pow (by decide)).1 hc)
      exact ih (k + 1) (by omega) (by omega)

/-- `log2(next_pow2(s))` (R230). -/
theorem log2Up_eq {s : Nat} (h : s ≤ 2 ^ 64) : log2Up s = Nat.clog 2 s :=
  log2UpFrom_eq s 64 0 (Nat.zero_le _) (by simpa using (Nat.clog_le_iff_le_pow (by decide)).2 h)

theorem nMax_le (c : Config) : c.nMax ≤ 2 ^ 27 := Nat.pow_le_pow_right (by decide) c.le_27

theorem clog_le_lognMax {c : Config} {s : Nat} : Nat.clog 2 s ≤ c.lognMax ↔ s ≤ c.nMax :=
  Nat.clog_le_iff_le_pow (by decide)

theorem size_eq (s : State) : s.size = 2 ^ s.logn.toNat := rfl

/-! ### Lists of elements written from index 0 -/

theorem Mem.fields_writeList (m : Mem 32) {n : Nat} {h : Nat → Nat} (hh : ∀ k < n, h k < modulus) :
    (m.writeList 0 (((List.range n).map h).map bufWord)).fields n h ∧
      ∀ i, n ≤ i → (m.writeList 0 (((List.range n).map h).map bufWord)).read i = m.read i := by
  refine ⟨fun i hi => ⟨hh i hi, ?_⟩, fun i hi => ?_⟩
  · rw [Mem.read_writeList, if_pos (by simpa using hi)]
    simp [hi, bufWord]
  · rw [Mem.read_writeList, if_neg (by simpa using hi)]

theorem Mem.fields.full {m : Mem 32} {n : Nat} {f : Nat → Nat} (h : m.fields n f) : m.full n := fun i hi => by
  rw [(h i hi).2]; rfl

/-- Two descriptions of the same entries agree. -/
theorem Mem.fields.unique {m : Mem 32} {n : Nat} {f g : Nat → Nat} (hf : m.fields n f) (hg : m.fields n g) :
    ∀ i < n, f i = g i := fun i hi => by
  have h := (hf i hi).2.symm.trans (hg i hi).2
  have hb : ∀ x, x < modulus → (BitVec.ofNat 32 x).toNat = x := fun x => toNat_bufWord
  rw [← hb _ (hf i hi).1, ← hb _ (hg i hi).1, Option.some.inj h]

theorem Mem.fields.congr {m : Mem 32} {n : Nat} {f g : Nat → Nat} (hf : m.fields n f) (h : ∀ i < n, g i = f i) :
    m.fields n g := fun i hi => by rw [h i hi]; exact hf i hi

/-! ### NTT -/

/-- What one NTT leaves at entry `k` (R205, R210). -/
abbrev nttValue (bits : Nat) (d : Dir) (f : Nat → Nat) (k : Nat) : Nat :=
  scaleFactor bits d * (∑ i ∈ Finset.range (2 ^ bits), f i * rootOfUnity bits d ^ (i * k)) % modulus

theorem nttValue_lt (bits : Nat) (d : Dir) (f : Nat → Nat) (k : Nat) : nttValue bits d f k < modulus :=
  Nat.mod_lt _ modulus_pos

theorem nttScale_eq (bits n : Nat) (d : Dir) (h : Nat → Nat) :
    nttScale bits d ((List.range n).map fun k => h k % modulus) =
      (List.range n).map fun k => scaleFactor bits d * h k % modulus := by
  cases d with
  | fwd => simp [nttScale, scaleFactor]
  | inv =>
    simp only [nttScale, List.map_map]
    refine List.map_congr_left fun k _ => ?_
    simp only [Function.comp, mulMod, invMod_eq, scaleFactor]
    rw [Nat.mod_mul_mod, mul_comm]

/-- NTT of field elements (R205, R210). -/
theorem nttEffect_of_fields {s : State} {b : Buf} {d : Dir} {f : Nat → Nat} (hl : s.logn.toNat ≤ 27)
    (hf : (s.buf b).fields s.size f) :
    ∃ m, nttEffect b d s = .ok (s.setBuf b m) ∧ m.fields s.size (nttValue s.logn.toNat d f) ∧
      ∀ i, s.size ≤ i → m.read i = (s.buf b).read i := by
  obtain ⟨m, hm, hlo, hhi⟩ := bitRevLoop_permutes (bufId b) s.logn.toNat (s.buf b) hf.full
  have hread : readList (bufId b) m s.size 0 =
      .ok ((List.range s.size).map fun i => BitVec.ofNat 32 (f (bitRev i s.logn.toNat))) :=
    readList_eq_ok.2 ⟨by simp, fun k hk => by
      rw [zero_add, hlo k hk, (hf _ (bitRev_lt _ _)).2]; simp [hk]⟩
  have hmap : ((List.range s.size).map fun i => BitVec.ofNat 32 (f (bitRev i s.logn.toNat))).map BitVec.toNat =
      (List.range s.size).map fun i => f (bitRev i s.logn.toNat) := by
    rw [List.map_map]
    exact List.map_congr_left fun i _ => toNat_bufWord (hf _ (bitRev_lt _ _)).1
  have hst := nttStages_eq d hl f fun i hi => (hf i hi).1
  have hw := Mem.fields_writeList m (n := s.size) fun k _ => nttValue_lt s.logn.toNat d f k
  refine ⟨_, ?_, hw.1, fun i hi => (hw.2 i hi).trans (hhi i hi)⟩
  rw [← size_eq] at hm hst
  simp only [nttEffect, fieldList_of_fields _ hf, ok_bind, hm, hread, hmap, hst, pure_eq_ok]
  rw [size_eq, nttScale_eq]

/-- Where NTT's effect ends well, a memory of the same canonical size replaces the buffer. -/
theorem nttEffect_eq_ok {s t : State} {b : Buf} {d : Dir} (h : nttEffect b d s = .ok t) :
    ∃ m ys, bitRevLoop (bufId b) s.logn.toNat s.size 0 (s.buf b) = .ok m ∧ ys.length = s.size ∧
      t = s.setBuf b (m.writeList 0 ys) := by
  simp only [nttEffect, bind_eq_ok, pure_eq_ok, Except.ok.injEq] at h
  obtain ⟨-, -, m, hm, xs, hxs, rfl⟩ := h
  refine ⟨m, _, hm, ?_, rfl⟩
  obtain ⟨hlen, -⟩ := readList_eq_ok.1 hxs
  have hst : ∀ count k, k + count = s.logn.toNat → ∀ zs : List Nat, zs.length = s.size →
      (nttStages d s.logn.toNat count (k + 1) zs).length = s.size := by
    intro count
    induction count with
    | zero => intro k _ zs hz; exact hz
    | succ count ih =>
      intro k hk zs hz
      refine ih (k + 1) (by omega) _ ?_
      rw [nttStage_length _ _ _ _ ?_, hz]
      rw [hz, size_eq, ← pow_succ', ← pow_add]; congr 1; omega
  have := hst s.logn.toNat 0 (by omega) (xs.map BitVec.toNat) (by simpa using hlen)
  cases d <;> simpa [nttScale] using this

theorem nttEffect_eq_error {s : State} {b : Buf} {d : Dir} {e : Stop} (h : nttEffect b d s = .error e) :
    (∃ k, (s.buf b).read k = none ∧ e = .fault (.unwritten (bufId b) k)) ∨
      (e = .raise .operandRange ∧ ∃ k < s.size, ∃ v, (s.buf b).read k = some v ∧ modulus ≤ v.toNat) := by
  simp only [nttEffect, bind_eq_error, pure_eq_ok, reduceCtorEq, and_false, exists_false, or_false] at h
  rcases h with h | ⟨xs, hxs, h | ⟨m, hm, h⟩⟩
  · obtain ⟨k, hk, h | ⟨v, h1, h2, h3⟩⟩ := fieldList_eq_error h
    · exact .inl ⟨_, h⟩
    · exact .inr ⟨h3, k, hk, v, by simpa using h1, h2⟩
  · exact .inl (bitRevLoop_eq_error h)
  · exfalso
    obtain ⟨hlen, hall⟩ := fieldList_eq_ok.1 hxs
    have hfull : (s.buf b).full (2 ^ s.logn.toNat) := fun i hi => by
      have := hall i (by rw [hlen]; exact hi)
      rw [zero_add] at this; rw [this.2]; rfl
    obtain ⟨m', hm', hlo, -⟩ := bitRevLoop_permutes (bufId b) s.logn.toNat (s.buf b) hfull
    obtain rfl : m' = m := by rw [size_eq] at hm; simpa [hm] using hm'.symm
    obtain ⟨k, hk, h1, -⟩ := readList_eq_error h
    have := hfull _ (bitRev_lt s.logn.toNat (0 + k))
    rw [← hlo _ (by rw [zero_add]; exact hk), h1] at this
    simp at this

/-! ### PMUL -/

theorem productList_eq_ok {s : State} {bx bY : Buf} {count i : Nat} {ps : List Nat} :
    productList bx bY s count i = .ok ps ↔ ps.length = count ∧ ∀ k (h : k < ps.length), ∃ u v,
      u < modulus ∧ v < modulus ∧ (s.buf bx).read (i + k) = some (BitVec.ofNat 32 u) ∧
      (s.buf bY).read (i + k) = some (BitVec.ofNat 32 v) ∧ ps[k] = mulMod u v := by
  induction count generalizing i ps with
  | zero => cases ps <;> simp [productList]
  | succ count ih =>
    simp only [productList, bind_eq_ok, pure_eq_ok, Except.ok.injEq, fieldElem_eq_ok]
    constructor
    · rintro ⟨u, hu, v, hv, qs, hqs, rfl⟩
      obtain ⟨h1, h2⟩ := ih.1 hqs
      refine ⟨by simp [h1], fun k hk => ?_⟩
      cases k with
      | zero => exact ⟨u, v, hu.1, hv.1, hu.2, hv.2, rfl⟩
      | succ k =>
        have := h2 k (by simpa using hk)
        rw [List.getElem_cons_succ]
        rwa [show i + (k + 1) = i + 1 + k by omega]
    · rintro ⟨h1, h2⟩
      cases ps with
      | nil => simp at h1
      | cons p qs =>
        obtain ⟨u, v, hu, hv, h3, h4, h5⟩ := h2 0 (Nat.zero_lt_succ _)
        refine ⟨u, ⟨hu, h3⟩, v, ⟨hv, h4⟩, qs, ih.2 ⟨by simpa using h1, fun k hk => ?_⟩, by
          rw [List.getElem_cons_zero] at h5; rw [h5]⟩
        have := h2 (k + 1) (by simpa using hk)
        rw [List.getElem_cons_succ] at this
        rwa [show i + 1 + k = i + (k + 1) by omega]

theorem productList_eq_error {s : State} {bx bY : Buf} {count i : Nat} {e : Stop}
    (h : productList bx bY s count i = .error e) :
    ∃ k < count, ∃ b, (b = bx ∨ b = bY) ∧
      (((s.buf b).read (i + k) = none ∧ e = .fault (.unwritten (bufId b) (i + k))) ∨
        ∃ v, (s.buf b).read (i + k) = some v ∧ modulus ≤ v.toNat ∧ e = .raise .operandRange) := by
  induction count generalizing i with
  | zero => simp [productList] at h
  | succ count ih =>
    simp only [productList, bind_eq_error, pure_eq_ok, reduceCtorEq, and_false, exists_false, or_false,
      fieldElem_eq_error] at h
    rcases h with h | ⟨u, -, h | ⟨v, -, h⟩⟩
    · exact ⟨0, by omega, bx, .inl rfl, h⟩
    · exact ⟨0, by omega, bY, .inr rfl, h⟩
    · obtain ⟨k, hk, b, hb, h⟩ := ih h
      have e1 : i + (k + 1) = i + 1 + k := by omega
      exact ⟨k + 1, by omega, b, hb, by rw [e1]; exact h⟩

/-- PMUL of field elements (R232). -/
theorem pmulEffect_of_fields {s : State} {bd bx bY : Buf} {f g : Nat → Nat} (hf : (s.buf bx).fields s.size f)
    (hg : (s.buf bY).fields s.size g) :
    ∃ m, pmulEffect bd bx bY s = .ok (s.setBuf bd m) ∧ m.fields s.size (fun i => f i * g i % modulus) ∧
      ∀ i, s.size ≤ i → m.read i = (s.buf bd).read i := by
  have hp : productList bx bY s s.size 0 = .ok ((List.range s.size).map fun i => mulMod (f i) (g i)) :=
    productList_eq_ok.2 ⟨by simp, fun k hk => by
      have hk' : k < s.size := by simpa using hk
      exact ⟨f k, g k, (hf k hk').1, (hg k hk').1, by simpa using (hf k hk').2, by simpa using (hg k hk').2, by simp⟩⟩
  have hw := Mem.fields_writeList (s.buf bd) (n := s.size) (h := fun i => mulMod (f i) (g i))
    fun k _ => mulMod_lt _ _
  refine ⟨_, ?_, hw.1, hw.2⟩
  rw [pmulEffect, hp]; rfl

theorem pmulEffect_eq_ok {s t : State} {bd bx bY : Buf} (h : pmulEffect bd bx bY s = .ok t) :
    ∃ ys : List Word, ys.length = s.size ∧ t = s.setBuf bd ((s.buf bd).writeList 0 ys) := by
  simp only [pmulEffect, bind_eq_ok, pure_eq_ok, Except.ok.injEq] at h
  obtain ⟨ps, hps, rfl⟩ := h
  exact ⟨_, by simpa using (productList_eq_ok.1 hps).1, rfl⟩

theorem pmulEffect_eq_error {s : State} {bd bx bY : Buf} {e : Stop} (h : pmulEffect bd bx bY s = .error e) :
    productList bx bY s s.size 0 = .error e := by
  simpa [pmulEffect, bind_eq_error] using h

/-! ### PAD -/

theorem padList_eq_ok {id : MemId} {m : Mem 4} {len count i : Nat} {vs : List Word} :
    padList id m len count i = .ok vs ↔ vs.length = count ∧ ∀ k (h : k < vs.length),
      (i + k < len → ∃ v, m.read (i + k) = some v ∧ vs[k] = v.setWidth 32) ∧ (len ≤ i + k → vs[k] = 0) := by
  induction count generalizing i vs with
  | zero => cases vs <;> simp [padList]
  | succ count ih =>
    unfold padList
    constructor
    · intro h
      have hsplit : ∃ v us, padList id m len count (i + 1) = .ok us ∧ vs = v :: us ∧
          (i < len → ∃ x, m.read i = some x ∧ v = x.setWidth 32) ∧ (len ≤ i → v = 0) := by
        split at h
        · simp only [bind_eq_ok, pure_eq_ok, Except.ok.injEq, readElem_eq_ok] at h
          obtain ⟨x, hx, us, hus, rfl⟩ := h
          exact ⟨_, us, hus, rfl, fun _ => ⟨x, hx, rfl⟩, fun _ => by omega⟩
        · simp only [bind_eq_ok, pure_eq_ok, Except.ok.injEq] at h
          obtain ⟨us, hus, rfl⟩ := h
          exact ⟨_, us, hus, rfl, fun _ => by omega, fun _ => rfl⟩
      obtain ⟨v, us, hus, rfl, hv1, hv2⟩ := hsplit
      obtain ⟨h1, h2⟩ := ih.1 hus
      refine ⟨by simp [h1], fun k hk => ?_⟩
      cases k with
      | zero => exact ⟨hv1, hv2⟩
      | succ k =>
        have := h2 k (by simpa using hk)
        rw [List.getElem_cons_succ]
        rwa [show i + (k + 1) = i + 1 + k by omega]
    · rintro ⟨h1, h2⟩
      cases vs with
      | nil => simp at h1
      | cons v us =>
        have hus : padList id m len count (i + 1) = .ok us := ih.2 ⟨by simpa using h1, fun k hk => by
          have := h2 (k + 1) (by simpa using hk)
          rw [List.getElem_cons_succ] at this
          rwa [show i + 1 + k = i + (k + 1) by omega]⟩
        have h0 := h2 0 (Nat.zero_lt_succ _)
        split
        · rename_i hlt
          obtain ⟨x, hx, hv⟩ := h0.1 hlt
          rw [readElem_eq_ok.2 (by simpa using hx), ok_bind, hus]
          rw [List.getElem_cons_zero] at hv
          rw [hv]; rfl
        · rename_i hge
          have hv := h0.2 (by omega)
          rw [List.getElem_cons_zero] at hv
          rw [hus, hv]; rfl

theorem padList_eq_error {id : MemId} {m : Mem 4} {len count i : Nat} {e : Stop}
    (h : padList id m len count i = .error e) :
    ∃ k, k < len ∧ m.read k = none ∧ e = .fault (.unwritten id k) := by
  induction count generalizing i with
  | zero => simp [padList] at h
  | succ count ih =>
    unfold padList at h
    split at h
    · simp only [bind_eq_error, pure_eq_ok, reduceCtorEq, and_false, exists_false, or_false, readElem_eq_error] at h
      rcases h with h | ⟨v, -, h⟩
      · exact ⟨i, by assumption, h⟩
      · exact ih h
    · simp only [bind_eq_error, pure_eq_ok, reduceCtorEq, and_false, exists_false, or_false] at h
      exact ih h

theorem padList_of_digits (id : MemId) {m : Mem 4} {len n : Nat} {f : Nat → Nat} (h : m.digits len f) :
    padList id m len n 0 = .ok (((List.range n).map fun i => if i < len then f i else 0).map bufWord) := by
  refine padList_eq_ok.2 ⟨by simp, fun k hk => ⟨fun hlt => ?_, fun hge => ?_⟩⟩
  · rw [zero_add] at hlt
    obtain ⟨h1, h2⟩ := h k hlt
    refine ⟨_, by rw [zero_add]; exact h2, ?_⟩
    simp only [List.getElem_map, List.getElem_range, hlt, if_true, bufWord]
    refine BitVec.eq_of_toNat_eq ?_
    simp only [BitVec.toNat_ofNat, BitVec.toNat_setWidth]
    omega
  · rw [zero_add] at hge
    simp [show ¬ k < len by omega, bufWord]

theorem lenSum_le (s : State) : s.lenA.toNat + s.lenB.toNat ≤ 2 ^ 64 := by
  have h1 := s.lenA.isLt
  have h2 := s.lenB.isLt
  omega

/-- PAD's two checks, in terms of the lengths (R231, R233). -/
theorem padEffect_eq (s : State) :
    padEffect s =
      if s.cfg.nMax < s.lenA.toNat + s.lenB.toNat ∨ modulus ≤ 81 * min s.lenA.toNat s.lenB.toNat then
        .error (.raise .unsupportedSize)
      else do
        let va ← padList .digA s.digA s.lenA.toNat (2 ^ Nat.clog 2 (s.lenA.toNat + s.lenB.toNat)) 0
        let vb ← padList .digB s.digB s.lenB.toNat (2 ^ Nat.clog 2 (s.lenA.toNat + s.lenB.toNat)) 0
        return { s with
          logn := BitVec.ofNat 5 (Nat.clog 2 (s.lenA.toNat + s.lenB.toNat))
          bufA := s.bufA.writeList 0 va
          bufB := s.bufB.writeList 0 vb } := by
  have hlt : s.cfg.nMax < nextPow2 (s.lenA.toNat + s.lenB.toNat) ↔ s.cfg.nMax < s.lenA.toNat + s.lenB.toNat := by
    have h := (Nat.pow_le_pow_iff_right (by decide : 1 < 2)).trans
      (clog_le_lognMax (c := s.cfg) (s := s.lenA.toNat + s.lenB.toNat))
    rw [← not_le, ← not_le, not_iff_not, nextPow2, log2Up_eq (lenSum_le s)]
    exact h
  unfold padEffect
  simp only [hlt]
  by_cases h1 : s.cfg.nMax < s.lenA.toNat + s.lenB.toNat
  · rw [if_pos h1, if_pos (.inl h1)]
  · by_cases h2 : modulus ≤ 81 * min s.lenA.toNat s.lenB.toNat
    · rw [if_neg h1, if_pos h2, if_pos (.inr h2)]
    · rw [if_neg h1, if_neg h2, if_neg (by tauto), nextPow2, log2Up_eq (lenSum_le s)]

theorem toNat_lognOf {c : Config} {k : Nat} (h : k ≤ c.nMax) :
    (BitVec.ofNat 5 (Nat.clog 2 k)).toNat = Nat.clog 2 k := by
  have := clog_le_lognMax.2 h
  have := c.le_27
  rw [BitVec.toNat_ofNat, Nat.mod_eq_of_lt (by omega)]

/-- PAD of digit vectors that pass its checks (R233). -/
theorem padEffect_of_digits {s : State} {f g : Nat → Nat} (h1 : s.lenA.toNat + s.lenB.toNat ≤ s.cfg.nMax)
    (h2 : 81 * min s.lenA.toNat s.lenB.toNat < modulus) (hf : s.digA.digits s.lenA.toNat f)
    (hg : s.digB.digits s.lenB.toNat g) :
    ∃ ma mb, padEffect s = .ok { s with
        logn := BitVec.ofNat 5 (Nat.clog 2 (s.lenA.toNat + s.lenB.toNat)), bufA := ma, bufB := mb } ∧
      ma.fields (2 ^ Nat.clog 2 (s.lenA.toNat + s.lenB.toNat)) (fun i => if i < s.lenA.toNat then f i else 0) ∧
      mb.fields (2 ^ Nat.clog 2 (s.lenA.toNat + s.lenB.toNat)) (fun i => if i < s.lenB.toNat then g i else 0) ∧
      ∀ i, 2 ^ Nat.clog 2 (s.lenA.toNat + s.lenB.toNat) ≤ i →
        ma.read i = s.bufA.read i ∧ mb.read i = s.bufB.read i := by
  have hlt : ∀ (len : Nat) (h : Nat → Nat), (∀ i < len, h i ≤ 9) → ∀ k, (if k < len then h k else 0) < modulus :=
    fun len h hh k => by
      split
      · exact lt_of_le_of_lt (hh k (by assumption)) (by decide)
      · exact modulus_pos
  have ha := Mem.fields_writeList s.bufA (n := 2 ^ Nat.clog 2 (s.lenA.toNat + s.lenB.toNat))
    fun k _ => hlt _ f (fun i hi => (hf i hi).1) k
  have hb := Mem.fields_writeList s.bufB (n := 2 ^ Nat.clog 2 (s.lenA.toNat + s.lenB.toNat))
    fun k _ => hlt _ g (fun i hi => (hg i hi).1) k
  refine ⟨_, _, ?_, ha.1, hb.1, fun i hi => ⟨ha.2 i hi, hb.2 i hi⟩⟩
  rw [padEffect_eq, if_neg (by omega), padList_of_digits _ hf, ok_bind, padList_of_digits _ hg]
  rfl

theorem padEffect_eq_ok {s t : State} (h : padEffect s = .ok t) :
    s.lenA.toNat + s.lenB.toNat ≤ s.cfg.nMax ∧ 81 * min s.lenA.toNat s.lenB.toNat < modulus ∧
      ∃ va vb : List Word, va.length = 2 ^ Nat.clog 2 (s.lenA.toNat + s.lenB.toNat) ∧
        vb.length = 2 ^ Nat.clog 2 (s.lenA.toNat + s.lenB.toNat) ∧
        (∀ k (h : k < va.length), va[k].toNat < 16) ∧ (∀ k (h : k < vb.length), vb[k].toNat < 16) ∧
        t = { s with
          logn := BitVec.ofNat 5 (Nat.clog 2 (s.lenA.toNat + s.lenB.toNat))
          bufA := s.bufA.writeList 0 va
          bufB := s.bufB.writeList 0 vb } := by
  rw [padEffect_eq] at h
  split at h
  · simp at h
  · rename_i hc
    simp only [bind_eq_ok, pure_eq_ok, Except.ok.injEq] at h
    obtain ⟨va, hva, vb, hvb, rfl⟩ := h
    have hsmall : ∀ {id : MemId} {m : Mem 4} {len n : Nat} {vs : List Word}, padList id m len n 0 = .ok vs →
        ∀ k (h : k < vs.length), vs[k].toNat < 16 := fun {id m len n vs} hp k hk => by
      obtain ⟨h1, h2⟩ := (padList_eq_ok.1 hp).2 k hk
      by_cases hlt : 0 + k < len
      · obtain ⟨v, -, hv⟩ := h1 hlt
        rw [hv, BitVec.toNat_setWidth]
        have := v.isLt
        omega
      · rw [h2 (by omega)]; simp
    refine ⟨by omega, by omega, va, vb, (padList_eq_ok.1 hva).1, (padList_eq_ok.1 hvb).1, hsmall hva, hsmall hvb, rfl⟩

theorem padEffect_eq_error {s : State} {e : Stop} (h : padEffect s = .error e) :
    e = .raise .unsupportedSize ∨ (∃ k, s.digA.read k = none ∧ e = .fault (.unwritten .digA k) ∧ k < s.lenA.toNat) ∨
      ∃ k, s.digB.read k = none ∧ e = .fault (.unwritten .digB k) ∧ k < s.lenB.toNat := by
  rw [padEffect_eq] at h
  split at h
  · simp only [Except.error.injEq] at h; exact .inl h.symm
  · simp only [bind_eq_error, pure_eq_ok, reduceCtorEq, and_false, exists_false, or_false] at h
    rcases h with h | ⟨va, -, h⟩
    · obtain ⟨k, h1, h2, h3⟩ := padList_eq_error h
      exact .inr (.inl ⟨k, h2, h3, h1⟩)
    · obtain ⟨k, h1, h2, h3⟩ := padList_eq_error h
      exact .inr (.inr ⟨k, h2, h3, h1⟩)

/-! ### CONV -/

theorem cast_nttValue_fwd (bits : Nat) (f : Nat → Nat) (k : Nat) :
    (nttValue bits .fwd f k : Field) = forward bits (fun i => (f i : Field)) k := by
  rw [nttValue, cast_mod, scaleFactor, one_mul, Nat.cast_sum, forward]
  exact Finset.sum_congr rfl fun i _ => by rw [Nat.cast_mul, Nat.cast_pow]; rfl

theorem cast_nttValue_inv (bits : Nat) (f : Nat → Nat) (j : Nat) :
    (nttValue bits .inv f j : Field) = backward bits (fun i => (f i : Field)) j := by
  have hinv : (((2 ^ bits) ^ (modulus - 2) % modulus : Nat) : Field) = ((2 ^ bits : Nat) : Field)⁻¹ := by
    rw [← invMod_eq, cast_invMod]
  rw [nttValue, cast_mod, scaleFactor, Nat.cast_mul, hinv, Nat.cast_sum, backward]
  congr 1
  exact Finset.sum_congr rfl fun i _ => by rw [Nat.cast_mul, Nat.cast_pow]; rfl

/-- The inverse transform of the pointwise product of the forward transforms is the exact convolution (R236). -/
theorem nttValue_convolution {bits a b : Nat} (hb : bits ≤ 27) (hab : a + b ≤ 2 ^ bits)
    (h81 : 81 * min a b < modulus) {f g : Nat → Nat} (hf : ∀ i < a, f i ≤ 9) (hg : ∀ i < b, g i ≤ 9) {j : Nat}
    (hj : j < 2 ^ bits) :
    nttValue bits .inv (fun k => nttValue bits .fwd (fun i => if i < a then f i else 0) k *
        nttValue bits .fwd (fun i => if i < b then g i else 0) k % modulus) j = coefficient a b f g j := by
  refine eq_of_cast_eq (nttValue_lt _ _ _ _) (lt_of_le_of_lt (coefficient_le a b f g hf hg j) h81) ?_
  rw [cast_nttValue_inv, ← backward_mul_forward hb hab f g hj]
  congr 1
  funext k
  rw [cast_mod, Nat.cast_mul, cast_nttValue_fwd, cast_nttValue_fwd]

/-- CONV of digit vectors that pass PAD's checks leaves the exact coefficients in BUF_C (R235, R236). -/
theorem convEffect_of_digits {s : State} {f g : Nat → Nat} (h1 : s.lenA.toNat + s.lenB.toNat ≤ s.cfg.nMax)
    (h2 : 81 * min s.lenA.toNat s.lenB.toNat < modulus) (hf : s.digA.digits s.lenA.toNat f)
    (hg : s.digB.digits s.lenB.toNat g) :
    ∃ ma mb mc, convEffect s = .ok { s with
        logn := BitVec.ofNat 5 (Nat.clog 2 (s.lenA.toNat + s.lenB.toNat)), bufA := ma, bufB := mb, bufC := mc } ∧
      mc.fields (2 ^ Nat.clog 2 (s.lenA.toNat + s.lenB.toNat))
        (coefficient s.lenA.toNat s.lenB.toNat f g) := by
  obtain ⟨ma, mb, hp, hma, hmb, -⟩ := padEffect_of_digits h1 h2 hf hg
  have hl := toNat_lognOf h1
  have h27 : Nat.clog 2 (s.lenA.toNat + s.lenB.toNat) ≤ 27 := le_trans (clog_le_lognMax.2 h1) s.cfg.le_27
  have hab : s.lenA.toNat + s.lenB.toNat ≤ 2 ^ Nat.clog 2 (s.lenA.toNat + s.lenB.toNat) :=
    Nat.le_pow_clog (by decide) _
  have hf9 : ∀ i < s.lenA.toNat, f i ≤ 9 := fun i hi => (hf i hi).1
  have hg9 : ∀ i < s.lenB.toNat, g i ≤ 9 := fun i hi => (hg i hi).1
  generalize s.lenA.toNat = a at *
  generalize s.lenB.toNat = b at *
  generalize Nat.clog 2 (a + b) = bits at *
  have hsz : ∀ t : State, t.logn = BitVec.ofNat 5 bits → t.logn.toNat = bits ∧ t.size = 2 ^ bits := fun t ht => by
    rw [State.size, ht, hl]; exact ⟨rfl, rfl⟩
  obtain ⟨ma', ha1, ha2, -⟩ := nttEffect_of_fields (b := .A) (d := .fwd)
    (s := { s with logn := BitVec.ofNat 5 bits, bufA := ma, bufB := mb })
    (f := fun i => if i < a then f i else 0) (by rw [(hsz _ rfl).1]; exact h27) (by rw [(hsz _ rfl).2]; exact hma)
  obtain ⟨mb', hb1, hb2, -⟩ := nttEffect_of_fields (b := .B) (d := .fwd)
    (s := { s with logn := BitVec.ofNat 5 bits, bufA := ma', bufB := mb })
    (f := fun i => if i < b then g i else 0) (by rw [(hsz _ rfl).1]; exact h27) (by rw [(hsz _ rfl).2]; exact hmb)
  rw [(hsz _ rfl).1, (hsz _ rfl).2] at ha2 hb2
  obtain ⟨mc, hc1, hc2, -⟩ := pmulEffect_of_fields (bd := .C) (bx := .A) (bY := .B)
    (s := { s with logn := BitVec.ofNat 5 bits, bufA := ma', bufB := mb' })
    (by rw [(hsz _ rfl).2]; exact ha2) (by rw [(hsz _ rfl).2]; exact hb2)
  rw [(hsz _ rfl).2] at hc2
  obtain ⟨mc', hd1, hd2, -⟩ := nttEffect_of_fields (b := .C) (d := .inv)
    (s := { s with logn := BitVec.ofNat 5 bits, bufA := ma', bufB := mb', bufC := mc })
    (by rw [(hsz _ rfl).1]; exact h27) (by rw [(hsz _ rfl).2]; exact hc2)
  rw [(hsz _ rfl).1, (hsz _ rfl).2] at hd2
  refine ⟨ma', mb', mc', ?_, hd2.congr fun j hj => (nttValue_convolution h27 hab h2 hf9 hg9 hj).symm⟩
  rw [convEffect, hp, ok_bind, ha1, ok_bind]
  change (nttEffect .B .fwd { s with logn := BitVec.ofNat 5 bits, bufA := ma', bufB := mb } >>= _) = _
  rw [hb1, ok_bind]
  change (pmulEffect .C .A .B { s with logn := BitVec.ofNat 5 bits, bufA := ma', bufB := mb' } >>= _) = _
  rw [hc1, ok_bind]
  exact hd1

end Sys2Proof.Machine
end

