-- ==== Sys2Proof/Laws/Codec.lean ====
section
/-!
SUPPORT. What CARRY, PARSE, RENDER and the whole pipeline compute, and how each can stop (spec/45_carry_normalizer.md R250,
spec/42_digit_codec.md R180, R185, spec/46_pipeline.md R270, R271).
-/

namespace Sys2Proof.Machine

open Sys2Proof

/-! ### Digits in a memory -/

theorem toNat_digit {d : Nat} (h : d < 10) : (BitVec.ofNat 4 d).toNat = d := by
  rw [BitVec.toNat_ofNat, Nat.mod_eq_of_lt (by omega)]

theorem Mem.digits_writeList (m : Mem 4) {ds : List Nat} (h : AllDigit ds) :
    (m.writeList 0 (ds.map (BitVec.ofNat 4))).digits ds.length (ds.getD · 0) := fun i hi => by
  have hd : ds.getD i 0 = ds[i] := by simp [hi]
  refine ⟨?_, ?_⟩
  · have := h _ (List.getElem_mem hi)
    show ds.getD i 0 ≤ 9
    rw [hd]; omega
  · show _ = some (BitVec.ofNat 4 (ds.getD i 0))
    rw [Mem.read_writeList, if_pos (by simpa using hi), hd]
    simp [hi]

theorem range_map_getD (ds : List Nat) : (List.range ds.length).map (ds.getD · 0) = ds := by
  refine List.ext_getElem (by simp) fun i h1 h2 => ?_
  simp [h2]

theorem weighted_getD (ds : List Nat) : weighted ds.length (ds.getD · 0) = Nat.ofDigits 10 ds := by
  rw [weighted_eq_ofDigits, range_map_getD]

theorem Mem.digits.full {m : Mem 4} {n : Nat} {f : Nat → Nat} (h : m.digits n f) : m.full n := fun i hi => by
  rw [(h i hi).2]; rfl

theorem Mem.startsWith_writeList (m : Mem 8) (bs : List Byte) : (m.writeList 0 bs).startsWith bs := fun i hi => by
  rw [Mem.read_writeList, if_pos (by simpa using hi)]; rfl

/-! ### CARRY -/

/-- CARRY of field elements: the decimal digits of their weighted value, or the overflow (R250, R252). -/
theorem carryEffect_of_fields {s : State} {b : Buf} {f : Nat → Nat} (hl : s.size ≤ s.cfg.resCap)
    (hf : (s.buf b).fields s.size f) :
    (weighted s.size f < 10 ^ s.cfg.resCap → ∃ ds : List Nat, AllDigit ds ∧
      Nat.ofDigits 10 ds = weighted s.size f ∧
      ds.length = max s.size (Nat.digits 10 (weighted s.size f)).length ∧
      carryEffect b s = .ok { s with
        res := s.res.writeList 0 (ds.map (BitVec.ofNat 4)), resLen := BitVec.ofNat 32 ds.length }) ∧
    (10 ^ s.cfg.resCap ≤ weighted s.size f → carryEffect b s = .error (.raise .resultOverflow)) := by
  have hx : AllField ((List.range s.size).map f) := fun x hx => by
    simp only [List.mem_map, List.mem_range] at hx
    obtain ⟨i, hi, rfl⟩ := hx
    exact (hf i hi).1
  have h := carry_digits s.cfg.resCap ((List.range s.size).map f) hx (by simpa using hl)
  rw [← weighted_eq_ofDigits, List.length_map, List.length_range] at h
  refine ⟨fun hv => ?_, fun hv => ?_⟩
  · obtain ⟨rest, h1, h2, h3, h4⟩ := h.1 hv
    refine ⟨_, h2, h3, h4, ?_⟩
    simp only [carryEffect, fieldList_of_fields _ hf, ok_bind, h1, pure_eq_ok]
  · simp only [carryEffect, fieldList_of_fields _ hf, ok_bind, h.2 hv, error_bind]

theorem carryRest_eq_ok {cap fuel i carry : Nat} {ds : List Nat} (h : carryRest cap fuel i carry = .ok ds) :
    AllDigit ds ∧ (ds = [] ∨ i + ds.length ≤ cap) := by
  induction fuel generalizing i carry ds with
  | zero =>
    simp only [carryRest, Except.ok.injEq] at h
    subst h; exact ⟨(fun d hd => by cases hd), .inl rfl⟩
  | succ fuel ih =>
    unfold carryRest at h
    split at h
    · simp only [Except.ok.injEq] at h
      subst h; exact ⟨(fun d hd => by cases hd), .inl rfl⟩
    · split at h
      · simp at h
      · simp only [bind_eq_ok, pure_eq_ok, Except.ok.injEq] at h
        obtain ⟨es, hes, rfl⟩ := h
        obtain ⟨h1, h2⟩ := ih hes
        refine ⟨fun d hd => ?_, .inr ?_⟩
        · rcases List.mem_cons.1 hd with rfl | hd
          · exact Nat.mod_lt _ (by decide)
          · exact h1 d hd
        · rcases h2 with rfl | h2
          · simp; omega
          · simp; omega

theorem carryRest_eq_error {cap fuel i carry : Nat} {e : Stop} (h : carryRest cap fuel i carry = .error e) :
    e = .raise .resultOverflow := by
  induction fuel generalizing i carry with
  | zero => simp [carryRest] at h
  | succ fuel ih =>
    unfold carryRest at h
    split at h
    · simp at h
    · split at h
      · simpa [eq_comm] using h
      · simp only [bind_eq_error, pure_eq_ok, reduceCtorEq, and_false, exists_false, or_false] at h
        exact ih h

theorem carryEffect_eq_ok {s t : State} {b : Buf} (h : carryEffect b s = .ok t) :
    ∃ ds : List Nat, AllDigit ds ∧ s.size ≤ ds.length ∧ (s.size ≤ s.cfg.resCap → ds.length ≤ s.cfg.resCap) ∧
      t = { s with res := s.res.writeList 0 (ds.map (BitVec.ofNat 4)), resLen := BitVec.ofNat 32 ds.length } := by
  simp only [carryEffect, bind_eq_ok, pure_eq_ok, Except.ok.injEq] at h
  obtain ⟨xs, hxs, rest, hrest, rfl⟩ := h
  have hlen : (carryWalk 0 xs).1.length = s.size := by rw [carryWalk_length, (fieldList_eq_ok.1 hxs).1]
  obtain ⟨h1, h2⟩ := carryRest_eq_ok hrest
  refine ⟨_, fun d hd => ?_, ?_, fun hc => ?_, rfl⟩
  · rcases List.mem_append.1 hd with hd | hd
    · exact carryWalk_digit 0 xs d hd
    · exact h1 d hd
  · rw [List.length_append]; omega
  · rw [List.length_append]
    rcases h2 with rfl | h2
    · simp; omega
    · omega

theorem carryEffect_eq_error {s : State} {b : Buf} {e : Stop} (h : carryEffect b s = .error e) :
    (∃ k, (s.buf b).read k = none ∧ e = .fault (.unwritten (bufId b) k)) ∨ e = .raise .operandRange ∨
      e = .raise .resultOverflow := by
  simp only [carryEffect, bind_eq_error, pure_eq_ok, reduceCtorEq, and_false, exists_false, or_false] at h
  rcases h with h | ⟨xs, -, h⟩
  · obtain ⟨k, -, h | ⟨v, -, -, h⟩⟩ := fieldList_eq_error h
    · exact .inl ⟨_, h⟩
    · exact .inr (.inl h)
  · exact .inr (.inr (carryRest_eq_error h))

/-! ### PARSE -/

theorem digitCount_eq_ok {id : MemId} {m : Mem 8} {len n : Nat} (h : digitCount id m len = .ok n) :
    (len = 0 ∧ n = 0) ∨ (len = n ∧ 0 < n ∧ ∃ c, m.read (n - 1) = some c ∧ c ≠ 0x0A#8) ∨
      (len = n + 1 ∧ m.read n = some 0x0A#8) := by
  cases len with
  | zero => left; simpa [digitCount, eq_comm] using h
  | succ len =>
    simp only [digitCount, bind_eq_ok, pure_eq_ok, Except.ok.injEq, readElem_eq_ok] at h
    obtain ⟨c, hc, h⟩ := h
    split at h
    · rename_i e
      subst h e
      exact .inr (.inr ⟨rfl, hc⟩)
    · rename_i e
      subst h
      exact .inr (.inl ⟨rfl, by omega, c, hc, e⟩)

theorem digitCount_eq_error {id : MemId} {m : Mem 8} {len : Nat} {e : Stop} (h : digitCount id m len = .error e) :
    ∃ k, m.read k = none ∧ e = .fault (.unwritten id k) := by
  cases len with
  | zero => simp [digitCount] at h
  | succ len =>
    simp only [digitCount, bind_eq_error, pure_eq_ok, reduceCtorEq, and_false, exists_false, or_false,
      readElem_eq_error] at h
    exact ⟨_, h⟩

theorem digitChar {c : Byte} (h : ¬ (c.toNat < 0x30 ∨ 0x39 < c.toNat)) :
    c = BitVec.ofNat 8 (0x30 + (c.toNat - 0x30)) := by
  refine BitVec.eq_of_toNat_eq ?_
  rw [BitVec.toNat_ofNat]; omega

/-- A list of digits read from the bytes that spell them (R181). -/
theorem digitList_of_spelled (id : MemId) {m : Mem 8} {cs : List Nat} {i : Nat} (hd : ∀ c ∈ cs, c ≤ 9)
    (h : ∀ k < cs.length, m.read (i + k) = some (BitVec.ofNat 8 (0x30 + cs.getD k 0))) :
    digitList id m cs.length i = .ok (cs.map (BitVec.ofNat 4)) := by
  induction cs generalizing i with
  | nil => rfl
  | cons c cs ih =>
    have h0 := h 0 (by simp)
    have hc : c ≤ 9 := hd c (by simp)
    simp only [add_zero, List.getD_cons_zero] at h0
    have hn : (BitVec.ofNat 8 (0x30 + c)).toNat = 0x30 + c := by
      rw [BitVec.toNat_ofNat, Nat.mod_eq_of_lt (by omega)]
    have ht := ih (i := i + 1) (fun x hx => hd x (by simp [hx])) fun k hk => by
      have := h (k + 1) (by simpa using hk)
      rw [List.getD_cons_succ] at this
      rwa [show i + 1 + k = i + (k + 1) by omega]
    rw [List.length_cons, digitList, readElem_eq_ok.2 h0, ok_bind, hn, if_neg (by omega), ht, ok_bind,
      Nat.add_sub_cancel_left]
    rfl

theorem digitList_eq_ok {id : MemId} {m : Mem 8} {count i : Nat} {ds : List Digit}
    (h : digitList id m count i = .ok ds) :
    ∃ cs : List Nat, cs.length = count ∧ (∀ c ∈ cs, c ≤ 9) ∧ ds = cs.map (BitVec.ofNat 4) ∧
      ∀ k < count, m.read (i + k) = some (BitVec.ofNat 8 (0x30 + cs.getD k 0)) := by
  induction count generalizing i ds with
  | zero =>
    simp only [digitList, Except.ok.injEq] at h
    exact ⟨[], rfl, by simp, h.symm, by simp⟩
  | succ count ih =>
    simp only [digitList, bind_eq_ok, readElem_eq_ok] at h
    obtain ⟨c, hc, h⟩ := h
    split at h
    · simp at h
    · rename_i hd
      simp only [bind_eq_ok, pure_eq_ok, Except.ok.injEq] at h
      obtain ⟨es, hes, rfl⟩ := h
      obtain ⟨cs, h1, h2, rfl, h3⟩ := ih hes
      refine ⟨(c.toNat - 0x30) :: cs, by simp [h1], fun x hx => ?_, rfl, fun k hk => ?_⟩
      · rcases List.mem_cons.1 hx with rfl | hx
        · omega
        · exact h2 x hx
      · cases k with
        | zero => rw [add_zero, hc, List.getD_cons_zero, ← digitChar hd]
        | succ k =>
          have := h3 k (by omega)
          rw [List.getD_cons_succ]
          rwa [show i + (k + 1) = i + 1 + k by omega]

theorem digitList_eq_error {id : MemId} {m : Mem 8} {count i : Nat} {e : Stop}
    (h : digitList id m count i = .error e) :
    (∃ k, m.read k = none ∧ e = .fault (.unwritten id k)) ∨ e = .raise .invalidDigit := by
  induction count generalizing i with
  | zero => simp [digitList] at h
  | succ count ih =>
    simp only [digitList, bind_eq_error, readElem_eq_error] at h
    rcases h with h | ⟨c, -, h⟩
    · exact .inl ⟨_, h⟩
    · split at h
      · exact .inr (by simpa [eq_comm] using h)
      · simp only [bind_eq_error, pure_eq_ok, reduceCtorEq, and_false, exists_false, or_false] at h
        exact ih h

/-- The first byte outside '0'..'9' is an error (R182). -/
theorem digitList_raises {id : MemId} {m : Mem 8} {count i j : Nat} {c : Byte} (hj : j < count)
    (h : ∀ k < j, ∃ e : Byte, m.read (i + k) = some e ∧ 0x30 ≤ e.toNat ∧ e.toNat ≤ 0x39)
    (hr : m.read (i + j) = some c) (hc : c.toNat < 0x30 ∨ 0x39 < c.toNat) :
    digitList id m count i = .error (.raise .invalidDigit) := by
  induction count generalizing i j with
  | zero => omega
  | succ count ih =>
    cases j with
    | zero =>
      rw [add_zero] at hr
      rw [digitList, readElem_eq_ok.2 hr, ok_bind, if_pos hc]
    | succ j =>
      obtain ⟨e, h1, h2, h3⟩ := h 0 (by omega)
      rw [add_zero] at h1
      have ht := ih (i := i + 1) (j := j) (by omega) (fun k hk => by
        have := h (k + 1) (by omega)
        rwa [show i + 1 + k = i + (k + 1) by omega]) (by rwa [show i + 1 + j = i + (j + 1) by omega])
      rw [digitList, readElem_eq_ok.2 h1, ok_bind, if_neg (by omega), ht, error_bind]

/-- What PARSE leaves for a numeral that spells `cs` (R180, R181). -/
abbrev State.parsed (s : State) (k : Numeral) (cs : List Nat) : State :=
  s.setDigits k ((s.digMem k).writeList 0 (cs.reverse.map (BitVec.ofNat 4))) (BitVec.ofNat 32 cs.length)

theorem digitCount_of_spells {s : State} {k : Numeral} {cs : List Nat} (h : s.spells k cs) :
    digitCount (inId k) (s.inMem k) (s.inLen k).toNat = .ok cs.length := by
  obtain ⟨h1, h2, h3, h4 | ⟨h4, h5⟩⟩ := h
  · obtain ⟨n, hn⟩ : ∃ n, cs.length = n + 1 := ⟨cs.length - 1, by omega⟩
    have hr := h3 n (by omega)
    have hc : cs.getD n 0 ≤ 9 := by
      have : cs.getD n 0 = cs[n] := by simp [hn]
      rw [this]; exact h2 _ (List.getElem_mem _)
    have hne : BitVec.ofNat 8 (0x30 + cs.getD n 0) ≠ 0x0A#8 := fun e => by
      have := congrArg BitVec.toNat e
      rw [BitVec.toNat_ofNat, BitVec.toNat_ofNat] at this
      omega
    rw [h4, hn, digitCount, readElem_eq_ok.2 hr, ok_bind, if_neg hne]; rfl
  · rw [h4, digitCount, readElem_eq_ok.2 h5, ok_bind, if_pos rfl]; rfl

theorem parseEffect_of_spells {s : State} {k : Numeral} {cs : List Nat} (h : s.spells k cs)
    (hl : cs.length ≤ s.cfg.digCap) : parseEffect k s = .ok (s.parsed k cs) := by
  have hb : ¬ s.cfg.inCap < (s.inLen k).toNat := by
    have : s.cfg.inCap = s.cfg.digCap + 1 := rfl
    obtain ⟨-, -, -, h4 | ⟨h4, -⟩⟩ := h <;> omega
  have hd := digitList_of_spelled (inId k) (m := s.inMem k) (i := 0) h.2.1 fun i hi => by
    rw [zero_add]; exact h.2.2.1 i hi
  rw [parseEffect, if_neg hb, digitCount_of_spells h, ok_bind, if_neg (by have := h.1; omega), if_neg (by omega), hd,
    ok_bind, ← List.map_reverse]
  rfl

/-- PARSE ends well only on a numeral that spells digits (R182). -/
theorem parseEffect_eq_ok {s t : State} {k : Numeral} (h : parseEffect k s = .ok t) :
    ∃ cs, s.spells k cs ∧ cs.length ≤ s.cfg.digCap ∧ t = s.parsed k cs := by
  unfold parseEffect at h
  simp only at h
  split at h
  · simp at h
  · simp only [bind_eq_ok] at h
    obtain ⟨len, hlen, h⟩ := h
    split at h
    · simp at h
    · split at h
      · simp at h
      · simp only [bind_eq_ok, pure_eq_ok, Except.ok.injEq] at h
        obtain ⟨ds, hds, rfl⟩ := h
        obtain ⟨cs, h1, h2, rfl, h3⟩ := digitList_eq_ok hds
        refine ⟨cs, ⟨by omega, h2, fun i hi => ?_, ?_⟩, by omega, ?_⟩
        · have := h3 i (by omega)
          rwa [zero_add] at this
        · rcases digitCount_eq_ok hlen with ⟨-, h⟩ | ⟨h, -⟩ | ⟨h, h'⟩
          · contradiction
          · left; omega
          · exact .inr ⟨by omega, by rw [h1]; exact h'⟩
        · rw [State.parsed, List.map_reverse, h1]

theorem parseEffect_eq_error {s : State} {k : Numeral} {e : Stop} (h : parseEffect k s = .error e) :
    (∃ i, (s.inMem k).read i = none ∧ e = .fault (.unwritten (inId k) i)) ∨ e = .raise .invalidDigit ∨
      e = .raise .unsupportedSize := by
  unfold parseEffect at h
  simp only at h
  split at h
  · exact .inr (.inr (by simpa [eq_comm] using h))
  · simp only [bind_eq_error] at h
    rcases h with h | ⟨len, -, h⟩
    · exact .inl (digitCount_eq_error h)
    · split at h
      · exact .inr (.inl (by simpa [eq_comm] using h))
      · split at h
        · exact .inr (.inr (by simpa [eq_comm] using h))
        · simp only [bind_eq_error, pure_eq_ok, reduceCtorEq, and_false, exists_false, or_false] at h
          rcases digitList_eq_error h with h | h
          · exact .inl h
          · exact .inr (.inl h)

/-- Digits that two descriptions of one numeral give are the same. -/
theorem spells_unique {s : State} {k : Numeral} {cs ds : List Nat} (hc : s.spells k cs) (hd : s.spells k ds) :
    cs = ds := by
  have hlen : cs.length = ds.length := by
    have := (digitCount_of_spells hc).symm.trans (digitCount_of_spells hd)
    simpa using this
  refine List.ext_getElem hlen fun i h1 h2 => ?_
  have e := (hc.2.2.1 i h1).symm.trans (hd.2.2.1 i h2)
  have e := congrArg BitVec.toNat (Option.some.inj e)
  have b1 := hc.2.1 _ (List.getElem_mem h1)
  have b2 := hd.2.1 _ (List.getElem_mem h2)
  simp only [List.getD_eq_getElem?_getD, List.getElem?_eq_getElem, h1, h2, Option.getD_some, BitVec.toNat_ofNat] at e
  omega

/-! ### RENDER -/

theorem resultDigits_of_digits {m : Mem 4} {n : Nat} {f : Nat → Nat} (h : m.digits n f) :
    resultDigits m n = .ok (((List.range n).map f).reverse.map (BitVec.ofNat 4)) := by
  induction n with
  | zero => rfl
  | succ n ih =>
    rw [resultDigits, readElem_eq_ok.2 (h n (by omega)).2, ok_bind, ih fun i hi => h i (by omega), ok_bind,
      List.range_succ]
    simp

theorem resultDigits_length {m : Mem 4} {n : Nat} {ds : List Digit} (h : resultDigits m n = .ok ds) : ds.length = n := by
  induction n generalizing ds with
  | zero => simp only [resultDigits, Except.ok.injEq] at h; subst h; rfl
  | succ n ih =>
    simp only [resultDigits, bind_eq_ok, pure_eq_ok, Except.ok.injEq] at h
    obtain ⟨d, -, es, hes, rfl⟩ := h
    simp [ih hes]

theorem resultDigits_eq_error {m : Mem 4} {n : Nat} {e : Stop} (h : resultDigits m n = .error e) :
    ∃ k, m.read k = none ∧ e = .fault (.unwritten .res k) := by
  induction n with
  | zero => simp [resultDigits] at h
  | succ n ih =>
    simp only [resultDigits, bind_eq_error, pure_eq_ok, reduceCtorEq, and_false, exists_false, or_false,
      readElem_eq_error] at h
    rcases h with h | ⟨d, -, h⟩
    · exact ⟨_, h⟩
    · exact ih h

theorem renderString_length (ds : List Digit) : (renderString ds).length ≤ max ds.length 1 + 1 := by
  unfold renderString
  have := (List.dropWhile_sublist (fun d : Digit => d == 0) (l := ds)).length_le
  split
  · simp
  · rename_i e es h
    rw [h] at this
    simp at this ⊢; omega

/-- RENDER of result digits: the decimal line of their value (R185, R186). -/
theorem renderEffect_of_digits {s : State} {f : Nat → Nat} (h : s.res.digits s.resLen.toNat f) :
    renderEffect s = .ok { s with
      out := s.out.writeList 0 (decimalLine (weighted s.resLen.toNat f))
      outLen := BitVec.ofNat 32 (decimalLine (weighted s.resLen.toNat f)).length } := by
  have hd : AllDigit ((List.range s.resLen.toNat).map f) := fun d hd => by
    simp only [List.mem_map, List.mem_range] at hd
    obtain ⟨i, hi, rfl⟩ := hd
    have := (h i hi).1
    omega
  simp only [renderEffect, resultDigits_of_digits h, ok_bind, renderString_eq _ hd, ← weighted_eq_ofDigits, pure_eq_ok]

theorem renderEffect_eq_ok {s t : State} (h : renderEffect s = .ok t) :
    ∃ bs : List Byte, bs.length ≤ max s.resLen.toNat 1 + 1 ∧
      t = { s with out := s.out.writeList 0 bs, outLen := BitVec.ofNat 32 bs.length } := by
  simp only [renderEffect, bind_eq_ok, pure_eq_ok, Except.ok.injEq] at h
  obtain ⟨ds, hds, rfl⟩ := h
  exact ⟨_, by have := renderString_length ds; rwa [resultDigits_length hds] at this, rfl⟩

theorem renderEffect_eq_error {s : State} {e : Stop} (h : renderEffect s = .error e) :
    ∃ k, s.res.read k = none ∧ e = .fault (.unwritten .res k) := by
  simp only [renderEffect, bind_eq_error, pure_eq_ok, reduceCtorEq, and_false, exists_false, or_false] at h
  exact resultDigits_eq_error h

/-! ### CONV's shape -/

theorem convEffect_eq_ok {s t : State} (h : convEffect s = .ok t) :
    s.lenA.toNat + s.lenB.toNat ≤ s.cfg.nMax ∧ 81 * min s.lenA.toNat s.lenB.toNat < modulus ∧
      t = { s with logn := t.logn, bufA := t.bufA, bufB := t.bufB, bufC := t.bufC } := by
  simp only [convEffect, bind_eq_ok] at h
  obtain ⟨s1, h1, s2, h2, s3, h3, s4, h4, h5⟩ := h
  obtain ⟨hs, hm, va, vb, -, -, -, -, rfl⟩ := padEffect_eq_ok h1
  obtain ⟨_, _, -, -, rfl⟩ := nttEffect_eq_ok h2
  obtain ⟨_, _, -, -, rfl⟩ := nttEffect_eq_ok h3
  obtain ⟨_, -, rfl⟩ := pmulEffect_eq_ok h4
  obtain ⟨_, _, -, -, rfl⟩ := nttEffect_eq_ok h5
  exact ⟨hs, hm, rfl⟩

/-! ### MULT -/

/-- The digits PARSE leaves, as the digit vector of R181. -/
theorem parsed_digits (m : Mem 4) {cs : List Nat} (hd : ∀ c ∈ cs, c ≤ 9) :
    (m.writeList 0 (cs.reverse.map (BitVec.ofNat 4))).digits cs.length (cs.reverse.getD · 0) := by
  have := Mem.digits_writeList m (ds := cs.reverse) fun d h => by
    have := hd d (by simpa using h)
    omega
  rwa [List.length_reverse] at this

theorem weighted_reverse (cs : List Nat) : weighted cs.length (cs.reverse.getD · 0) = numeralValue cs := by
  have := weighted_getD cs.reverse
  rwa [List.length_reverse] at this

theorem numeralValue_lt {cs : List Nat} (hd : ∀ c ∈ cs, c ≤ 9) : numeralValue cs < 10 ^ cs.length := by
  have := ofDigits_lt (ds := cs.reverse) fun d h => by
    have := hd d (by simpa using h)
    omega
  rwa [List.length_reverse] at this

/-- MULT of two numerals within the bounds: OUT gets the decimal line of the product (R271). -/
theorem multEffect_of_spells {s : State} {cs ds : List Nat} (hc : s.spells .A cs) (hd : s.spells .B ds)
    (hn : cs.length + ds.length ≤ s.cfg.nMax) (hm : 81 * min cs.length ds.length < modulus) :
    ∃ t, multEffect s = .ok t ∧ t = { s with
      digA := t.digA, digB := t.digB, lenA := t.lenA, lenB := t.lenB, logn := t.logn, bufA := t.bufA, bufB := t.bufB,
      bufC := t.bufC, res := t.res, resLen := t.resLen,
      out := s.out.writeList 0 (decimalLine (numeralValue cs * numeralValue ds)),
      outLen := BitVec.ofNat 32 (decimalLine (numeralValue cs * numeralValue ds)).length } := by
  have hmax := nMax_le s.cfg
  have hl : ∀ n, n ≤ s.cfg.nMax → (BitVec.ofNat 32 n).toNat = n := fun n h => by
    rw [BitVec.toNat_ofNat, Nat.mod_eq_of_lt (by omega)]
  have hla := hl cs.length (by omega)
  have hlb := hl ds.length (by omega)
  have p1 := parseEffect_of_spells hc (by show _ ≤ s.cfg.nMax; omega)
  have p2 := parseEffect_of_spells (s := s.parsed .A cs) (k := .B) hd (by show _ ≤ s.cfg.nMax; omega)
  obtain ⟨ma, mb, mc, p3, hmc⟩ := convEffect_of_digits (s := (s.parsed .A cs).parsed .B ds)
    (f := (cs.reverse.getD · 0)) (g := (ds.reverse.getD · 0))
    (by show (BitVec.ofNat 32 cs.length).toNat + (BitVec.ofNat 32 ds.length).toNat ≤ s.cfg.nMax; rw [hla, hlb]; exact hn)
    (by show 81 * min (BitVec.ofNat 32 cs.length).toNat (BitVec.ofNat 32 ds.length).toNat < modulus
        rw [hla, hlb]; exact hm)
    (by show Mem.digits _ (BitVec.ofNat 32 cs.length).toNat _; rw [hla]; exact parsed_digits _ hc.2.1)
    (by show Mem.digits _ (BitVec.ofNat 32 ds.length).toNat _; rw [hlb]; exact parsed_digits _ hd.2.1)
  change (_ : Except Stop State) = .ok { (s.parsed .A cs).parsed .B ds with
    logn := BitVec.ofNat 5 (Nat.clog 2 ((BitVec.ofNat 32 cs.length).toNat + (BitVec.ofNat 32 ds.length).toNat)),
    bufA := ma, bufB := mb, bufC := mc } at p3
  change mc.fields (2 ^ Nat.clog 2 ((BitVec.ofNat 32 cs.length).toNat + (BitVec.ofNat 32 ds.length).toNat))
    (coefficient (BitVec.ofNat 32 cs.length).toNat (BitVec.ofNat 32 ds.length).toNat (cs.reverse.getD · 0)
      (ds.reverse.getD · 0)) at hmc
  rw [hla, hlb] at p3 hmc
  have hlog := toNat_lognOf hn
  have hpow : 2 ^ Nat.clog 2 (cs.length + ds.length) ≤ s.cfg.nMax :=
    Nat.pow_le_pow_right (by decide) (clog_le_lognMax.2 hn)
  have hab : cs.length + ds.length ≤ 2 ^ Nat.clog 2 (cs.length + ds.length) := Nat.le_pow_clog (by decide) _
  have hval : weighted (2 ^ Nat.clog 2 (cs.length + ds.length)) (coefficient cs.length ds.length (cs.reverse.getD · 0)
      (ds.reverse.getD · 0)) = numeralValue cs * numeralValue ds := by
    rw [weighted_coefficient hab, weighted_reverse, weighted_reverse]
  generalize hbits : Nat.clog 2 (cs.length + ds.length) = bits at *
  have hsz : ({ (s.parsed .A cs).parsed .B ds with
      logn := BitVec.ofNat 5 bits, bufA := ma, bufB := mb, bufC := mc } : State).size = 2 ^ bits := by
    rw [State.size]; exact congrArg _ hlog
  have hcap : s.cfg.resCap = s.cfg.nMax + 1 := rfl
  have hprod : numeralValue cs * numeralValue ds < 10 ^ s.cfg.resCap := by
    refine lt_of_lt_of_le (Nat.mul_lt_mul'' (numeralValue_lt hc.2.1) (numeralValue_lt hd.2.1)) ?_
    rw [← pow_add]
    exact Nat.pow_le_pow_right (by decide) (by omega)
  obtain ⟨rs, r1, r2, r3, p4⟩ := (carryEffect_of_fields (b := .C) (s := { (s.parsed .A cs).parsed .B ds with
      logn := BitVec.ofNat 5 bits, bufA := ma, bufB := mb, bufC := mc }) (by rw [hsz]; show _ ≤ s.cfg.resCap; omega)
      (by rw [hsz]; exact hmc)).1 (by rw [hsz, hval]; exact hprod)
  rw [hsz, hval] at r2 r3
  have hrl : (BitVec.ofNat 32 rs.length).toNat = rs.length := by
    rw [BitVec.toNat_ofNat, Nat.mod_eq_of_lt]
    have := Nat.digits_length_le_iff (b := 10) (by decide) _ (k := s.cfg.resCap) |>.2 hprod
    omega
  have p5 := renderEffect_of_digits (s := { (s.parsed .A cs).parsed .B ds with
      logn := BitVec.ofNat 5 bits, bufA := ma, bufB := mb, bufC := mc
      res := s.res.writeList 0 (rs.map (BitVec.ofNat 4)), resLen := BitVec.ofNat 32 rs.length })
    (f := (rs.getD · 0)) (by
      show Mem.digits _ (BitVec.ofNat 32 rs.length).toNat _
      rw [hrl]; exact Mem.digits_writeList _ r1)
  change (_ : Except Stop State) = .ok { (s.parsed .A cs).parsed .B ds with
    logn := BitVec.ofNat 5 bits, bufA := ma, bufB := mb, bufC := mc
    res := s.res.writeList 0 (rs.map (BitVec.ofNat 4)), resLen := BitVec.ofNat 32 rs.length
    out := s.out.writeList 0 (decimalLine (weighted (BitVec.ofNat 32 rs.length).toNat (rs.getD · 0)))
    outLen := BitVec.ofNat 32 (decimalLine (weighted (BitVec.ofNat 32 rs.length).toNat (rs.getD · 0))).length } at p5
  rw [hrl, weighted_getD, r2] at p5
  refine ⟨_, Eq.trans ?_ p5, rfl⟩
  rw [multEffect, p1, ok_bind, p2, ok_bind, p3, ok_bind, p4, ok_bind]
  rfl

/-- MULT ends well only on two numerals within the bounds (R272). -/
theorem multEffect_eq_ok {s t : State} (h : multEffect s = .ok t) :
    ∃ cs ds, s.spells .A cs ∧ s.spells .B ds ∧ cs.length ≤ s.cfg.digCap ∧ ds.length ≤ s.cfg.digCap ∧
      cs.length + ds.length ≤ s.cfg.nMax ∧ 81 * min cs.length ds.length < modulus := by
  simp only [multEffect, bind_eq_ok] at h
  obtain ⟨s1, h1, s2, h2, s3, h3, -⟩ := h
  obtain ⟨cs, hc, hcl, rfl⟩ := parseEffect_eq_ok h1
  obtain ⟨ds, hd, hdl, rfl⟩ := parseEffect_eq_ok h2
  obtain ⟨hs, hm, -⟩ := convEffect_eq_ok h3
  have hmax := nMax_le s.cfg
  have hl : ∀ n, n ≤ s.cfg.nMax → (BitVec.ofNat 32 n).toNat = n := fun n h => by
    rw [BitVec.toNat_ofNat, Nat.mod_eq_of_lt (by omega)]
  change (BitVec.ofNat 32 cs.length).toNat + (BitVec.ofNat 32 ds.length).toNat ≤ s.cfg.nMax at hs
  change 81 * min (BitVec.ofNat 32 cs.length).toNat (BitVec.ofNat 32 ds.length).toNat < modulus at hm
  change ds.length ≤ s.cfg.nMax at hdl
  rw [hl _ hcl, hl _ hdl] at hs hm
  exact ⟨cs, ds, hc, hd, hcl, hdl, hs, hm⟩

end Sys2Proof.Machine
end

