-- ==== Sys2Proof/Laws/Commands.lean ====
section
/-!
SUPPORT. What a command can do, said once over all commands: its effect, the frame of the effect (spec/10_state.md R47), the
ways it can stop (spec/60_exceptions.md R300, R302), and that the BUSY bit plays no part in it.
-/

namespace Sys2Proof.Machine

open Sys2Proof

/-- The effect of each command, before `finish` clears BUSY. -/
def effect : Instr → State → Except Stop State
  | .nop, s => .ok s
  | .ldi ra imm, s => .ok (s.setReg ra (immOperand imm))
  | .ldw ra rb bs, s => ldwEffect ra rb bs s
  | .stw ra rb bs, s => stwEffect ra rb bs s
  | .madd ra rb rc, s => binaryField addMod ra rb rc s
  | .msub ra rb rc, s => binaryField subMod ra rb rc s
  | .mmul ra rb rc, s => binaryField mulMod ra rb rc s
  | .mpow ra rb rc, s => mpowEffect ra rb rc s
  | .minv ra rb, s => minvEffect ra rb s
  | .mred ra rb, s => .ok (s.setReg ra (fieldWord (modReduce (s.reg rb).toNat)))
  | .bfly ra rb rc, s => bflyEffect ra rb rc s
  | .rootw ra rb d, s => rootwEffect ra rb d s
  | .twid ra rb rc d, s => twidEffect ra rb rc d s
  | .bitrev b, s => bitrevEffect b s
  | .ntt b d, s => nttEffect b d s
  | .setn ra, s => setnEffect ra s
  | .pad, s => padEffect s
  | .pmul b0 b1 b2, s => pmulEffect b0 b1 b2 s
  | .conv, s => convEffect s
  | .carry b, s => carryEffect b s
  | .parse k, s => parseEffect k s
  | .render, s => renderEffect s
  | .mult, s => multEffect s

theorem exec_eq (i : Instr) (s : State) : exec i s = finish s (effect i s) := by cases i <;> rfl

/-! ### When a register command ends well -/

theorem ldwEffect_eq_ok {ra rb : Reg} {bs : Buf} {s t : State} : ldwEffect ra rb bs s = .ok t ↔
    (s.reg rb).toNat < s.cfg.nMax ∧ ∃ v, (s.buf bs).read (s.reg rb).toNat = some v ∧ t = s.setReg ra (v.setWidth 64) := by
  simp only [ldwEffect, bind_eq_ok, indexOperand_eq_ok, readElem_eq_ok, pure_eq_ok, Except.ok.injEq]
  constructor
  · rintro ⟨_, ⟨h, rfl⟩, v, hv, rfl⟩; exact ⟨h, v, hv, rfl⟩
  · rintro ⟨h, v, hv, rfl⟩; exact ⟨_, ⟨h, rfl⟩, v, hv, rfl⟩

theorem stwEffect_eq_ok {ra rb : Reg} {bs : Buf} {s t : State} : stwEffect ra rb bs s = .ok t ↔
    (s.reg rb).toNat < s.cfg.nMax ∧ (s.reg ra).toNat < modulus ∧
      t = s.setBuf bs ((s.buf bs).write (s.reg rb).toNat (bufWord (s.reg ra).toNat)) := by
  simp only [stwEffect, bind_eq_ok, indexOperand_eq_ok, fieldOperand_eq_ok, pure_eq_ok, Except.ok.injEq]
  constructor
  · rintro ⟨_, ⟨h, rfl⟩, _, ⟨h', rfl⟩, rfl⟩; exact ⟨h, h', rfl⟩
  · rintro ⟨h, h', rfl⟩; exact ⟨_, ⟨h, rfl⟩, _, ⟨h', rfl⟩, rfl⟩

theorem binaryField_eq_ok {f : Nat → Nat → Nat} {ra rb rc : Reg} {s t : State} : binaryField f ra rb rc s = .ok t ↔
    (s.reg rb).toNat < modulus ∧ (s.reg rc).toNat < modulus ∧
      t = s.setReg ra (fieldWord (f (s.reg rb).toNat (s.reg rc).toNat)) := by
  simp only [binaryField, bind_eq_ok, fieldOperand_eq_ok, pure_eq_ok, Except.ok.injEq]
  constructor
  · rintro ⟨_, ⟨h, rfl⟩, _, ⟨h', rfl⟩, rfl⟩; exact ⟨h, h', rfl⟩
  · rintro ⟨h, h', rfl⟩; exact ⟨_, ⟨h, rfl⟩, _, ⟨h', rfl⟩, rfl⟩

theorem mpowEffect_eq_ok {ra rb rc : Reg} {s t : State} : mpowEffect ra rb rc s = .ok t ↔
    (s.reg rb).toNat < modulus ∧ t = s.setReg ra (fieldWord (powMod (s.reg rb).toNat (s.reg rc).toNat)) := by
  simp only [mpowEffect, bind_eq_ok, fieldOperand_eq_ok, pure_eq_ok, Except.ok.injEq]
  constructor
  · rintro ⟨_, ⟨h, rfl⟩, rfl⟩; exact ⟨h, rfl⟩
  · rintro ⟨h, rfl⟩; exact ⟨_, ⟨h, rfl⟩, rfl⟩

theorem minvEffect_eq_ok {ra rb : Reg} {s t : State} : minvEffect ra rb s = .ok t ↔
    (s.reg rb).toNat < modulus ∧ t = s.setReg ra (fieldWord (invMod (s.reg rb).toNat)) := by
  simp only [minvEffect, bind_eq_ok, fieldOperand_eq_ok, pure_eq_ok, Except.ok.injEq]
  constructor
  · rintro ⟨_, ⟨h, rfl⟩, rfl⟩; exact ⟨h, rfl⟩
  · rintro ⟨h, rfl⟩; exact ⟨_, ⟨h, rfl⟩, rfl⟩

theorem bflyEffect_eq_ok {ra rb rc : Reg} {s t : State} : bflyEffect ra rb rc s = .ok t ↔
    (s.reg ra).toNat < modulus ∧ (s.reg rb).toNat < modulus ∧ (s.reg rc).toNat < modulus ∧
      t = (s.setReg ra (fieldWord (addMod (s.reg ra).toNat (mulMod (s.reg rb).toNat (s.reg rc).toNat)))).setReg rb
        (fieldWord (subMod (s.reg ra).toNat (mulMod (s.reg rb).toNat (s.reg rc).toNat))) := by
  simp only [bflyEffect, bind_eq_ok, fieldOperand_eq_ok, pure_eq_ok, Except.ok.injEq]
  constructor
  · rintro ⟨_, ⟨h, rfl⟩, _, ⟨h', rfl⟩, _, ⟨h'', rfl⟩, rfl⟩; exact ⟨h, h', h'', rfl⟩
  · rintro ⟨h, h', h'', rfl⟩; exact ⟨_, ⟨h, rfl⟩, _, ⟨h', rfl⟩, _, ⟨h'', rfl⟩, rfl⟩

theorem rootwEffect_eq_ok {ra rb : Reg} {d : Dir} {s t : State} : rootwEffect ra rb d s = .ok t ↔
    (s.reg rb).toNat ≤ s.cfg.lognMax ∧ t = s.setReg ra (fieldWord (twiddleRom s.cfg d (s.reg rb).toNat)) := by
  simp only [rootwEffect, bind_eq_ok, stageOperand_eq_ok, pure_eq_ok, Except.ok.injEq]
  constructor
  · rintro ⟨_, ⟨h, rfl⟩, rfl⟩; exact ⟨h, rfl⟩
  · rintro ⟨h, rfl⟩; exact ⟨_, ⟨h, rfl⟩, rfl⟩

theorem twidEffect_eq_ok {ra rb rc : Reg} {d : Dir} {s t : State} : twidEffect ra rb rc d s = .ok t ↔
    (s.reg rb).toNat ≤ s.cfg.lognMax ∧
      t = s.setReg ra (fieldWord (powMod (twiddleRom s.cfg d (s.reg rb).toNat) (s.reg rc).toNat)) := by
  simp only [twidEffect, bind_eq_ok, stageOperand_eq_ok, pure_eq_ok, Except.ok.injEq]
  constructor
  · rintro ⟨_, ⟨h, rfl⟩, rfl⟩; exact ⟨h, rfl⟩
  · rintro ⟨h, rfl⟩; exact ⟨_, ⟨h, rfl⟩, rfl⟩

theorem bitrevEffect_eq_ok {b : Buf} {s t : State} : bitrevEffect b s = .ok t ↔
    ∃ m, bitRevLoop (bufId b) s.logn.toNat s.size 0 (s.buf b) = .ok m ∧ t = s.setBuf b m := by
  simp only [bitrevEffect, bind_eq_ok, pure_eq_ok, Except.ok.injEq]
  exact ⟨fun ⟨m, h, e⟩ => ⟨m, h, e.symm⟩, fun ⟨m, h, e⟩ => ⟨m, h, e.symm⟩⟩

theorem setnEffect_eq_ok {ra : Reg} {s t : State} : setnEffect ra s = .ok t ↔
    (s.reg ra).toNat ≤ s.cfg.nMax ∧ t = { s with logn := BitVec.ofNat 5 (Nat.clog 2 (s.reg ra).toNat) } := by
  have h64 : (s.reg ra).toNat ≤ 2 ^ 64 := (s.reg ra).isLt.le
  simp only [setnEffect, log2Up_eq h64]
  split
  · simp; omega
  · simp only [Except.ok.injEq]
    exact ⟨fun h => ⟨by omega, h.symm⟩, fun h => h.2.symm⟩

/-! ### The pipeline's stops -/

/-- Once PAD has ended well, CONV ends well: no later step can meet an unwritten or unreduced entry (R235). -/
theorem convEffect_of_pad {s p : State} (h : padEffect s = .ok p) : ∃ t, convEffect s = .ok t := by
  obtain ⟨hs, -, va, vb, hva, hvb, ha, hb, rfl⟩ := padEffect_eq_ok h
  have hl := toNat_lognOf hs
  have h27 : Nat.clog 2 (s.lenA.toNat + s.lenB.toNat) ≤ 27 := le_trans (clog_le_lognMax.2 hs) s.cfg.le_27
  have hfields : ∀ (m : Mem 32) (vs : List Word), (∀ k (h : k < vs.length), vs[k].toNat < 16) →
      (m.writeList 0 vs).fields vs.length fun i => (vs.getD i 0).toNat := fun m vs hv i hi => by
    have e : vs.getD i 0 = vs[i] := by simp [hi]
    rw [Mem.read_writeList, if_pos (by simpa using hi)]
    refine ⟨?_, ?_⟩
    · show (vs.getD i 0).toNat < modulus
      rw [e]; exact lt_trans (hv i hi) (by decide)
    · show _ = some (BitVec.ofNat 32 (vs.getD i 0).toNat)
      rw [e]; simp [hi]
  have fa := hfields s.bufA va ha
  have fb := hfields s.bufB vb hb
  rw [hva] at fa
  rw [hvb] at fb
  generalize Nat.clog 2 (s.lenA.toNat + s.lenB.toNat) = bits at *
  have hsz : ∀ t : State, t.logn = BitVec.ofNat 5 bits → t.logn.toNat = bits ∧ t.size = 2 ^ bits := fun t ht => by
    rw [State.size, ht, hl]; exact ⟨rfl, rfl⟩
  obtain ⟨ma, ha1, ha2, -⟩ := nttEffect_of_fields (b := .A) (d := .fwd)
    (s := { s with logn := BitVec.ofNat 5 bits, bufA := s.bufA.writeList 0 va, bufB := s.bufB.writeList 0 vb })
    (by rw [(hsz _ rfl).1]; exact h27) (by rw [(hsz _ rfl).2]; exact fa)
  obtain ⟨mb, hb1, hb2, -⟩ := nttEffect_of_fields (b := .B) (d := .fwd)
    (s := { s with logn := BitVec.ofNat 5 bits, bufA := ma, bufB := s.bufB.writeList 0 vb })
    (by rw [(hsz _ rfl).1]; exact h27) (by rw [(hsz _ rfl).2]; exact fb)
  rw [(hsz _ rfl).1, (hsz _ rfl).2] at ha2 hb2
  obtain ⟨mc, hc1, hc2, -⟩ := pmulEffect_of_fields (bd := .C) (bx := .A) (bY := .B)
    (s := { s with logn := BitVec.ofNat 5 bits, bufA := ma, bufB := mb })
    (by rw [(hsz _ rfl).2]; exact ha2) (by rw [(hsz _ rfl).2]; exact hb2)
  rw [(hsz _ rfl).2] at hc2
  obtain ⟨mc', hd1, -⟩ := nttEffect_of_fields (b := .C) (d := .inv)
    (s := { s with logn := BitVec.ofNat 5 bits, bufA := ma, bufB := mb, bufC := mc })
    (by rw [(hsz _ rfl).1]; exact h27) (by rw [(hsz _ rfl).2]; exact hc2)
  refine ⟨_, Eq.trans ?_ hd1⟩
  rw [convEffect, h, ok_bind, ha1, ok_bind]
  change (nttEffect .B .fwd { s with
    logn := BitVec.ofNat 5 bits, bufA := ma, bufB := s.bufB.writeList 0 vb } >>= _) = _
  rw [hb1, ok_bind]
  change (pmulEffect .C .A .B { s with logn := BitVec.ofNat 5 bits, bufA := ma, bufB := mb } >>= _) = _
  rw [hc1, ok_bind]
  rfl

theorem convEffect_eq_error {s : State} {e : Stop} (h : convEffect s = .error e) : padEffect s = .error e := by
  cases hp : padEffect s with
  | error e' => simpa [convEffect, hp] using h
  | ok p =>
    obtain ⟨t, ht⟩ := convEffect_of_pad hp
    simp [ht] at h

/-- MULT stops where a PARSE stops, or on the sizes (R270, R272). -/
theorem multEffect_eq_error {s : State} {e : Stop} (h : multEffect s = .error e) :
    parseEffect .A s = .error e ∨ (∃ cs, s.spells .A cs ∧ parseEffect .B (s.parsed .A cs) = .error e) ∨
      e = .raise .unsupportedSize := by
  cases h1 : parseEffect .A s with
  | error e' => left; simpa [multEffect, h1] using h
  | ok s1 =>
    obtain ⟨cs, hc, hcl, rfl⟩ := parseEffect_eq_ok h1
    cases h2 : parseEffect .B (s.parsed .A cs) with
    | error e' => right; left; exact ⟨cs, hc, by simpa [multEffect, h1, h2] using h⟩
    | ok s2 =>
      obtain ⟨ds, hd, hdl, rfl⟩ := parseEffect_eq_ok h2
      change s.spells .B ds at hd
      change ds.length ≤ s.cfg.nMax at hdl
      change cs.length ≤ s.cfg.nMax at hcl
      have hmax := nMax_le s.cfg
      have hl : ∀ n, n ≤ s.cfg.nMax → (BitVec.ofNat 32 n).toNat = n := fun n h => by
        rw [BitVec.toNat_ofNat, Nat.mod_eq_of_lt (by omega)]
      by_cases hok : cs.length + ds.length ≤ s.cfg.nMax ∧ 81 * min cs.length ds.length < modulus
      · obtain ⟨t, ht, -⟩ := multEffect_of_spells hc hd hok.1 hok.2
        simp [ht] at h
      · right; right
        have hpad : padEffect ((s.parsed .A cs).parsed .B ds) = .error (.raise .unsupportedSize) := by
          rw [padEffect_eq, if_pos]
          show s.cfg.nMax < (BitVec.ofNat 32 cs.length).toNat + (BitVec.ofNat 32 ds.length).toNat ∨
            modulus ≤ 81 * min (BitVec.ofNat 32 cs.length).toNat (BitVec.ofNat 32 ds.length).toNat
          rw [hl _ hcl, hl _ hdl]; omega
        simp only [multEffect, h1, h2, ok_bind, convEffect, hpad, error_bind, Except.error.injEq] at h
        exact h.symm

/-! ### The frame -/

/-- The fields of the state no command writes (R47). -/
structure State.SameFixed (s t : State) : Prop where
  cfg : t.cfg = s.cfg
  err : t.err = s.err
  errOp : t.errOp = s.errOp
  ovr : t.ovr = s.ovr
  cmdLast : t.cmdLast = s.cmdLast
  pend : t.pend = s.pend
  inLenA : t.inLenA = s.inLenA
  inLenB : t.inLenB = s.inLenB
  inA : t.inA = s.inA
  inB : t.inB = s.inB
  todo : t.todo = s.todo
  replies : t.replies = s.replies

theorem State.sameFixed_setBuf (s : State) (b : Buf) (m : Mem 32) : s.SameFixed (s.setBuf b m) := by
  cases b <;> constructor <;> rfl

theorem State.agrees_setBuf (s : State) (b : Buf) (m : Mem 32) (p : Part) (h : p ≠ .buffers) :
    s.agrees (s.setBuf b m) p := by
  cases b <;> cases p <;> simp_all [State.agrees, State.setBuf]

theorem State.sameFixed_parsed (s : State) (k : Numeral) (cs : List Nat) : s.SameFixed (s.parsed k cs) := by
  cases k <;> constructor <;> rfl

theorem State.agrees_parsed (s : State) (k : Numeral) (cs : List Nat) (p : Part) (h : p ≠ .digits) :
    s.agrees (s.parsed k cs) p := by
  cases k <;> cases p <;> simp_all [State.agrees, State.setDigits]

theorem State.agrees_setReg (s : State) (r : Reg) (v : XReg) (p : Part) (h : p ≠ .registers) :
    s.agrees (s.setReg r v) p := by
  cases p <;> simp_all [State.agrees]

theorem multEffect_frame {s t : State} (h : multEffect s = .ok t) : s.SameFixed t ∧ t.x = s.x := by
  obtain ⟨cs, ds, hc, hd, -, -, hn, hm⟩ := multEffect_eq_ok h
  obtain ⟨t', ht', e⟩ := multEffect_of_spells hc hd hn hm
  obtain rfl : t' = t := by simpa [ht'] using h
  rw [e]
  exact ⟨⟨rfl, rfl, rfl, rfl, rfl, rfl, rfl, rfl, rfl, rfl, rfl, rfl⟩, rfl⟩

/-- What a command that ends well leaves unchanged: everything outside the parts R47 lets it write. -/
theorem effect_frame {i : Instr} {s t : State} (h : effect i s = .ok t) :
    s.SameFixed t ∧ ∀ p : Part, mayWrite i p = false → s.agrees t p := by
  have hreg : ∀ (r : Reg) (v : XReg) (i : Instr), (∀ p, mayWrite i p = (p == .registers)) → t = s.setReg r v →
      s.SameFixed t ∧ ∀ p : Part, mayWrite i p = false → s.agrees t p := by
    rintro r v i hi rfl
    refine ⟨⟨rfl, rfl, rfl, rfl, rfl, rfl, rfl, rfl, rfl, rfl, rfl, rfl⟩, fun p hp => s.agrees_setReg r v p ?_⟩
    rintro rfl
    simp [hi] at hp
  have hbuf : ∀ (b : Buf) (m : Mem 32) (i : Instr), (∀ p, mayWrite i p = (p == .buffers)) → t = s.setBuf b m →
      s.SameFixed t ∧ ∀ p : Part, mayWrite i p = false → s.agrees t p := by
    rintro b m i hi rfl
    refine ⟨s.sameFixed_setBuf b m, fun p hp => s.agrees_setBuf b m p ?_⟩
    rintro rfl
    simp [hi] at hp
  cases i with
  | nop =>
    simp only [effect, Except.ok.injEq] at h
    subst h
    exact ⟨⟨rfl, rfl, rfl, rfl, rfl, rfl, rfl, rfl, rfl, rfl, rfl, rfl⟩, fun p _ => by cases p <;> simp [State.agrees]⟩
  | ldi ra imm => exact hreg _ _ _ (fun _ => rfl) (Except.ok.inj h).symm
  | ldw ra rb bs => obtain ⟨-, v, -, h⟩ := ldwEffect_eq_ok.1 h; exact hreg _ _ _ (fun _ => rfl) h
  | stw ra rb bs => obtain ⟨-, -, h⟩ := stwEffect_eq_ok.1 h; exact hbuf _ _ _ (fun _ => rfl) h
  | madd ra rb rc => obtain ⟨-, -, h⟩ := binaryField_eq_ok.1 h; exact hreg _ _ _ (fun _ => rfl) h
  | msub ra rb rc => obtain ⟨-, -, h⟩ := binaryField_eq_ok.1 h; exact hreg _ _ _ (fun _ => rfl) h
  | mmul ra rb rc => obtain ⟨-, -, h⟩ := binaryField_eq_ok.1 h; exact hreg _ _ _ (fun _ => rfl) h
  | mpow ra rb rc => obtain ⟨-, h⟩ := mpowEffect_eq_ok.1 h; exact hreg _ _ _ (fun _ => rfl) h
  | minv ra rb => obtain ⟨-, h⟩ := minvEffect_eq_ok.1 h; exact hreg _ _ _ (fun _ => rfl) h
  | mred ra rb => exact hreg _ _ _ (fun _ => rfl) (Except.ok.inj h).symm
  | bfly ra rb rc =>
    obtain ⟨-, -, -, rfl⟩ := bflyEffect_eq_ok.1 h
    exact ⟨⟨rfl, rfl, rfl, rfl, rfl, rfl, rfl, rfl, rfl, rfl, rfl, rfl⟩,
      fun p hp => by cases p <;> simp [State.agrees, mayWrite] at hp ⊢⟩
  | rootw ra rb d => obtain ⟨-, h⟩ := rootwEffect_eq_ok.1 h; exact hreg _ _ _ (fun _ => rfl) h
  | twid ra rb rc d => obtain ⟨-, h⟩ := twidEffect_eq_ok.1 h; exact hreg _ _ _ (fun _ => rfl) h
  | bitrev b => obtain ⟨m, -, h⟩ := bitrevEffect_eq_ok.1 h; exact hbuf _ _ _ (fun _ => rfl) h
  | ntt b d => obtain ⟨m, ys, -, -, h⟩ := nttEffect_eq_ok h; exact hbuf _ _ _ (fun _ => rfl) h
  | setn ra =>
    obtain ⟨-, rfl⟩ := setnEffect_eq_ok.1 h
    exact ⟨⟨rfl, rfl, rfl, rfl, rfl, rfl, rfl, rfl, rfl, rfl, rfl, rfl⟩,
      fun p hp => by cases p <;> simp [State.agrees, mayWrite] at hp ⊢⟩
  | pad =>
    obtain ⟨-, -, va, vb, -, -, -, -, rfl⟩ := padEffect_eq_ok h
    exact ⟨⟨rfl, rfl, rfl, rfl, rfl, rfl, rfl, rfl, rfl, rfl, rfl, rfl⟩,
      fun p hp => by cases p <;> simp [State.agrees, mayWrite] at hp ⊢⟩
  | pmul b0 b1 b2 => obtain ⟨ys, -, h⟩ := pmulEffect_eq_ok h; exact hbuf _ _ _ (fun _ => rfl) h
  | conv =>
    obtain ⟨-, -, h⟩ := convEffect_eq_ok h
    rw [h]
    clear h
    exact ⟨⟨rfl, rfl, rfl, rfl, rfl, rfl, rfl, rfl, rfl, rfl, rfl, rfl⟩,
      fun p hp => by cases p <;> simp [State.agrees, mayWrite] at hp ⊢⟩
  | carry b =>
    obtain ⟨ds, -, -, -, rfl⟩ := carryEffect_eq_ok h
    exact ⟨⟨rfl, rfl, rfl, rfl, rfl, rfl, rfl, rfl, rfl, rfl, rfl, rfl⟩,
      fun p hp => by cases p <;> simp [State.agrees, mayWrite] at hp ⊢⟩
  | parse k =>
    obtain ⟨cs, -, -, rfl⟩ := parseEffect_eq_ok h
    refine ⟨s.sameFixed_parsed k cs, fun p hp => s.agrees_parsed k cs p ?_⟩
    rintro rfl
    simp [mayWrite] at hp
  | render =>
    obtain ⟨bs, -, rfl⟩ := renderEffect_eq_ok h
    exact ⟨⟨rfl, rfl, rfl, rfl, rfl, rfl, rfl, rfl, rfl, rfl, rfl, rfl⟩,
      fun p hp => by cases p <;> simp [State.agrees, mayWrite] at hp ⊢⟩
  | mult =>
    obtain ⟨h1, h2⟩ := multEffect_frame h
    exact ⟨h1, fun p hp => by cases p <;> simp [State.agrees, mayWrite, h2] at hp ⊢⟩

/-! ### The stops -/

/-- A fault of the model names an element that has no value in `s`. -/
abbrev State.Unwritten (s : State) (f : Fault) : Prop := ∃ m j, f = .unwritten m j ∧ s.elemWord m j = none

theorem State.unwritten_buf {s : State} {b : Buf} {j : Nat} (h : (s.buf b).read j = none) :
    s.Unwritten (.unwritten (bufId b) j) := ⟨_, _, rfl, by cases b <;> exact h⟩

theorem State.unwritten_in {s : State} {k : Numeral} {j : Nat} (h : (s.inMem k).read j = none) :
    s.Unwritten (.unwritten (inId k) j) := by
  refine ⟨_, _, rfl, ?_⟩
  cases k
  · show Option.map _ (s.inA.read j) = none
    rw [show s.inA.read j = none from h]; rfl
  · show Option.map _ (s.inB.read j) = none
    rw [show s.inB.read j = none from h]; rfl

/-- How a command's effect can stop: with an error code R300 lists for it, or at an unwritten element. -/
abbrev StopsAs (i : Instr) (s : State) (e : Stop) : Prop :=
  (∃ c, e = .raise c ∧ mayRaise c i = true) ∨ ∃ f, e = .fault f ∧ s.Unwritten f

theorem parseEffect_stops {i : Instr} {k : Numeral} {s u : State} {e : Stop} (h : parseEffect k u = .error e)
    (hin : u.inMem k = s.inMem k) (h1 : mayRaise .invalidDigit i = true) (h2 : mayRaise .unsupportedSize i = true) :
    StopsAs i s e := by
  rcases parseEffect_eq_error h with ⟨j, hj, rfl⟩ | rfl | rfl
  · rw [hin] at hj
    exact .inr ⟨_, rfl, State.unwritten_in hj⟩
  · exact .inl ⟨_, rfl, h1⟩
  · exact .inl ⟨_, rfl, h2⟩

theorem padEffect_stops {i : Instr} {s : State} {e : Stop} (h : padEffect s = .error e)
    (h2 : mayRaise .unsupportedSize i = true) : StopsAs i s e := by
  rcases padEffect_eq_error h with rfl | ⟨k, hk, rfl, -⟩ | ⟨k, hk, rfl, -⟩
  · exact .inl ⟨_, rfl, h2⟩
  · exact .inr ⟨_, rfl, _, _, rfl, by simp [State.elemWord, hk]⟩
  · exact .inr ⟨_, rfl, _, _, rfl, by simp [State.elemWord, hk]⟩

theorem effect_stops {i : Instr} {s : State} {e : Stop} (h : effect i s = .error e) : StopsAs i s e := by
  cases i with
  | nop => simp [effect] at h
  | ldi ra imm => simp [effect] at h
  | mred ra rb => simp [effect] at h
  | ldw ra rb bs =>
    simp only [effect, ldwEffect, bind_eq_error, indexOperand_eq_error, readElem_eq_error, pure_eq_ok, reduceCtorEq,
      and_false, exists_false, or_false] at h
    rcases h with ⟨-, rfl⟩ | ⟨_, -, h, rfl⟩
    · exact .inl ⟨_, rfl, rfl⟩
    · exact .inr ⟨_, rfl, State.unwritten_buf h⟩
  | stw ra rb bs =>
    simp only [effect, stwEffect, bind_eq_error, indexOperand_eq_error, fieldOperand_eq_error, pure_eq_ok, reduceCtorEq,
      and_false, exists_false, or_false] at h
    rcases h with ⟨-, rfl⟩ | ⟨_, -, -, rfl⟩ <;> exact .inl ⟨_, rfl, rfl⟩
  | madd ra rb rc =>
    simp only [effect, binaryField, bind_eq_error, fieldOperand_eq_error, pure_eq_ok, reduceCtorEq, and_false,
      exists_false, or_false] at h
    rcases h with ⟨-, rfl⟩ | ⟨_, -, -, rfl⟩ <;> exact .inl ⟨_, rfl, rfl⟩
  | msub ra rb rc =>
    simp only [effect, binaryField, bind_eq_error, fieldOperand_eq_error, pure_eq_ok, reduceCtorEq, and_false,
      exists_false, or_false] at h
    rcases h with ⟨-, rfl⟩ | ⟨_, -, -, rfl⟩ <;> exact .inl ⟨_, rfl, rfl⟩
  | mmul ra rb rc =>
    simp only [effect, binaryField, bind_eq_error, fieldOperand_eq_error, pure_eq_ok, reduceCtorEq, and_false,
      exists_false, or_false] at h
    rcases h with ⟨-, rfl⟩ | ⟨_, -, -, rfl⟩ <;> exact .inl ⟨_, rfl, rfl⟩
  | mpow ra rb rc =>
    simp only [effect, mpowEffect, bind_eq_error, fieldOperand_eq_error, pure_eq_ok, reduceCtorEq, and_false,
      exists_false, or_false] at h
    obtain ⟨-, rfl⟩ := h
    exact .inl ⟨_, rfl, rfl⟩
  | minv ra rb =>
    simp only [effect, minvEffect, bind_eq_error, fieldOperand_eq_error, pure_eq_ok, reduceCtorEq, and_false,
      exists_false, or_false] at h
    obtain ⟨-, rfl⟩ := h
    exact .inl ⟨_, rfl, rfl⟩
  | bfly ra rb rc =>
    simp only [effect, bflyEffect, bind_eq_error, fieldOperand_eq_error, pure_eq_ok, reduceCtorEq, and_false,
      exists_false, or_false] at h
    rcases h with ⟨-, rfl⟩ | ⟨_, -, ⟨-, rfl⟩ | ⟨_, -, -, rfl⟩⟩ <;> exact .inl ⟨_, rfl, rfl⟩
  | rootw ra rb d =>
    simp only [effect, rootwEffect, bind_eq_error, stageOperand_eq_error, pure_eq_ok, reduceCtorEq, and_false,
      exists_false, or_false] at h
    obtain ⟨-, rfl⟩ := h
    exact .inl ⟨_, rfl, rfl⟩
  | twid ra rb rc d =>
    simp only [effect, twidEffect, bind_eq_error, stageOperand_eq_error, pure_eq_ok, reduceCtorEq, and_false,
      exists_false, or_false] at h
    obtain ⟨-, rfl⟩ := h
    exact .inl ⟨_, rfl, rfl⟩
  | bitrev b =>
    simp only [effect, bitrevEffect, bind_eq_error, pure_eq_ok, reduceCtorEq, and_false, exists_false, or_false] at h
    obtain ⟨k, hk, rfl⟩ := bitRevLoop_eq_error h
    exact .inr ⟨_, rfl, State.unwritten_buf hk⟩
  | ntt b d =>
    rcases nttEffect_eq_error h with ⟨k, hk, rfl⟩ | ⟨rfl, -⟩
    · exact .inr ⟨_, rfl, State.unwritten_buf hk⟩
    · exact .inl ⟨_, rfl, rfl⟩
  | setn ra =>
    simp only [effect, setnEffect] at h
    split at h
    · simp only [Except.error.injEq] at h
      subst h
      exact .inl ⟨_, rfl, rfl⟩
    · simp at h
  | pad => exact padEffect_stops h rfl
  | pmul b0 b1 b2 =>
    obtain ⟨k, -, b, -, h | ⟨v, -, -, rfl⟩⟩ := productList_eq_error (pmulEffect_eq_error h)
    · obtain ⟨hk, rfl⟩ := h
      exact .inr ⟨_, rfl, State.unwritten_buf hk⟩
    · exact .inl ⟨_, rfl, rfl⟩
  | conv => exact padEffect_stops (convEffect_eq_error h) rfl
  | carry b =>
    rcases carryEffect_eq_error h with ⟨k, hk, rfl⟩ | rfl | rfl
    · exact .inr ⟨_, rfl, State.unwritten_buf hk⟩
    · exact .inl ⟨_, rfl, rfl⟩
    · exact .inl ⟨_, rfl, rfl⟩
  | parse k => exact parseEffect_stops h rfl rfl rfl
  | render =>
    obtain ⟨k, hk, rfl⟩ := renderEffect_eq_error h
    exact .inr ⟨_, rfl, _, _, rfl, by simp [State.elemWord, hk]⟩
  | mult =>
    rcases multEffect_eq_error h with h | ⟨cs, -, h⟩ | rfl
    · exact parseEffect_stops h rfl rfl rfl
    · exact parseEffect_stops h rfl rfl rfl
    · exact .inl ⟨_, rfl, rfl⟩

end Sys2Proof.Machine
end

