-- ==== Sys2Proof/Laws/Invariant.lean ====
section
/-!
SUPPORT. What each kind of update owes the invariant: writes within a memory's capacity, digits, and the effect of each
command.
-/

namespace Sys2Proof.Machine

open Sys2Proof

theorem Mem.fits_write {w : Nat} {m : Mem w} {i cap : Nat} (v : BitVec w) (h : m.fits cap) (hi : i < cap) :
    (m.write i v).fits cap :=
  ⟨Mem.wf_write i v h.1, fun c hc => by
    rcases Mem.mem_write hc with rfl | hc
    · exact hi
    · exact h.2 c hc⟩

theorem Mem.fits_writeList {w : Nat} {m : Mem w} {cap : Nat} {vs : List (BitVec w)} (h : m.fits cap)
    (hl : vs.length ≤ cap) : (m.writeList 0 vs).fits cap :=
  ⟨Mem.wf_writeList 0 vs h.1, fun c hc => by
    rcases Mem.mem_writeList hc with ⟨-, h2, -⟩ | hc
    · omega
    · exact h.2 c hc⟩

theorem Mem.decimal_writeList {m : Mem 4} {ds : List Nat} (h : m.decimal) (hd : AllDigit ds) :
    (m.writeList 0 (ds.map (BitVec.ofNat 4))).decimal := fun c hc => by
  rcases Mem.mem_writeList hc with ⟨-, -, h3⟩ | hc
  · obtain ⟨d, hd', e⟩ := List.mem_map.1 h3
    have hlt := hd d hd'
    rw [← e, toNat_digit hlt]
    exact Nat.le_of_lt_succ hlt
  · exact h c hc

theorem Mem.full_writeList {w : Nat} {m : Mem w} {n : Nat} {vs : List (BitVec w)} (h : n ≤ vs.length) :
    (m.writeList 0 vs).full n := fun i hi => by
  rw [Mem.read_writeList, if_pos (by omega), Nat.sub_zero, List.getElem?_eq_getElem (by omega)]
  rfl

theorem State.Inv.size_le {s : State} (h : s.Inv) : s.size ≤ s.cfg.nMax :=
  Nat.pow_le_pow_right (by decide) h.logn_le

theorem State.Inv.buf_fits {s : State} (h : s.Inv) (b : Buf) : (s.buf b).fits s.cfg.nMax := by
  cases b
  · exact h.bufA_fits
  · exact h.bufB_fits
  · exact h.bufC_fits

theorem State.Inv.setBuf {s : State} (h : s.Inv) (b : Buf) {m : Mem 32} (hm : m.fits s.cfg.nMax) : (s.setBuf b m).Inv := by
  cases b
  · exact { h with bufA_fits := hm }
  · exact { h with bufB_fits := hm }
  · exact { h with bufC_fits := hm }

theorem State.Inv.setReg {s : State} (h : s.Inv) (r : Reg) (v : XReg) : (s.setReg r v).Inv := { h with }

theorem State.Inv.raise {s : State} (h : s.Inv) (c : ErrCode) : (s.raise c).Inv :=
  { h with errOp_clear := fun e => by cases e }

theorem State.Inv.idle {s : State} (h : s.Inv) : ({ s with busy := false } : State).Inv := { h with }

theorem State.Inv.bitrevEffect {s t : State} {b : Buf} (h : s.Inv) (e : bitrevEffect b s = .ok t) : t.Inv := by
  obtain ⟨m, hm, rfl⟩ := bitrevEffect_eq_ok.1 e
  exact h.setBuf b (bitRevLoop_fits h.size_le (Nat.zero_add _).le (h.buf_fits b) hm)

theorem State.Inv.nttEffect {s t : State} {b : Buf} {d : Dir} (h : s.Inv) (e : nttEffect b d s = .ok t) : t.Inv := by
  obtain ⟨m, ys, hm, hl, rfl⟩ := nttEffect_eq_ok e
  exact h.setBuf b (Mem.fits_writeList (bitRevLoop_fits h.size_le (Nat.zero_add _).le (h.buf_fits b) hm)
    (hl ▸ h.size_le))

theorem State.Inv.pmulEffect {s t : State} {bd bx bY : Buf} (h : s.Inv) (e : pmulEffect bd bx bY s = .ok t) : t.Inv := by
  obtain ⟨ys, hl, rfl⟩ := pmulEffect_eq_ok e
  exact h.setBuf bd (Mem.fits_writeList (h.buf_fits bd) (hl ▸ h.size_le))

theorem State.Inv.padEffect {s t : State} (h : s.Inv) (e : padEffect s = .ok t) : t.Inv := by
  obtain ⟨hs, -, va, vb, ha, hb, -, -, rfl⟩ := padEffect_eq_ok e
  have hl := toNat_lognOf hs
  have hle : 2 ^ Nat.clog 2 (s.lenA.toNat + s.lenB.toNat) ≤ s.cfg.nMax :=
    Nat.pow_le_pow_right (by decide) (clog_le_lognMax.2 hs)
  exact { h with
    logn_le := by rw [hl]; exact clog_le_lognMax.2 hs
    bufA_fits := Mem.fits_writeList h.bufA_fits (ha ▸ hle)
    bufB_fits := Mem.fits_writeList h.bufB_fits (hb ▸ hle) }

theorem State.Inv.convEffect {s t : State} (h : s.Inv) (e : convEffect s = .ok t) : t.Inv := by
  simp only [Machine.convEffect, bind_eq_ok] at e
  obtain ⟨s1, h1, s2, h2, s3, h3, s4, h4, h5⟩ := e
  exact ((((h.padEffect h1).nttEffect h2).nttEffect h3).pmulEffect h4).nttEffect h5

theorem State.Inv.setnEffect {s t : State} {ra : Reg} (h : s.Inv) (e : setnEffect ra s = .ok t) : t.Inv := by
  obtain ⟨hs, rfl⟩ := setnEffect_eq_ok.1 e
  exact { h with logn_le := by rw [toNat_lognOf hs]; exact clog_le_lognMax.2 hs }

theorem State.Inv.carryEffect {s t : State} {b : Buf} (h : s.Inv) (e : carryEffect b s = .ok t) : t.Inv := by
  obtain ⟨ds, hd, -, hl, rfl⟩ := carryEffect_eq_ok e
  have hmax := nMax_le s.cfg
  have hc : s.cfg.resCap = s.cfg.nMax + 1 := rfl
  have hle : ds.length ≤ s.cfg.resCap := hl (by have := h.size_le; omega)
  have hn : (BitVec.ofNat 32 ds.length).toNat = ds.length := by
    rw [BitVec.toNat_ofNat, Nat.mod_eq_of_lt (by omega)]
  exact { h with
    res_fits := Mem.fits_writeList h.res_fits (by simpa using hle)
    res_decimal := Mem.decimal_writeList h.res_decimal hd
    resLen_le := by rw [hn]; exact hle
    res_full := by rw [hn]; exact Mem.full_writeList (by simp) }

theorem State.Inv.parseEffect {s t : State} {k : Numeral} (h : s.Inv) (e : parseEffect k s = .ok t) : t.Inv := by
  obtain ⟨cs, hs, hl, rfl⟩ := parseEffect_eq_ok e
  have hmax := nMax_le s.cfg
  have hc : s.cfg.digCap = s.cfg.nMax := rfl
  have hd : AllDigit cs.reverse := fun d hd => by
    have := hs.2.1 d (by simpa using hd)
    omega
  have hn : (BitVec.ofNat 32 cs.length).toNat = cs.length := by
    rw [BitVec.toNat_ofNat, Nat.mod_eq_of_lt (by omega)]
  cases k
  · exact { h with
      digA_fits := Mem.fits_writeList h.digA_fits (by simpa using hl)
      digA_decimal := Mem.decimal_writeList h.digA_decimal hd
      lenA_le := hn.le.trans hl
      digA_full := hn.symm ▸ Mem.full_writeList (by simp) }
  · exact { h with
      digB_fits := Mem.fits_writeList h.digB_fits (by simpa using hl)
      digB_decimal := Mem.decimal_writeList h.digB_decimal hd
      lenB_le := hn.le.trans hl
      digB_full := hn.symm ▸ Mem.full_writeList (by simp) }

theorem State.Inv.renderEffect {s t : State} (h : s.Inv) (e : renderEffect s = .ok t) : t.Inv := by
  obtain ⟨bs, hl, rfl⟩ := renderEffect_eq_ok e
  have hmax := nMax_le s.cfg
  have hc : s.cfg.resCap = s.cfg.nMax + 1 := rfl
  have hc' : s.cfg.outCap = s.cfg.nMax + 2 := rfl
  have hr := h.resLen_le
  have hn : (BitVec.ofNat 32 bs.length).toNat = bs.length := by
    rw [BitVec.toNat_ofNat, Nat.mod_eq_of_lt (by omega)]
  have hle : bs.length ≤ s.cfg.outCap := by omega
  exact { h with
    out_fits := Mem.fits_writeList h.out_fits hle
    outLen_le := hn.le.trans hle
    out_full := by rw [hn]; exact Mem.full_writeList le_rfl }

theorem State.Inv.multEffect {s t : State} (h : s.Inv) (e : multEffect s = .ok t) : t.Inv := by
  simp only [Machine.multEffect, bind_eq_ok] at e
  obtain ⟨s1, h1, s2, h2, s3, h3, s4, h4, h5⟩ := e
  exact ((((h.parseEffect h1).parseEffect h2).convEffect h3).carryEffect h4).renderEffect h5

end Sys2Proof.Machine
end

