-- ==== Sys2Proof/Laws/PerInstr.lean ====
section
/-!
SUPPORT. Statements made of every instruction as syntax, one lemma per constructor: the opcode byte of its word is the one
the opcode map lists for it (spec/30_encoding.md R106), with every operand at every value.
-/

namespace Sys2Proof.Laws

open Sys2Proof

/-- The opcode the map of R106 lists for a command. -/
def opcodeNumber : Instr → Nat
  | .nop => 0x00
  | .ldi _ _ => 0x01
  | .ldw _ _ _ => 0x02
  | .stw _ _ _ => 0x03
  | .madd _ _ _ => 0x10
  | .msub _ _ _ => 0x11
  | .mmul _ _ _ => 0x12
  | .mpow _ _ _ => 0x13
  | .minv _ _ => 0x14
  | .mred _ _ => 0x15
  | .bfly _ _ _ => 0x20
  | .rootw _ _ _ => 0x21
  | .twid _ _ _ _ => 0x22
  | .bitrev _ => 0x23
  | .ntt _ _ => 0x24
  | .setn _ => 0x30
  | .pad => 0x31
  | .pmul _ _ _ => 0x32
  | .conv => 0x33
  | .carry _ => 0x40
  | .parse _ => 0x50
  | .render => 0x51
  | .mult => 0x60

theorem buf_code_le (b : Buf) : b.code ≤ 2 := by cases b <;> decide
theorem dir_code_le (d : Dir) : d.code ≤ 1 := by cases d <;> decide
theorem numeral_code_le (k : Numeral) : k.code ≤ 1 := by cases k <;> decide

/-- The opcode byte of a word whose low 24 bits are `rest`. -/
theorem opcodeOf_ofNat {op rest : Nat} (ho : op < 256) (hr : rest < 2 ^ 24) :
    (opcodeOf (BitVec.ofNat 32 (op * 2 ^ 24 + rest))).toNat = op := by
  rw [opcodeOf, BitVec.extractLsb'_toNat, Nat.shiftRight_eq_div_pow, BitVec.toNat_ofNat]
  omega

theorem opcodeOf_formatR {op ra rb rc d : Nat} (ho : op < 256) (ha : ra < 8) (hb : rb < 8) (hc : rc < 8) (hd : d ≤ 1) :
    (opcodeOf (formatR op ra rb rc d)).toNat = op := by
  have := opcodeOf_ofNat (rest := ra * 2 ^ 21 + rb * 2 ^ 18 + rc * 2 ^ 15 + d * 2 ^ 14) ho (by omega)
  rwa [← Nat.add_assoc, ← Nat.add_assoc, ← Nat.add_assoc] at this

theorem opcodeOf_formatM {op ra rb bs : Nat} (ho : op < 256) (ha : ra < 8) (hb : rb < 8) (hs : bs ≤ 2) :
    (opcodeOf (formatM op ra rb bs)).toNat = op := by
  have := opcodeOf_ofNat (rest := ra * 2 ^ 21 + rb * 2 ^ 18 + bs * 2 ^ 16) ho (by omega)
  rwa [← Nat.add_assoc, ← Nat.add_assoc] at this

theorem opcodeOf_formatV {op b0 b1 b2 d : Nat} (ho : op < 256) (h0 : b0 ≤ 2) (h1 : b1 ≤ 2) (h2 : b2 ≤ 2) (hd : d ≤ 1) :
    (opcodeOf (formatV op b0 b1 b2 d)).toNat = op := by
  have := opcodeOf_ofNat (rest := b0 * 2 ^ 22 + b1 * 2 ^ 20 + b2 * 2 ^ 18 + d * 2 ^ 17) ho (by omega)
  rwa [← Nat.add_assoc, ← Nat.add_assoc, ← Nat.add_assoc] at this

theorem opcodeOf_formatI {op ra imm : Nat} (ho : op < 256) (ha : ra < 8) (hi : imm < 2 ^ 21) :
    (opcodeOf (formatI op ra imm)).toNat = op := by
  have := opcodeOf_ofNat (rest := ra * 2 ^ 21 + imm) ho (by omega)
  rwa [← Nat.add_assoc] at this

/-- The opcode byte of a command's word is the one the map lists. -/
def OpcodeByte.Statement (i : Instr) : Prop := (opcodeOf (encode i)).toNat = opcodeNumber i

theorem OpcodeByte.nop : OpcodeByte.Statement .nop := by unfold OpcodeByte.Statement; decide
theorem OpcodeByte.ldi (ra : Reg) (imm : BitVec 21) : OpcodeByte.Statement (.ldi ra imm) :=
  opcodeOf_formatI (by decide) ra.isLt imm.isLt
theorem OpcodeByte.ldw (ra rb : Reg) (bs : Buf) : OpcodeByte.Statement (.ldw ra rb bs) :=
  opcodeOf_formatM (by decide) ra.isLt rb.isLt (buf_code_le bs)
theorem OpcodeByte.stw (ra rb : Reg) (bs : Buf) : OpcodeByte.Statement (.stw ra rb bs) :=
  opcodeOf_formatM (by decide) ra.isLt rb.isLt (buf_code_le bs)
theorem OpcodeByte.madd (ra rb rc : Reg) : OpcodeByte.Statement (.madd ra rb rc) :=
  opcodeOf_formatR (by decide) ra.isLt rb.isLt rc.isLt (by decide)
theorem OpcodeByte.msub (ra rb rc : Reg) : OpcodeByte.Statement (.msub ra rb rc) :=
  opcodeOf_formatR (by decide) ra.isLt rb.isLt rc.isLt (by decide)
theorem OpcodeByte.mmul (ra rb rc : Reg) : OpcodeByte.Statement (.mmul ra rb rc) :=
  opcodeOf_formatR (by decide) ra.isLt rb.isLt rc.isLt (by decide)
theorem OpcodeByte.mpow (ra rb rc : Reg) : OpcodeByte.Statement (.mpow ra rb rc) :=
  opcodeOf_formatR (by decide) ra.isLt rb.isLt rc.isLt (by decide)
theorem OpcodeByte.minv (ra rb : Reg) : OpcodeByte.Statement (.minv ra rb) :=
  opcodeOf_formatR (by decide) ra.isLt rb.isLt (by decide) (by decide)
theorem OpcodeByte.mred (ra rb : Reg) : OpcodeByte.Statement (.mred ra rb) :=
  opcodeOf_formatR (by decide) ra.isLt rb.isLt (by decide) (by decide)
theorem OpcodeByte.bfly (ra rb rc : Reg) : OpcodeByte.Statement (.bfly ra rb rc) :=
  opcodeOf_formatR (by decide) ra.isLt rb.isLt rc.isLt (by decide)
theorem OpcodeByte.rootw (ra rb : Reg) (d : Dir) : OpcodeByte.Statement (.rootw ra rb d) :=
  opcodeOf_formatR (by decide) ra.isLt rb.isLt (by decide) (dir_code_le d)
theorem OpcodeByte.twid (ra rb rc : Reg) (d : Dir) : OpcodeByte.Statement (.twid ra rb rc d) :=
  opcodeOf_formatR (by decide) ra.isLt rb.isLt rc.isLt (dir_code_le d)
theorem OpcodeByte.bitrev (b0 : Buf) : OpcodeByte.Statement (.bitrev b0) :=
  opcodeOf_formatV (by decide) (buf_code_le b0) (by decide) (by decide) (by decide)
theorem OpcodeByte.ntt (b0 : Buf) (d : Dir) : OpcodeByte.Statement (.ntt b0 d) :=
  opcodeOf_formatV (by decide) (buf_code_le b0) (by decide) (by decide) (dir_code_le d)
theorem OpcodeByte.setn (ra : Reg) : OpcodeByte.Statement (.setn ra) :=
  opcodeOf_formatR (by decide) ra.isLt (by decide) (by decide) (by decide)
theorem OpcodeByte.pad : OpcodeByte.Statement .pad := by unfold OpcodeByte.Statement; decide
theorem OpcodeByte.pmul (b0 b1 b2 : Buf) : OpcodeByte.Statement (.pmul b0 b1 b2) :=
  opcodeOf_formatV (by decide) (buf_code_le b0) (buf_code_le b1) (buf_code_le b2) (by decide)
theorem OpcodeByte.conv : OpcodeByte.Statement .conv := by unfold OpcodeByte.Statement; decide
theorem OpcodeByte.carry (b0 : Buf) : OpcodeByte.Statement (.carry b0) :=
  opcodeOf_formatV (by decide) (buf_code_le b0) (by decide) (by decide) (by decide)
theorem OpcodeByte.parse (b0 : Numeral) : OpcodeByte.Statement (.parse b0) :=
  opcodeOf_formatV (by decide) ((numeral_code_le b0).trans (by decide)) (by decide) (by decide) (by decide)
theorem OpcodeByte.render : OpcodeByte.Statement .render := by unfold OpcodeByte.Statement; decide
theorem OpcodeByte.mult : OpcodeByte.Statement .mult := by unfold OpcodeByte.Statement; decide

end Sys2Proof.Laws
end

