-- ==== Sys2Proof/Tests/Slice0.lean ====
section
/-!
SUPPORT. Tests of the model against the words and vectors of spec/30_encoding.md R112 and spec/95_test_vectors.md, and for
each statement with hypotheses a state that meets them, at the boundary values where its clauses meet.
-/

namespace Sys2Proof.Machine

open Sys2Proof

-- One test after the other: each `decide` waits for the kernel, and a thread for each waiting test costs memory.
set_option Elab.async false

/-! ### Helpers -/

/-- The fault a step stops with, if it does. -/
def faultOf (r : Result) : Option Fault :=
  match r with
  | .next _ => none
  | .fault f => some f
  | .refused _ => none

/-- The view `f` of the next state, if there is one. -/
def view {α : Type} (r : Result) (f : State → α) : Option α :=
  match r with
  | .next t => some (f t)
  | .fault _ => none
  | .refused _ => none

/-- The error fields a step leaves. -/
def errors (t : State) : Nat × Nat := (t.errField, t.errOp.toNat)

/-- A buffer or memory with the values given, from index 0. -/
def cells {w : Nat} (vs : List Nat) : Mem w := Mem.writeList [] 0 (vs.map (BitVec.ofNat w))

/-- The values listed in a memory, in index order. -/
def values {w : Nat} (m : Mem w) : List Nat := m.map fun c => c.2.toNat

/-- Reset at LOGN_MAX = 1, the smallest, where N_MAX = 2 and RES_CAP = 3. -/
def tiny : State := State.resetWith ⟨1, by decide, by decide⟩

/-- Reset at LOGN_MAX = 4, the smallest whose region 0 holds the whole register map. -/
def small : State := State.resetWith ⟨4, by decide, by decide⟩

/-- Reset at LOGN_MAX = 26, where the bounding invariant can fail (R231). -/
def large : State := State.resetWith ⟨26, by decide, by decide⟩

/-- `s` with three registers set. -/
def State.withRegs (s : State) (x1 x2 x3 : Nat) : State :=
  ((s.setReg 1 (BitVec.ofNat 64 x1)).setReg 2 (BitVec.ofNat 64 x2)).setReg 3 (BitVec.ofNat 64 x3)

/-- `s` with LOGN = `k` and BUF_A, BUF_B holding the values given. -/
def State.withBufs (s : State) (k : Nat) (as bs : List Nat) : State :=
  { s with logn := BitVec.ofNat 5 k, bufA := cells as, bufB := cells bs }

/-- `s` with the bytes given in IN_A and IN_B, and their lengths. -/
def State.withNumerals (s : State) (as bs : List Nat) : State :=
  { s with
    inA := cells as, inLenA := BitVec.ofNat 32 as.length
    inB := cells bs, inLenB := BitVec.ofNat 32 bs.length }

/-- `s` with the digits given, least significant first, in DIG_A and DIG_B. -/
def State.withDigits (s : State) (as bs : List Nat) : State :=
  { s with
    digA := cells as, lenA := BitVec.ofNat 32 as.length
    digB := cells bs, lenB := BitVec.ofNat 32 bs.length }

/-- `s` with a command word latched (R36). -/
def State.latched (s : State) (w : Word) : State := { s with cmdLast := w, pend := w, busy := true }

/-! ### Well-formedness and decoding -/

theorem test_wellFormed_refuses_equal_registers : Instr.wellFormed (.bfly 3 3 0) = false := by decide

theorem test_wellFormed_accepts_bfly : Instr.wellFormed (.bfly 0 1 1) = true := by decide

/-- Words of R112 and of programs P1, P2, P5, and for MRED and BITREV the sums of their fields (R102, R104). -/
theorem test_decode_register_words :
    decode 0x00000000#32 = .ok .nop ∧
    decode 0x01BFFFFF#32 = .ok (.ldi 5 0x1FFFFF) ∧
    decode 0x02340000#32 = .ok (.ldw 1 5 .A) ∧
    decode 0x026A0000#32 = .ok (.ldw 3 2 .C) ∧
    decode 0x03110000#32 = .ok (.stw 0 4 .B) ∧
    decode 0x101C8000#32 = .ok (.madd 0 7 1) ∧
    decode 0x11E08000#32 = .ok (.msub 7 0 1) ∧
    decode 0x12650000#32 = .ok (.mmul 3 1 2) ∧
    decode 0x13D28000#32 = .ok (.mpow 6 4 5) ∧
    decode 0x14440000#32 = .ok (.minv 2 1) ∧
    decode 0x15280000#32 = .ok (.mred 1 2) ∧
    decode 0x20050000#32 = .ok (.bfly 0 1 2) ∧
    decode 0x21284000#32 = .ok (.rootw 1 2 .inv) ∧
    decode 0x225A0000#32 = .ok (.twid 2 6 4 .fwd) := by decide +kernel

theorem test_decode_engine_words :
    decode 0x23400000#32 = .ok (.bitrev .B) ∧
    decode 0x24000000#32 = .ok (.ntt .A .fwd) ∧
    decode 0x24820000#32 = .ok (.ntt .C .inv) ∧
    decode 0x30E00000#32 = .ok (.setn 7) ∧
    decode 0x31000000#32 = .ok .pad ∧
    decode 0x32A80000#32 = .ok (.pmul .C .C .C) ∧
    decode 0x32840000#32 = .ok (.pmul .C .A .B) ∧
    decode 0x33000000#32 = .ok .conv ∧
    decode 0x40800000#32 = .ok (.carry .C) ∧
    decode 0x50000000#32 = .ok (.parse .A) ∧
    decode 0x50400000#32 = .ok (.parse .B) ∧
    decode 0x51000000#32 = .ok .render ∧
    decode 0x60000000#32 = .ok .mult := by decide +kernel

theorem test_encode_words :
    encode (.ldi 1 123) = 0x0120007B#32 ∧ encode (.madd 1 2 3) = 0x10298000#32 ∧
    encode (.ldw 3 2 .C) = 0x026A0000#32 ∧ encode (.rootw 1 2 .inv) = 0x21284000#32 ∧
    encode (.pmul .C .A .B) = 0x32840000#32 ∧ encode (.parse .B) = 0x50400000#32 ∧
    encode .mult = 0x60000000#32 := by decide +kernel

/-- The illegal words of R112, by the condition of R107 each breaks. -/
theorem test_decode_refuses_by_name :
    decode 0x00000001#32 = .error .reservedBits ∧
    decode 0x20240000#32 = .error .equalRegisters ∧
    decode 0x24C00000#32 = .error .reservedBuffer ∧
    decode 0x50800000#32 = .error .reservedBits ∧
    decode 0x70000000#32 = .error .reservedOpcode := by decide +kernel

theorem test_reserved_bits_of_each_shape :
    decode 0x21008000#32 = .error .reservedBits ∧ decode 0x21000001#32 = .error .reservedBits ∧
    decode 0x24040000#32 = .error .reservedBits ∧ decode 0x24010000#32 = .error .reservedBits ∧
    decode 0x22000001#32 = .error .reservedBits ∧ decode 0x15008000#32 = .error .reservedBits ∧
    decode 0x320C0000#32 = .error .reservedBuffer ∧ decode 0x02030000#32 = .error .reservedBuffer := by decide +kernel

theorem test_decodeTableWord :
    decodeTableWord 32 0x0120007B = some (.ldi 1 123) ∧ decodeTableWord 32 0x70000000 = none ∧
    decodeTableWord 40 0 = none := by decide +kernel

/-! ### Witnesses: the command word -/

theorem test_witness_round_trips :
    Instr.wellFormed (.bfly 7 0 7) = true ∧ decode 0x20FC0000#32 = .error .equalRegisters ∧
    decode 0x20E38000#32 = .ok (.bfly 7 0 7) := by decide +kernel

/-- The ends of R108's ranges are illegal, and the opcodes beside them are not. -/
theorem test_witness_reserved_opcodes :
    ([0x04, 0x0F, 0x16, 0x1F, 0x25, 0x2F, 0x34, 0x3F, 0x41, 0x4F, 0x52, 0x5F, 0x61, 0xFF].map fun op =>
      legal (BitVec.ofNat 32 (op * 2 ^ 24))) = List.replicate 14 false ∧
    ([0x03, 0x10, 0x15, 0x21, 0x24, 0x30, 0x33, 0x40, 0x50, 0x51, 0x60].map fun op =>
      legal (BitVec.ofNat 32 (op * 2 ^ 24))) = List.replicate 11 true ∧
    (small.latched 0x70000000#32).busy = true ∧ (small.latched 0x70000000#32).err = none ∧
    view (sequencerTurn (small.latched 0x70000000#32)) errors = some (4, 0x70) := by decide +kernel

/-! ### Witnesses: the sequencer -/

theorem test_witness_sequencer :
    let s := small.latched 0x0120007B#32
    s.busy = true ∧ s.err = none ∧ legal s.pend = true ∧ decode s.pend = .ok (.ldi 1 123) ∧
    legal (small.latched 0x00000001#32).pend = false ∧
    view (sequencerTurn (small.latched 0x00000001#32)) errors = some (4, 0x00) ∧
    view (sequencerTurn { s with err := some .invalidDigit }) (fun t => (t.busy, t.x = s.x, t.errField)) =
      some (false, True, 1) := by
  refine ⟨rfl, rfl, ?_, ?_, ?_, ?_, ?_⟩
  · decide +kernel
  · decide +kernel
  · decide +kernel
  · decide +kernel
  · simp [view, sequencerTurn, runPending, State.latched, State.errField, ErrCode.code]

theorem test_witness_step_runs :
    let s := { small.latched 0x0120007B#32 with todo := [.sequencer, .reset] }
    s.busy = true ∧ s.err = none ∧ decode s.pend = .ok (.ldi 1 123) ∧ s.todo = .sequencer :: [.reset] ∧
    view (step s) (fun t => ((t.reg 1).toNat, t.todo, t.busy)) = some (123, [.reset], false) ∧
    (small.latched 0x0120007B#32).todo = [] ∧
    view (step (small.latched 0x0120007B#32)) (fun t => ((t.reg 1).toNat, t.busy)) = some (123, false) := by
  decide +kernel

/-- A step that is a host access, and the sequencer's idle turn, taken from the interleaving or with none left. -/
theorem test_witness_step_host_and_idle :
    view (step { small with todo := [.hostRead 0x018, .reset] }) (fun t => (t.replies, t.todo)) =
      some ([16#32], [.reset]) ∧
    view (step { small with todo := [.hostWrite 0x024 7#32, .reset] }) (fun t => (t.inLenA, t.todo)) =
      some (7#32, [.reset]) ∧
    small.busy = false ∧ small.todo = [] ∧ view (step small) id = some small ∧
    view (step { small with todo := [.sequencer] }) id = some small := by decide +kernel

theorem test_witness_cmd_write :
    let s := { small with todo := [.hostWrite 0x008 0x0120007B#32, .sequencer] }
    s.busy = false ∧ s.err = none ∧ decode 0x0120007B#32 = .ok (.ldi 1 123) ∧
    s.todo = .hostWrite 0x008 0x0120007B#32 :: .sequencer :: [] ∧
    view (step s) (fun t => (t.busy, t.pend, view (step t) fun u => (u.reg 1).toNat)) =
      some (true, 0x0120007B#32, some 123) := by decide +kernel

theorem test_witness_overrun :
    let s := small.latched 0x00000000#32
    s.busy = true ∧ view (hostWrite 0x008 0x60000000#32 s) (fun t => (t.ovr, t.pend, t.cmdLast)) =
      some (true, 0x00000000#32, 0x60000000#32) ∧
    small.busy = false ∧ view (hostWrite 0x008 0x60000000#32 small) (fun t => (t.ovr, t.pend, t.busy)) =
      some (false, 0x60000000#32, true) := by decide +kernel

/-- Both ways ERR can go: it stays, or a CLEAR write with bit 0, or reset, takes it away. -/
theorem test_witness_errors_stay :
    let s := { small with err := some .invalidDigit, errOp := 0x60#8 }
    s.err = some .invalidDigit ∧
    view (step { s with todo := [.hostWrite 0x00C 2#32] }) errors = some (1, 0x60) ∧
    view (step { s with todo := [.hostWrite 0x00C 1#32] }) errors = some (0, 0) ∧
    view (step { s with todo := [.reset] }) errors = some (0, 0) := by decide +kernel

theorem test_clear_bits :
    let s := { small with err := some .invalidDigit, errOp := 0x60#8, ovr := true }
    view (hostWrite 0x00C 2#32 s) (fun t => (errors t, t.ovr)) = some ((1, 0x60), false) ∧
    view (hostWrite 0x00C 1#32 s) (fun t => (errors t, t.ovr)) = some ((0, 0), true) := by decide +kernel

/-- Program P4: STATUS reads 0x0060_0001 after MULT of "12a" (R35). -/
theorem test_status_word :
    let s := { small with err := some .invalidDigit, errOp := 0x60#8 }
    s.statusWord = 0x00600001#32 ∧ (small.latched 0#32).statusWord = 0x00000100#32 ∧
    { small with ovr := true }.statusWord = 0x00000200#32 := by decide +kernel

theorem test_error_codes :
    [ErrCode.invalidDigit, .unsupportedSize, .resultOverflow, .illegal, .operandRange, .indexRange].map ErrCode.code =
      [1, 2, 3, 4, 5, 6] := by decide

/-- The host's placing of a command word makes the very next step run it, from reset. -/
theorem test_withFetchWord :
    view (step (State.reset.withFetchWord 32 0x0120007B)) (fun t => ((t.reg 1).toNat, t.busy, t.todo)) =
      some (123, false, []) ∧
    view (step (State.reset.withFetchWord 32 0x51000000)) (fun t => (values t.out, t.outLen)) =
      some ([0x30, 0x0A], 2#32) := by decide +kernel

/-- A command that reads a buffer no one has written faults (R341). -/
theorem test_unwritten_faults :
    faultOf (step (State.reset.withFetchWord 32 0x40800000)) = some (.unwritten .bufC 0) := by decide +kernel

/-! ### Witnesses: the host's accesses -/

/-- R34's offsets at LOGN_MAX = 4, the last of them 0x07C, and the hole 0x03C; at LOGN_MAX = 5 also 0x080. -/
theorem test_witness_register_map :
    small.busy = false ∧ small.cfg.lognMax = 4 ∧ small.cfg.stride = 0x080 ∧
    target small.cfg 0x000 = some (.ctrl .id) ∧ target small.cfg 0x038 = some (.ctrl .outLen) ∧
    target small.cfg 0x03C = none ∧ target small.cfg 0x040 = some (.ctrl (.xLo 0)) ∧
    target small.cfg 0x07C = some (.ctrl (.xHi 7)) ∧ target small.cfg 0x080 = some (.elem .inA 0) ∧
    target ⟨5, by decide, by decide⟩ 0x080 = none ∧ target small.cfg 0x002 = none := by decide +kernel

theorem test_witness_x_window :
    let s := small.withRegs 0x1122334455667788 0 0
    s.busy = false ∧ 4 ≤ s.cfg.lognMax ∧
    view (hostWrite 0x048 0xAABBCCDD#32 s) (fun t => t.reg 1) = some 0x11223344AABBCCDD#64 ∧
    view (hostWrite 0x04C 0xAABBCCDD#32 s) (fun t => t.reg 1) = some 0xAABBCCDD55667788#64 := by decide +kernel

/-- The last mapped and the first unmapped element of each kind of memory, at the smallest, the reference and the largest
LOGN_MAX (R71, R72). -/
theorem test_witness_address_map :
    target tiny.cfg (1 * 16 + 4 * 2) = some (.elem .inA 2) ∧ target tiny.cfg (1 * 16 + 4 * 3) = none ∧
    target tiny.cfg (9 * 16 + 4 * 3) = some (.elem .out 3) ∧ target tiny.cfg (10 * 16) = some (.rom .fwd 0) ∧
    target tiny.cfg (10 * 16 + 4 * 3) = some (.rom .fwd 3) ∧ target tiny.cfg (11 * 16) = none ∧
    target ⟨5, by decide, by decide⟩ (10 * 256 + 4 * (32 * 1 + 31)) = some (.rom .inv 31) ∧
    target ⟨5, by decide, by decide⟩ (10 * 256 + 4 * 64) = none ∧
    target Config.reference (10 * 2 ^ 24 + 4 * 32) = some (.rom .inv 0) ∧
    target Config.reference (10 * 2 ^ 24 + 4 * 63) = some (.rom .inv 31) ∧
    target Config.reference (10 * 2 ^ 24 + 4 * 64) = none ∧
    target Config.reference (3 * 2 ^ 24 + 4 * 2097151) = some (.elem .digA 2097151) ∧
    target Config.reference (3 * 2 ^ 24 + 4 * 2097152) = none ∧
    target Config.reference (8 * 2 ^ 24 + 4 * 2097152) = some (.elem .res 2097152) ∧
    target ⟨27, by decide, by decide⟩ (5 * 2 ^ 30 + 4 * (2 ^ 27 - 1)) = some (.elem .bufA (2 ^ 27 - 1)) ∧
    target ⟨27, by decide, by decide⟩ (5 * 2 ^ 30 + 4 * 2 ^ 27) = none ∧
    target Config.reference (2 ^ 28) = none ∧ target Config.reference 1 = none := by decide +kernel

/-- Each kind of access that can stop, and the accesses R352 allows while BUSY = 1, at LOGN_MAX = 2. -/
theorem test_witness_bus_errors_and_races :
    let s := (State.resetWith ⟨2, by decide, by decide⟩).latched 0#32
    s.busy = true ∧ 2 ≤ s.cfg.lognMax ∧ target s.cfg 0x018 = some (.ctrl .nmax) ∧
    faultOf (hostRead 0x003 s) = some (.busError 0x003) ∧ faultOf (hostWrite 0x200 0#32 s) = some (.busError 0x200) ∧
    faultOf (hostRead 0x01C s) = some (.hostRace 0x01C) ∧ faultOf (hostWrite 0x010 0#32 s) = some (.hostRace 0x010) ∧
    view (hostRead 0x018 s) (fun t => t.replies) = some [4#32] ∧
    view (hostWrite 0x00C 3#32 s) (fun t => t.busy) = some true := by decide +kernel

theorem test_witness_read_idempotent :
    view (hostRead 0x000 small) (fun t => (t.replies, view (hostRead 0x000 t) fun u => u.replies)) =
      some ([0x4D410001#32], some [0x4D410001#32, 0x4D410001#32]) := by decide +kernel

/-- The last elements of IN_B and BUF_C; IN keeps bits [7:0] (R74). -/
theorem test_witness_host_write :
    small.busy = false ∧ target small.cfg 0x140 = some (.elem .inB 16) ∧
    view (hostWrite 0x140 0x12345678#32 small) (fun t => (t.elemWord .inB 16, view (hostRead 0x140 t) fun u => u.replies)) =
      some (some 0x78#32, some [0x78#32]) ∧
    target small.cfg 0x3BC = some (.elem .bufC 15) ∧
    view (hostWrite 0x3BC 0xFFFFFFFF#32 small) (fun t => t.elemWord .bufC 15) = some (some 0xFFFFFFFF#32) := by
  decide +kernel

/-- IN_LEN_A and IN_LEN_B hold any 32-bit value (R34), here at the smallest LOGN_MAX whose stride holds both. -/
theorem test_witness_in_len :
    let s := State.resetWith ⟨3, by decide, by decide⟩
    s.busy = false ∧ 3 ≤ s.cfg.lognMax ∧
    view (hostWrite 0x024 0xFFFFFFFF#32 s) (fun t => (t.inLenA, t.inLenB, view (hostRead 0x024 t) fun u => u.replies)) =
      some (0xFFFFFFFF#32, 0#32, some [0xFFFFFFFF#32]) ∧
    view (hostWrite 0x028 5#32 s) (fun t => (t.inLenA, t.inLenB, view (hostRead 0x028 t) fun u => u.replies)) =
      some (0#32, 5#32, some [5#32]) := by decide +kernel

/-- A written and an unwritten element of DIG_A, RES and OUT (R74, R341). -/
theorem test_witness_element_reads :
    let s := { small with digA := cells [3, 9], res := cells [8], out := cells [0x35, 0x0A] }
    s.busy = false ∧ target s.cfg 0x184 = some (.elem .digA 1) ∧ s.element .digA 1 = some 9 ∧
    view (hostRead 0x184 s) (fun t => t.replies) = some [9#32] ∧
    target s.cfg 0x188 = some (.elem .digA 2) ∧ s.element .digA 2 = none ∧
    faultOf (hostRead 0x188 s) = some (.unwritten .digA 2) ∧
    view (hostRead 0x400 s) (fun t => t.replies) = some [8#32] ∧
    faultOf (hostRead 0x404 s) = some (.unwritten .res 1) ∧
    view (hostRead 0x484 s) (fun t => t.replies) = some [0x0A#32] ∧
    faultOf (hostRead 0x488 s) = some (.unwritten .out 2) := by decide +kernel

theorem test_witness_read_only :
    target small.cfg 0x500 = some (.rom .fwd 0) ∧ view (hostWrite 0x500 7#32 small) id = some small ∧
    target small.cfg 0x180 = some (.elem .digA 0) ∧ view (hostWrite 0x180 7#32 small) id = some small ∧
    target small.cfg 0x01C = some (.ctrl .logn) ∧ view (hostWrite 0x01C 7#32 small) id = some small := by decide +kernel

/-- TWROM in the address map at LOGN_MAX = 5: forward and inverse stage 2, and a stage above LOGN_MAX, which reads 0. -/
theorem test_twrom :
    let s := State.resetWith ⟨5, by decide, by decide⟩
    view (hostRead 0xA08 s) (fun t => t.replies) = some [284861408#32] ∧
    view (hostRead 0xA88 s) (fun t => t.replies) = some [1728404513#32] ∧
    view (hostRead 0xA18 s) (fun t => t.replies) = some [0#32] := by decide +kernel

/-! ### Register transfer -/

theorem test_ldi : view (exec (.ldi 5 0x1FFFFF) State.reset) (fun t => (t.reg 5).toNat) = some 2097151 := by
  decide +kernel

/-- Each outcome of LDW: a written word up to index N_MAX − 1, an unwritten one, the index N_MAX. -/
theorem test_ldw :
    let s := { small with bufC := cells [9, 5, 0xFFFFFFFF] }
    view (exec (.ldw 3 2 .C) (s.withRegs 0 2 0)) (fun t => (t.reg 3).toNat) = some 0xFFFFFFFF ∧
    faultOf (exec (.ldw 3 2 .C) (s.withRegs 0 15 0)) = some (.unwritten .bufC 15) ∧
    view (exec (.ldw 3 2 .C) (s.withRegs 0 16 4)) (fun t => (errors t, (t.reg 3).toNat)) = some ((6, 0), 4) := by
  decide +kernel

theorem test_ldw_index_read_first :
    view (exec (.ldw 2 2 .A) { small with bufA := cells [7] }) (fun t => (t.reg 2).toNat) = some 7 := by decide +kernel

/-- The index check comes before the field-element check; MOD − 1 at index N_MAX − 1 is stored. -/
theorem test_stw :
    view (exec (.stw 1 2 .A) (small.withRegs modulus 16 0)) errors = some (6, 0) ∧
    view (exec (.stw 1 2 .A) (small.withRegs modulus 15 0)) (fun t => (errors t, t.bufA)) = some ((5, 0), []) ∧
    view (exec (.stw 1 2 .A) (small.withRegs (modulus - 1) 15 0)) (fun t => t.bufA) =
      some [(15, 2013265920#32)] := by decide +kernel

/-! ### Modular arithmetic -/

theorem test_add_sub_mul :
    view (exec (.madd 1 2 3) (small.withRegs 0 (modulus - 1) 2)) (fun t => (t.reg 1).toNat) = some 1 ∧
    view (exec (.msub 1 2 3) (small.withRegs 0 5 7)) (fun t => (t.reg 1).toNat) = some 2013265919 ∧
    view (exec (.mmul 1 2 3) (small.withRegs 0 123456789 987654321)) (fun t => (t.reg 1).toNat) = some 6500116 := by
  decide +kernel

theorem test_source_is_destination :
    view (exec (.msub 1 1 1) (small.withRegs 99 0 0)) (fun t => (t.reg 1).toNat) = some 0 ∧
    view (exec (.mmul 1 1 1) (small.withRegs (modulus - 1) 0 0)) (fun t => (t.reg 1).toNat) = some 1 := by decide +kernel

theorem test_mpow :
    view (exec (.mpow 1 2 3) (small.withRegs 9 0 0)) (fun t => (t.reg 1).toNat) = some 1 ∧
    view (exec (.mpow 1 2 3) (small.withRegs 9 2 (2 ^ 64 - 1))) (fun t => (t.reg 1).toNat) = some 1252951665 := by
  decide +kernel

theorem test_minv :
    view (exec (.minv 4 2) (small.withRegs 0 7 0)) (fun t => (t.reg 4).toNat) = some 862828252 ∧
    view (exec (.minv 4 2) (small.withRegs 0 0 0)) (fun t => (t.reg 4).toNat) = some 0 := by decide +kernel

theorem test_mred :
    view (exec (.mred 1 2) (small.withRegs 0 (2 ^ 64 - 1) 0)) (fun t => (t.reg 1).toNat) = some 1172168162 := by
  decide +kernel

/-- Each operand of each command at MOD (R156-R160, R207). -/
theorem test_witness_unreduced_registers :
    view (exec (.madd 1 2 3) ((small.withRegs 4 modulus 0).latched 0x10298000#32)) (fun t => (errors t, (t.reg 1).toNat)) =
      some ((5, 0x10), 4) ∧
    view (exec (.msub 1 2 3) (small.withRegs 0 0 modulus)) (fun t => t.errField) = some 5 ∧
    view (exec (.mmul 1 2 3) (small.withRegs 0 0 modulus)) (fun t => t.errField) = some 5 ∧
    view (exec (.mpow 1 2 3) (small.withRegs 0 modulus 1)) (fun t => t.errField) = some 5 ∧
    view (exec (.minv 1 2) (small.withRegs 0 modulus 0)) (fun t => t.errField) = some 5 ∧
    view (exec (.bfly 1 2 3) (small.withRegs modulus 0 0)) (fun t => t.errField) = some 5 ∧
    view (exec (.bfly 1 2 3) (small.withRegs 0 modulus 0)) (fun t => t.errField) = some 5 ∧
    view (exec (.bfly 1 2 3) (small.withRegs 0 0 modulus)) (fun t => t.errField) = some 5 := by decide +kernel

/-! ### The transform engine -/

theorem test_bitrev_values :
    ((List.range 8).map fun i => bitRev i 3) = [0, 4, 2, 6, 1, 5, 3, 7] ∧ bitRev 1 0 = 0 ∧ (1 : Nat) < 2 ^ 1 := by decide

/-- The table of R202, forward. -/
theorem test_stage_roots_forward :
    (List.range 22).map (stageRoot · .fwd) =
    [1, 2013265920, 284861408, 1801542727, 567209306, 740045640, 918899846, 132263909, 1319662041, 1380244045,
     915974299, 232693023, 76937576, 1324110894, 525304824, 1795306970, 146559527, 1954718807, 1025492337,
     1700140227, 1376330925, 831409769] := by
  decide +kernel

/-- The table of R202, inverse. -/
theorem test_stage_roots_inverse :
    (List.range 22).map (stageRoot · .inv) =
    [1, 2013265920, 1728404513, 1592366214, 196396260, 1253260071, 72041623, 921820247, 878329138, 950321114,
     1968296822, 341617406, 352669962, 1357944505, 858471053, 745010820, 1048660139, 1319324010, 861519967,
     267503389, 92419225, 1778766576] := by
  decide +kernel

/-- The table of R203. -/
theorem test_inverse_scaling :
    (List.range 22).map (fun k => invMod (2 ^ k)) =
    [1, 1006632961, 1509949441, 1761607681, 1887436801, 1950351361, 1981808641, 1997537281, 2005401601, 2009333761,
     2011299841, 2012282881, 2012774401, 2013020161, 2013143041, 2013204481, 2013235201, 2013250561, 2013258241,
     2013262081, 2013264001, 2013264961] := by
  decide +kernel

/-- Three distinct registers, and rc = rb. -/
theorem test_bfly :
    view (exec (.bfly 1 2 3) (small.withRegs 1 2 1)) (fun t => ((t.reg 1).toNat, (t.reg 2).toNat)) =
      some (3, 2013265920) ∧
    view (exec (.bfly 1 2 2) (small.withRegs 1 2 0)) (fun t => ((t.reg 1).toNat, (t.reg 2).toNat)) =
      some (5, 2013265918) ∧ (1 : Reg) ≠ 2 := by decide +kernel

/-- The stages LOGN_MAX and LOGN_MAX + 1. -/
theorem test_rootw_twid :
    view (exec (.rootw 1 2 .fwd) (State.reset.withRegs 0 21 0)) (fun t => (t.reg 1).toNat) = some 831409769 ∧
    view (exec (.rootw 1 2 .fwd) (State.reset.withRegs 0 22 0)) (fun t => t.errField) = some 2 ∧
    view (exec (.twid 1 2 3 .fwd) (State.reset.withRegs 0 2 2)) (fun t => (t.reg 1).toNat) = some 2013265920 ∧
    view (exec (.twid 1 2 3 .inv) (State.reset.withRegs 0 22 0)) (fun t => t.errField) = some 2 := by decide +kernel

theorem test_bitrev :
    let s := small.withBufs 3 [0, 1, 2, 3, 4, 5, 6, 7, 99] []
    (s.buf .A).full s.size ∧
    view (exec (.bitrev .A) s) (fun t => values t.bufA) = some [0, 4, 2, 6, 1, 5, 3, 7, 99] := by decide +kernel

/-- A word that is no field element moves unchanged. -/
theorem test_bitrev_unreduced :
    view (exec (.bitrev .A) (small.withBufs 2 [10, 11, 0xFFFFFFFF, 13] [])) (fun t => values t.bufA) =
      some [10, 0xFFFFFFFF, 11, 13] := by decide +kernel

theorem test_ntt_forward :
    let s := small.withBufs 2 [1, 2, 3, 4] []
    s.logn.toNat ≤ 27 ∧ (s.buf .A).fields s.size ([1, 2, 3, 4].getD · 0) ∧
    view (exec (.ntt .A .fwd) s) (fun t => values t.bufA) = some [10, 1443543103, 2013265919, 569722814] := by
  decide +kernel

theorem test_ntt_inverse :
    view (exec (.ntt .A .inv) (small.withBufs 2 [1, 2, 3, 4] [])) (fun t => values t.bufA) =
      some [1006632963, 1149063664, 1006632960, 864202256] ∧
    view (exec (.ntt .A .inv) (small.withBufs 2 [10, 1443543103, 2013265919, 569722814] [])) (fun t => values t.bufA) =
      some [1, 2, 3, 4] := by decide +kernel

/-! ### Convolution -/

theorem test_pmul :
    let s := small.withBufs 1 [3, modulus - 1] [7, 1]
    (s.buf .A).fields s.size ([3, modulus - 1].getD · 0) ∧ (s.buf .B).fields s.size ([7, 1].getD · 0) ∧
    view (exec (.pmul .C .A .B) s) (fun t => values t.bufC) = some [21, 2013265920] ∧
    view (exec (.pmul .A .A .A) s) (fun t => values t.bufA) = some [9, 1] := by decide +kernel

/-- The last entry below n is MOD: every clause of the statement, with nothing moved. -/
theorem test_witness_unreduced_entries :
    let s := small.withBufs 2 [1, 2, 3, modulus] [4, 5, 6, 7]
    3 < s.size ∧ (s.buf .A).fields 3 ([1, 2, 3].getD · 0) ∧ (s.buf .A).read 3 = some 2013265921#32 ∧
    (s.buf .B).fields 3 ([4, 5, 6].getD · 0) ∧ (s.buf .B).fields 4 ([4, 5, 6, 7].getD · 0) ∧
    view (exec (.ntt .A .fwd) s) (fun t => (t.errField, values t.bufA)) = some (5, [1, 2, 3, modulus]) ∧
    view (exec (.carry .A) s) (fun t => t.errField) = some 5 ∧
    view (exec (.pmul .C .A .B) s) (fun t => t.errField) = some 5 ∧
    view (exec (.pmul .C .B .A) s) (fun t => (t.errField, t.bufC)) = some (5, []) := by decide +kernel

/-- Requests of 0, 5, N_MAX and N_MAX + 1. -/
theorem test_setn :
    view (exec (.setn 1) (State.reset.withRegs 0 0 0)) (fun t => (t.logn.toNat, t.size)) = some (0, 1) ∧
    view (exec (.setn 1) (State.reset.withRegs 5 0 0)) (fun t => t.logn.toNat) = some 3 ∧
    view (exec (.setn 1) (State.reset.withRegs 2097152 0 0)) (fun t => t.logn.toNat) = some 21 ∧
    view (exec (.setn 1) (State.reset.withRegs 2097153 0 0)) (fun t => (t.errField, t.logn.toNat)) = some (2, 0) := by
  decide +kernel

theorem test_pad :
    let s := small.withDigits [3, 2, 1] [6, 5, 4]
    s.lenA.toNat + s.lenB.toNat ≤ s.cfg.nMax ∧ 81 * min s.lenA.toNat s.lenB.toNat < modulus ∧
    s.digA.digits s.lenA.toNat ([3, 2, 1].getD · 0) ∧ s.digB.digits s.lenB.toNat ([6, 5, 4].getD · 0) ∧
    view (exec .pad s) (fun t => (t.logn.toNat, values t.bufA, values t.bufB)) =
      some (3, [3, 2, 1, 0, 0, 0, 0, 0], [6, 5, 4, 0, 0, 0, 0, 0]) := by decide +kernel

/-- PAD after reset, and PAD at exactly N_MAX digits. -/
theorem test_pad_ends :
    view (exec .pad State.reset) (fun t => (t.logn.toNat, values t.bufA, values t.bufB)) = some (0, [0], [0]) ∧
    view (exec .pad (tiny.withDigits [1] [2])) (fun t => t.logn.toNat) = some 1 := by decide +kernel

/-- One digit too many, and at LOGN_MAX = 26 the first lengths that break the bounding invariant alone (R231). -/
theorem test_witness_oversize :
    let s := tiny.withDigits [1, 2] [3]
    let u := { large with lenA := 33554432#32, lenB := 33554432#32 }
    s.cfg.nMax < s.lenA.toNat + s.lenB.toNat ∧ view (exec .pad s) (fun t => t.errField) = some 2 ∧
    ¬ u.cfg.nMax < u.lenA.toNat + u.lenB.toNat ∧ modulus ≤ 81 * min u.lenA.toNat u.lenB.toNat ∧
    view (exec .pad u) (fun t => t.errField) = some 2 ∧ view (exec .conv u) (fun t => t.errField) = some 2 := by
  decide +kernel

theorem test_conv :
    let s := small.withDigits [2, 1] [4, 3]
    s.lenA.toNat + s.lenB.toNat ≤ s.cfg.nMax ∧ 81 * min s.lenA.toNat s.lenB.toNat < modulus ∧
    s.digA.digits s.lenA.toNat ([2, 1].getD · 0) ∧ s.digB.digits s.lenB.toNat ([4, 3].getD · 0) ∧ s.err = none ∧
    view (exec .conv s) (fun t => (t.logn.toNat, values t.bufA, values t.bufB, values t.bufC)) =
      some (2, [3, 284861410, 1, 1728404515], [7, 854584228, 1, 1158681701], [8, 10, 3, 0]) := by decide +kernel

/-! ### Carry -/

/-- LOGN_MAX = 3 and n = 4 < N_MAX: R250's pseudocode overflows RES_CAP = 9, against R251's remark (log entry 12). -/
theorem test_carry_overflow_below_n_max :
    let s := (State.resetWith ⟨3, by decide, by decide⟩).withBufs 2 [0, 0, 0, modulus - 1] []
    s.size = 4 ∧ s.cfg.nMax = 8 ∧ s.cfg.resCap = 9 ∧
    view (exec (.carry .A) s) (fun t => (t.errField, t.resLen)) = some (3, 0#32) := by decide +kernel

theorem test_carry :
    let s := small.withBufs 1 [modulus - 1, 0] []
    (s.buf .A).fields s.size ([modulus - 1, 0].getD · 0) ∧ s.err = none ∧ s.logn.toNat ≤ s.cfg.lognMax ∧
    weighted s.size ([modulus - 1, 0].getD · 0) < 10 ^ s.cfg.resCap ∧
    view (exec (.carry .A) s) (fun t => (values t.res, t.resLen.toNat)) =
      some ([0, 2, 9, 5, 6, 2, 3, 1, 0, 2], 10) := by decide +kernel

/-- At RES_CAP = 3: the value 999 fits, the value 1000 does not. -/
theorem test_carry_overflow :
    let s := tiny.withBufs 1 [9, 99] []
    let u := tiny.withBufs 1 [0, 100] []
    weighted s.size ([9, 99].getD · 0) = 999 ∧ view (exec (.carry .A) s) (fun t => (values t.res, t.resLen.toNat)) =
      some ([9, 9, 9], 3) ∧
    (u.buf .A).fields u.size ([0, 100].getD · 0) ∧ u.logn.toNat ≤ u.cfg.lognMax ∧
    10 ^ u.cfg.resCap ≤ weighted u.size ([0, 100].getD · 0) ∧
    view (exec (.carry .A) u) (fun t => (t.errField, t.res, t.resLen.toNat)) = some (3, [], 0) := by decide +kernel

/-! ### The codec -/

/-- "007", and "12" with one LF and DIG_CAP digits. -/
theorem test_parse :
    let s := small.withNumerals [0x30, 0x30, 0x37] []
    let u := tiny.withNumerals [0x31, 0x32, 0x0A] []
    s.spells .A [0, 0, 7] ∧ [0, 0, 7].length ≤ s.cfg.digCap ∧
    view (exec (.parse .A) s) (fun t => (values t.digA, t.lenA.toNat)) = some ([7, 0, 0], 3) ∧
    u.spells .A [1, 2] ∧ [1, 2].length = u.cfg.digCap ∧
    view (exec (.parse .A) u) (fun t => (values t.digA, t.lenA.toNat)) = some ([2, 1], 2) := by decide +kernel

/-- Each clause of the statement: IN_CAP + 1 bytes, no byte, one LF, DIG_CAP + 1 digits, a byte just below '0' and one just
above '9', with and without a final LF. -/
theorem test_parse_errors :
    view (exec (.parse .A) { tiny with inLenA := 4#32 }) (fun t => t.errField) = some 2 ∧
    view (exec (.parse .A) (tiny.withNumerals [] [])) (fun t => t.errField) = some 1 ∧
    view (exec (.parse .A) (tiny.withNumerals [0x0A] [])) (fun t => t.errField) = some 1 ∧
    view (exec (.parse .A) (tiny.withNumerals [0x31, 0x32, 0x33] [])) (fun t => t.errField) = some 2 ∧
    view (exec (.parse .A) (tiny.withNumerals [0x31, 0x2F] [])) (fun t => t.errField) = some 1 ∧
    view (exec (.parse .B) (tiny.withNumerals [] [0x3A, 0x0A])) (fun t => t.errField) = some 1 ∧
    (tiny.withNumerals [0x31, 0x2F] []).inMem .A = [(0, 0x31#8), (1, 0x2F#8)] := by decide +kernel

theorem test_render :
    let s := { small with res := cells [8, 8, 0, 6, 5, 0, 0, 0], resLen := 8#32 }
    s.resLen.toNat ≤ s.cfg.resCap ∧ s.res.digits s.resLen.toNat ([8, 8, 0, 6, 5, 0, 0, 0].getD · 0) ∧
    view (exec .render s) (fun t => (values t.out, t.outLen.toNat)) =
      some ([0x35, 0x36, 0x30, 0x38, 0x38, 0x0A], 6) := by decide +kernel

theorem test_render_zero :
    view (exec .render { small with res := cells [0, 0, 0, 0], resLen := 4#32 }) (fun t => values t.out) =
      some [0x30, 0x0A] := by decide +kernel

/-! ### The pipeline -/

/-- S2: 123 · 456 = 56088. -/
theorem test_mult :
    let s := small.withNumerals [0x31, 0x32, 0x33] [0x34, 0x35, 0x36]
    s.spells .A [1, 2, 3] ∧ s.spells .B [4, 5, 6] ∧ s.err = none ∧
    [1, 2, 3].length + [4, 5, 6].length ≤ s.cfg.nMax ∧ 81 * min [1, 2, 3].length [4, 5, 6].length < modulus ∧
    2 ^ Nat.clog 2 ([1, 2, 3].length + [4, 5, 6].length) ≤ s.cfg.nMax ∧
    view (exec .mult s) (fun t => (values t.out, t.outLen.toNat, values t.bufC, values t.res)) =
      some ([0x35, 0x36, 0x30, 0x38, 0x38, 0x0A], 6, [18, 27, 28, 13, 4, 0, 0, 0], [8, 8, 0, 6, 5, 0, 0, 0]) := by
  have h : Nat.clog 2 ([1, 2, 3].length + [4, 5, 6].length) ≤ 3 := (Nat.clog_le_iff_le_pow (by decide)).2 (by decide)
  refine ⟨by decide +kernel, by decide +kernel, rfl, by decide +kernel, by decide +kernel, ?_, by decide +kernel⟩
  exact le_trans (Nat.pow_le_pow_right (by decide) h) (by decide)

/-- S9, and a sum of lengths above N_MAX (S8): the error code, the opcode, and nothing else changed. -/
theorem test_mult_errors :
    let s := (small.withNumerals [0x31, 0x32, 0x61] [0x35]).latched 0x60000000#32
    let u := (tiny.withNumerals [0x31, 0x32] [0x35]).latched 0x60000000#32
    view (exec .mult s) (fun t => (errors t, t.digA, t.lenA.toNat)) = some ((1, 0x60), [], 0) ∧
    view (exec .mult u) (fun t => (errors t, t.digA, t.lenA.toNat)) = some ((2, 0x60), [], 0) := by decide +kernel

/-- Two states with the same numerals, and one with them swapped, for the independence and commutativity statements. -/
theorem test_witness_mult_pairs :
    let s := small.withNumerals [0x31, 0x32] [0x33, 0x34]
    let u := { s.withDigits [9, 9, 9] [8] with bufC := cells [5, 5], resLen := 1#32, res := cells [7] }
    let v := small.withNumerals [0x33, 0x34] [0x31, 0x32]
    s.cfg = u.cfg ∧ s.err = none ∧ u.err = none ∧ u.inA = s.inA ∧ u.inB = s.inB ∧ u.inLenA = s.inLenA ∧
    u.inLenB = s.inLenB ∧ v.inA = s.inB ∧ v.inB = s.inA ∧ v.inLenA = s.inLenB ∧ v.inLenB = s.inLenA ∧
    view (exec .mult s) (fun t => (values t.out, t.err)) = some ([0x34, 0x30, 0x38, 0x0A], none) ∧
    view (exec .mult u) (fun t => values t.out) = some [0x34, 0x30, 0x38, 0x0A] ∧
    view (exec .mult v) (fun t => values t.out) = some [0x34, 0x30, 0x38, 0x0A] := by decide +kernel

/-! ### Witnesses: the rules over all commands -/

/-- A state with digits, a result and an output that meets the invariant, whose next step goes on. -/
theorem test_witness_invariant :
    let s := { small.withDigits [3, 2, 1] [6] with
      res := cells [5, 0], resLen := 2#32, out := cells [0x35, 0x0A], outLen := 2#32, logn := 4#5, busy := true }
    s.Inv ∧ view (step s) (fun t => t.busy) = some false := by
  refine ⟨?_, by decide +kernel⟩
  constructor <;> decide +kernel

/-- An error with nothing else changed, and a command that stops at an unwritten element. -/
theorem test_witness_precise_errors :
    view (exec (.carry .A) (small.withBufs 0 [modulus] [])) (fun t => (t.err, t.bufA)) =
      some (some .operandRange, [(0, 2013265921#32)]) ∧
    mayRaise .operandRange (.carry .A) = true ∧ mayWrite (.carry .A) .buffers = false ∧
    faultOf (exec (.ntt .B .fwd) small) = some (.unwritten .bufB 0) ∧ small.elemWord .bufB 0 = none := by decide +kernel

theorem test_witness_reset_event :
    { small with todo := [.reset, .sequencer] }.todo = .reset :: [.sequencer] ∧
    view (step { small.withRegs 1 2 3 with todo := [.reset, .sequencer] }) (fun t => ((t.reg 2).toNat, t.todo)) =
      some (0, [.sequencer]) := by decide +kernel

/-- BUSY set by a step: the accepted CMD write. -/
theorem test_witness_busy_is_set :
    let s := { small with todo := [.hostWrite 0x008 0x60000000#32] }
    s.busy = false ∧ view (step s) (fun t => t.busy) = some true := by decide +kernel

end Sys2Proof.Machine
end

section
/-!
PROOFS of the statements about the state (spec/10_state.md) and the host's view of it (spec/20_memory.md): the address
map, the host's accesses and the machine's step, each said once; then the statements themselves.
-/

namespace Sys2Proof.Machine

open Sys2Proof

/-! ### The address map (R70-R72, R76) -/

/-- A region is twice as long as the entries of a field buffer need (R71). -/
theorem stride_eq (c : Config) : c.stride = 8 * c.nMax := by
  rw [Config.stride, Config.nMax, pow_add, mul_comm]; norm_num

/-- The address space is sixteen regions. -/
theorem addrSpace_eq (c : Config) : 2 ^ c.addrWidth = 16 * c.stride := by
  rw [Config.addrWidth, Config.stride, show c.lognMax + 7 = 4 + (c.lognMax + 3) by omega, pow_add]; norm_num

theorem two_pow_le_stride {c : Config} {k : Nat} (h : k ≤ c.lognMax + 3) : 2 ^ k ≤ c.stride :=
  Nat.pow_le_pow_right (by decide) h

/-- The smallest region, at LOGN_MAX = 1, holds the first four control registers. -/
theorem sixteen_le_stride (c : Config) : 16 ≤ c.stride := two_pow_le_stride (k := 4) (by have := c.one_le; omega)

/-- From LOGN_MAX = 4 on a region holds the whole register map. -/
theorem mapSize_le_stride {c : Config} (h : 4 ≤ c.lognMax) : 0x080 ≤ c.stride := two_pow_le_stride (k := 7) (by omega)

/-- Every memory fits its region. -/
theorem capacity_le_stride (c : Config) (m : MemId) : 4 * m.capacity c ≤ c.stride := by
  have h := stride_eq c
  have h16 := sixteen_le_stride c
  cases m <;>
    simp only [MemId.capacity, Config.inCap, Config.digCap, Config.resCap, Config.outCap] <;> omega

/-- The word at offset 4·i of region `k` is the region's element `i`. -/
theorem target_region {c : Config} {k i : Nat} (hk : k < 16) (hi : 4 * i < c.stride) :
    target c (k * c.stride + 4 * i) = regionTarget c k i := by
  have hpos : 0 < c.stride := by omega
  have hin : k * c.stride + 4 * i < 2 ^ c.addrWidth := by
    rw [addrSpace_eq]
    have := Nat.mul_le_mul_right c.stride (show k ≤ 15 by omega)
    omega
  have h4 : (k * c.stride + 4 * i) % 4 = 0 := by
    rw [stride_eq, show k * (8 * c.nMax) + 4 * i = 4 * (2 * (k * c.nMax) + i) by ring]
    exact Nat.mul_mod_right _ _
  have hdiv : (k * c.stride + 4 * i) / c.stride = k := by
    rw [mul_comm, Nat.mul_add_div hpos, Nat.div_eq_of_lt hi, add_zero]
  have hmod : (k * c.stride + 4 * i) % c.stride = 4 * i := by
    rw [mul_comm, Nat.mul_add_mod, Nat.mod_eq_of_lt hi]
  rw [target, if_neg (by omega), hdiv, hmod, Nat.mul_div_cancel_left i (by decide)]

theorem target_eq_none_of_misaligned {c : Config} {addr : Nat} (h : addr % 4 ≠ 0) : target c addr = none := by
  rw [target, if_pos (.inr h)]

/-- An offset of region 0 names what the register map lists there. -/
theorem target_ctrl {c : Config} {off : Nat} (hlt : off < c.stride) (h4 : off % 4 = 0) :
    target c off = (ctrlAt off).map .ctrl := by
  obtain ⟨i, rfl⟩ := Nat.dvd_of_mod_eq_zero h4
  simpa [regionTarget] using target_region (k := 0) (by decide) hlt

/-! ### The regions of the memories and TWROM (R71, R72) -/

theorem regionMem_eq_none_of_le {k : Nat} (h : 10 ≤ k) : regionMem k = none := by
  unfold regionMem
  split
  case h_10 => rfl
  all_goals omega

theorem regionTarget_mem {c : Config} {k i : Nat} {m : MemId} (hm : regionMem k = some m) :
    regionTarget c k i = if i < m.capacity c then some (.elem m i) else none := by
  have h0 : k ≠ 0 := by rintro rfl; cases hm
  have h10 : k ≠ 10 := by rintro rfl; cases hm
  rw [regionTarget, if_neg h0, if_neg h10, hm]

/-- The elements of the memory of region `k` lie from the region's start, and nothing beyond its last one. -/
theorem target_mem (c : Config) (k : Nat) (m : MemId) (hm : regionMem k = some m) (i : Nat) :
    (i < m.capacity c → target c (k * c.stride + 4 * i) = some (.elem m i)) ∧
      (m.capacity c ≤ i → 4 * i < c.stride → target c (k * c.stride + 4 * i) = none) := by
  have hk : k < 16 := by
    by_contra hk
    rw [regionMem_eq_none_of_le (by omega)] at hm
    cases hm
  refine ⟨fun hi => ?_, fun hi hlt => ?_⟩
  · have hcap := capacity_le_stride c m
    rw [target_region hk (by omega), regionTarget_mem hm, if_pos hi]
  · rw [target_region hk hlt, regionTarget_mem hm, if_neg (by omega)]

/-- TWROM is region 10: 32 forward entries, then 32 inverse ones. -/
theorem target_rom {c : Config} {i : Nat} (hi : 4 * i < c.stride) :
    target c (10 * c.stride + 4 * i) =
      if i < 64 then some (.rom (if i < 32 then .fwd else .inv) (i % 32)) else none :=
  target_region (by decide) hi

/-- Nothing is mapped from region 11 on. -/
theorem target_eq_none_of_le {c : Config} {addr : Nat} (h : 11 * c.stride ≤ addr) : target c addr = none := by
  have hpos : 0 < c.stride := Nat.two_pow_pos _
  have hk : 11 ≤ addr / c.stride := (Nat.le_div_iff_mul_le hpos).2 h
  rw [target]
  split
  · rfl
  · rw [regionTarget, if_neg (by omega), if_neg (by omega), regionMem_eq_none_of_le (by omega)]

theorem regionTarget_elem_lt {c : Config} {k j i : Nat} {m : MemId} (h : regionTarget c k j = some (.elem m i)) :
    i < m.capacity c := by
  by_cases h0 : k = 0
  · subst h0; simp [regionTarget] at h
  by_cases h10 : k = 10
  · subst h10; rw [regionTarget, if_neg (by decide), if_pos rfl] at h; split at h <;> cases h
  cases hm : regionMem k with
  | none => simp [regionTarget, h0, h10, hm] at h
  | some m' =>
    rw [regionTarget_mem hm] at h
    split at h
    next hj => cases h; exact hj
    next => cases h

/-- Only the elements within a memory's capacity have an address. -/
theorem target_elem_lt {c : Config} {addr : Nat} {m : MemId} {i : Nat} (h : target c addr = some (.elem m i)) :
    i < m.capacity c := by
  unfold target at h
  split at h
  · cases h
  · exact regionTarget_elem_lt h

/-! ### The host's accesses (R77-R79, R352) -/

/-- The test for a race: BUSY = 1 and an access R352 does not list. -/
theorem race_iff {busy listed : Bool} : (busy && !listed) = true ↔ ¬ (busy = false ∨ listed = true) := by
  cases busy <;> cases listed <;> decide

theorem hostRead_eq_next {addr : Nat} {s t : State} :
    hostRead addr s = .next t ↔ ∃ g w, target s.cfg addr = some g ∧ (s.busy = false ∨ g.readableBusy = true) ∧
      s.targetWord g = .ok w ∧ t = { s with replies := w :: s.replies } := by
  unfold hostRead
  cases target s.cfg addr with
  | none => simp
  | some g =>
    simp only [race_iff, Option.some.injEq, exists_eq_left', exists_and_left]
    by_cases hok : s.busy = false ∨ g.readableBusy = true
    · cases hw : s.targetWord g <;> simp [hok, eq_comm (a := t)]
    · simp [hok]

theorem hostWrite_eq_next {addr : Nat} {v : Word} {s t : State} :
    hostWrite addr v s = .next t ↔ ∃ g, target s.cfg addr = some g ∧ (s.busy = false ∨ g.writableBusy = true) ∧
      t = s.writeTarget v g := by
  unfold hostWrite
  cases target s.cfg addr with
  | none => simp
  | some g =>
    simp only [race_iff, Option.some.injEq, exists_eq_left']
    by_cases hok : s.busy = false ∨ g.writableBusy = true
    · simp [hok, eq_comm (a := t)]
    · simp [hok]

theorem hostRead_eq_busError {addr : Nat} {s : State} (h : target s.cfg addr = none) :
    hostRead addr s = .fault (.busError addr) := by
  rw [hostRead, h]

/-- A read of a control register the map lists gives its word. -/
theorem hostRead_ctrl {s : State} {off : Nat} {r : CtrlReg}
    (hb : s.busy = false ∨ (Target.ctrl r).readableBusy = true) (hlt : off < s.cfg.stride) (h4 : off % 4 = 0)
    (hr : ctrlAt off = some r) : hostRead off s = .next { s with replies := s.ctrlWord r :: s.replies } :=
  hostRead_eq_next.2 ⟨.ctrl r, _, by rw [target_ctrl hlt h4, hr]; rfl, hb, rfl, rfl⟩

/-- A write to a control register the map lists is that register's write. -/
theorem hostWrite_ctrl {s : State} {off : Nat} {r : CtrlReg} {v : Word}
    (hb : s.busy = false ∨ (Target.ctrl r).writableBusy = true) (hlt : off < s.cfg.stride) (h4 : off % 4 = 0)
    (hr : ctrlAt off = some r) : hostWrite off v s = .next (s.writeCtrl v r) :=
  hostWrite_eq_next.2 ⟨.ctrl r, by rw [target_ctrl hlt h4, hr]; rfl, hb, rfl⟩

theorem clear_keeps_errors (s : State) {v : Word} (hv : v.getLsbD 0 = false) :
    (s.clear v).err = s.err ∧ (s.clear v).errOp = s.errOp := by
  rw [State.clear_err, State.clear_errOp, hv]; exact ⟨rfl, rfl⟩

theorem clear_clears_errors (s : State) {v : Word} (hv : v.getLsbD 0 = true) :
    (s.clear v).err = none ∧ (s.clear v).errOp = 0 := by
  rw [State.clear_err, State.clear_errOp, hv]; exact ⟨rfl, rfl⟩

/-- Only CMD and CLEAR writes touch STATUS. -/
theorem writeTarget_keeps_status {s : State} {v : Word} {g : Target} (hcmd : g ≠ .ctrl .cmd)
    (hclear : g ≠ .ctrl .clear) :
    (s.writeTarget v g).busy = s.busy ∧ (s.writeTarget v g).err = s.err ∧ (s.writeTarget v g).errOp = s.errOp := by
  cases g with
  | ctrl r =>
    cases r with
    | cmd => exact absurd rfl hcmd
    | clear => exact absurd rfl hclear
    | _ => exact ⟨rfl, rfl, rfl⟩
  | elem m i => cases m <;> exact ⟨rfl, rfl, rfl⟩
  | rom d k => exact ⟨rfl, rfl, rfl⟩

/-! ### One step, case by case (R303, R350) -/

/-- A step is one event: the next of the interleaving, or with none left the sequencer's turn. -/
theorem step_eq_runEvent {s : State} {r : Result} (h : step s = r) :
    ∃ e rest, (s.todo = e :: rest ∨ s.todo = [] ∧ e = .sequencer ∧ rest = []) ∧
      runEvent e { s with todo := rest } = r := by
  unfold step runNext at h
  split at h
  next e rest he => exact ⟨e, rest, .inl he, h⟩
  next he =>
    refine ⟨.sequencer, [], .inr ⟨he, rfl, rfl⟩, ?_⟩
    rw [← he]; exact h

theorem step_of_todo {s : State} {e : Event} {rest : List Event} (h : s.todo = e :: rest) :
    step s = runEvent e { s with todo := rest } := by
  rw [step, runNext, h]

/-- What a turn of the sequencer can do: nothing, or with BUSY = 1 drop the command, refuse its word, or execute it. -/
theorem sequencerTurn_eq_next {s t : State} (h : sequencerTurn s = .next t) :
    (s.busy = false ∧ t = s) ∨
      (s.busy = true ∧ s.err ≠ none ∧ t = { s with busy := false }) ∨
      (s.busy = true ∧ s.err = none ∧ (t = s.raise .illegal ∨ ∃ i, decode s.pend = .ok i ∧ exec i s = .next t)) := by
  unfold sequencerTurn at h
  split at h
  next hb =>
    unfold runPending at h
    split at h
    next c he => exact .inr (.inl ⟨hb, by simp [he], by simpa using h.symm⟩)
    next he =>
      split at h
      next => exact .inr (.inr ⟨hb, he, .inl (by simpa using h.symm)⟩)
      next i hi => exact .inr (.inr ⟨hb, he, .inr ⟨i, hi, h⟩⟩)
  next hb => exact .inl ⟨by simpa using hb, by simpa using h.symm⟩

/-! ### The invariant over one step -/

theorem Mem.fits_nil {w : Nat} (cap : Nat) : Mem.fits ([] : Mem w) cap := ⟨.nil, nofun⟩

theorem Mem.full_zero {w : Nat} (m : Mem w) : m.full 0 := fun i hi => absurd hi (Nat.not_lt_zero i)

/-- After reset no memory has an element, and every length is 0. -/
theorem inv_resetWith (c : Config) : (State.resetWith c).Inv where
  logn_le := Nat.zero_le _
  errOp_clear _ := rfl
  inA_fits := Mem.fits_nil _
  inB_fits := Mem.fits_nil _
  digA_fits := Mem.fits_nil _
  digB_fits := Mem.fits_nil _
  digA_decimal := nofun
  digB_decimal := nofun
  lenA_le := Nat.zero_le _
  lenB_le := Nat.zero_le _
  digA_full := Mem.full_zero _
  digB_full := Mem.full_zero _
  bufA_fits := Mem.fits_nil _
  bufB_fits := Mem.fits_nil _
  bufC_fits := Mem.fits_nil _
  res_fits := Mem.fits_nil _
  res_decimal := nofun
  resLen_le := Nat.zero_le _
  res_full := Mem.full_zero _
  out_fits := Mem.fits_nil _
  outLen_le := Nat.zero_le _
  out_full := Mem.full_zero _

/-- A command that ends well keeps the invariant. -/
theorem effect_keeps_inv {i : Instr} {s t : State} (hs : s.Inv) (h : effect i s = .ok t) : t.Inv := by
  cases i with
  | nop => cases h; exact hs
  | ldi ra imm => cases h; exact hs.setReg _ _
  | ldw ra rb bs => obtain ⟨-, v, -, rfl⟩ := ldwEffect_eq_ok.1 h; exact hs.setReg _ _
  | stw ra rb bs =>
    obtain ⟨hi, -, rfl⟩ := stwEffect_eq_ok.1 h
    exact hs.setBuf bs (Mem.fits_write _ (hs.buf_fits bs) hi)
  | madd ra rb rc => obtain ⟨-, -, rfl⟩ := binaryField_eq_ok.1 h; exact hs.setReg _ _
  | msub ra rb rc => obtain ⟨-, -, rfl⟩ := binaryField_eq_ok.1 h; exact hs.setReg _ _
  | mmul ra rb rc => obtain ⟨-, -, rfl⟩ := binaryField_eq_ok.1 h; exact hs.setReg _ _
  | mpow ra rb rc => obtain ⟨-, rfl⟩ := mpowEffect_eq_ok.1 h; exact hs.setReg _ _
  | minv ra rb => obtain ⟨-, rfl⟩ := minvEffect_eq_ok.1 h; exact hs.setReg _ _
  | mred ra rb => cases h; exact hs.setReg _ _
  | bfly ra rb rc => obtain ⟨-, -, -, rfl⟩ := bflyEffect_eq_ok.1 h; exact (hs.setReg _ _).setReg _ _
  | rootw ra rb d => obtain ⟨-, rfl⟩ := rootwEffect_eq_ok.1 h; exact hs.setReg _ _
  | twid ra rb rc d => obtain ⟨-, rfl⟩ := twidEffect_eq_ok.1 h; exact hs.setReg _ _
  | bitrev b => exact hs.bitrevEffect h
  | ntt b d => exact hs.nttEffect h
  | setn ra => exact hs.setnEffect h
  | pad => exact hs.padEffect h
  | pmul b0 b1 b2 => exact hs.pmulEffect h
  | conv => exact hs.convEffect h
  | carry b => exact hs.carryEffect h
  | parse k => exact hs.parseEffect h
  | render => exact hs.renderEffect h
  | mult => exact hs.multEffect h

/-- A command that raises an error keeps it too: its writes are discarded. -/
theorem exec_keeps_inv {i : Instr} {s t : State} (hs : s.Inv) (h : exec i s = .next t) : t.Inv := by
  rw [exec_eq, finish_eq_next] at h
  obtain ⟨u, hu, rfl⟩ | ⟨c, -, rfl⟩ := h
  · exact (effect_keeps_inv hs hu).idle
  · exact hs.raise c

theorem writeElem_keeps_inv {s : State} (hs : s.Inv) (v : Word) {m : MemId} {i : Nat} (hi : i < m.capacity s.cfg) :
    (s.writeElem v i m).Inv := by
  cases m with
  | inA => exact { hs with inA_fits := Mem.fits_write _ hs.inA_fits hi }
  | inB => exact { hs with inB_fits := Mem.fits_write _ hs.inB_fits hi }
  | bufA => exact { hs with bufA_fits := Mem.fits_write _ hs.bufA_fits hi }
  | bufB => exact { hs with bufB_fits := Mem.fits_write _ hs.bufB_fits hi }
  | bufC => exact { hs with bufC_fits := Mem.fits_write _ hs.bufC_fits hi }
  | digA | digB | res | out => exact hs

theorem writeCtrl_keeps_inv {s : State} (hs : s.Inv) (v : Word) (r : CtrlReg) : (s.writeCtrl v r).Inv := by
  cases r with
  | cmd =>
    show (s.issue v).Inv
    unfold State.issue
    split
    · exact { hs with }
    · exact { hs with }
  | clear =>
    refine { hs with errOp_clear := fun h => ?_ }
    cases hv : v.getLsbD 0 with
    | false =>
      obtain ⟨herr, hop⟩ := clear_keeps_errors s hv
      exact hop.trans (hs.errOp_clear (herr.symm.trans h))
    | true => exact (clear_clears_errors s hv).2
  | inLenA | inLenB => exact { hs with }
  | xLo k | xHi k => exact hs.setReg _ _
  | id | status | mod | root | nmax | logn | nsize | lenA | lenB | resLen | outLen => exact hs

theorem writeTarget_keeps_inv {s : State} (hs : s.Inv) (v : Word) {addr : Nat} {g : Target}
    (hg : target s.cfg addr = some g) : (s.writeTarget v g).Inv := by
  cases g with
  | ctrl r => exact writeCtrl_keeps_inv hs v r
  | elem m i => exact writeElem_keeps_inv hs v (target_elem_lt hg)
  | rom d k => exact hs

theorem runEvent_keeps_inv {e : Event} {s t : State} (hs : s.Inv) (h : runEvent e s = .next t) : t.Inv := by
  cases e with
  | hostRead addr => obtain ⟨g, w, -, -, -, rfl⟩ := hostRead_eq_next.1 h; exact { hs with }
  | hostWrite addr v => obtain ⟨g, hg, -, rfl⟩ := hostWrite_eq_next.1 h; exact writeTarget_keeps_inv hs v hg
  | sequencer =>
    obtain ⟨-, rfl⟩ | ⟨-, -, rfl⟩ | ⟨-, -, rfl | ⟨i, -, hi⟩⟩ := sequencerTurn_eq_next h
    · exact hs
    · exact hs.idle
    · exact hs.raise _
    · exact exec_keeps_inv hs hi
  | reset => cases h; exact { inv_resetWith s.cfg with }

/-! ### CMD writes and the sequencer (R36, R100) -/

theorem issue_of_idle {s : State} (w : Word) (h : s.busy = false) :
    s.issue w = { s with cmdLast := w, pend := w, busy := true } := by
  simp [State.issue, h]

theorem issue_of_busy {s : State} (w : Word) (h : s.busy = true) :
    s.issue w = { s with cmdLast := w, ovr := true } := by
  simp [State.issue, h]

/-- CMD lies in region 0 at every LOGN_MAX and takes a write at any time. -/
theorem hostWrite_cmd (s : State) (w : Word) : hostWrite 0x008 w s = .next (s.issue w) :=
  hostWrite_ctrl (.inr rfl) ((by decide : 0x008 < 16).trans_le (sixteen_le_stride s.cfg)) rfl rfl

theorem hostRead_cmd (s : State) : hostRead 0x008 s = .next { s with replies := s.cmdLast :: s.replies } :=
  hostRead_ctrl (r := .cmd) (.inr rfl) ((by decide : 0x008 < 16).trans_le (sixteen_le_stride s.cfg)) rfl rfl

theorem sequencerTurn_of_legal {s : State} {i : Instr} (hb : s.busy = true) (he : s.err = none)
    (hd : decode s.pend = .ok i) : sequencerTurn s = exec i s := by
  simp [sequencerTurn, runPending, hb, he, hd]

/-! ### The STATUS word (R35) -/

theorem errField_lt (s : State) : s.errField < 16 := by
  unfold State.errField
  split
  · decide
  next c _ => cases c <;> decide

/-- The fields of STATUS do not overlap, so their sum is the word's value. -/
theorem statusWord_toNat (s : State) :
    s.statusWord.toNat = s.errField + s.busy.toNat * 2 ^ 8 + s.ovr.toNat * 2 ^ 9 + s.errOp.toNat * 2 ^ 16 := by
  have he := errField_lt s
  have hb := s.busy.toNat_lt
  have ho := s.ovr.toNat_lt
  have hp := s.errOp.isLt
  rw [State.statusWord, BitVec.toNat_ofNat, Nat.mod_eq_of_lt (by omega)]

theorem getLsbD_statusWord {s : State} {k : Nat} {b : Bool}
    (h : (s.errField + s.busy.toNat * 2 ^ 8 + s.ovr.toNat * 2 ^ 9 + s.errOp.toNat * 2 ^ 16) / 2 ^ k % 2 = b.toNat) :
    s.statusWord.getLsbD k = b := by
  rw [← BitVec.testBit_toNat, Nat.testBit_eq_decide_div_mod_eq, statusWord_toNat, h]
  cases b <;> rfl

/-! ### The register map (R34) -/

theorem ctrlAt_xLo : ∀ k : Reg, ctrlAt (0x040 + 8 * k.val) = some (.xLo k) := by decide

theorem ctrlAt_xHi : ∀ k : Reg, ctrlAt (0x044 + 8 * k.val) = some (.xHi k) := by decide

/-- The map ends at offset 0x080. -/
theorem ctrlAt_eq_none_of_le {off : Nat} (h : 0x080 ≤ off) : ctrlAt off = none := by
  unfold ctrlAt
  split
  case h_16 => rw [if_neg (by omega)]
  all_goals omega

theorem xLo_word (x : XReg) : x.extractLsb' 0 32 = BitVec.ofNat 32 x.toNat :=
  BitVec.eq_of_toNat_eq (by simp)

theorem xHi_word (x : XReg) : x.extractLsb' 32 32 = BitVec.ofNat 32 (x.toNat / 2 ^ 32) :=
  BitVec.eq_of_toNat_eq (by simp [Nat.shiftRight_eq_div_pow])

/-- One half of a register's new value is the written word (R353). -/
theorem toNat_append_words (hi lo : Word) : (hi ++ lo : XReg).toNat = hi.toNat * 2 ^ 32 + lo.toNat := by
  rw [BitVec.toNat_append, ← Nat.shiftLeft_add_eq_or_of_lt lo.isLt, Nat.shiftLeft_eq]

/-! ### Elements after a host write (R74, R78, R87) -/

/-- What the host may write elements of (R33, R72). -/
abbrev hostMems : List MemId := [.inA, .inB, .bufA, .bufB, .bufC]

/-- What a memory keeps of a written word (R74). -/
def MemId.kept (m : MemId) (v : Word) : Word := if m = .inA ∨ m = .inB then BitVec.ofNat 32 (v.toNat % 2 ^ 8) else v

theorem setWidth_byte (v : Word) : (v.setWidth 8).setWidth 32 = BitVec.ofNat 32 (v.toNat % 2 ^ 8) :=
  BitVec.eq_of_toNat_eq (by simp)

theorem elemWord_writeElem_same (s : State) (v : Word) (i : Nat) {m : MemId} (hm : m ∈ hostMems) :
    (s.writeElem v i m).elemWord m i = some (m.kept v) := by
  cases m with
  | inA | inB => simpa [State.writeElem, State.elemWord, MemId.kept] using setWidth_byte v
  | bufA | bufB | bufC => simp [State.writeElem, State.elemWord, MemId.kept]
  | digA | digB | res | out => simp at hm

theorem elemWord_writeElem_ne (s : State) (v : Word) {i j : Nat} {m m' : MemId} (h : (m', j) ≠ (m, i)) :
    (s.writeElem v i m).elemWord m' j = s.elemWord m' j := by
  have hj : m' = m → j ≠ i := fun hm hj => h (by rw [hm, hj])
  cases m with
  | inA | inB | bufA | bufB | bufC => cases m' <;> simp [State.writeElem, State.elemWord, Mem.read_write, hj]
  | digA | digB | res | out => rfl

/-- A write of an element touches the five memories the host may write, and nothing else. -/
theorem writeElem_frame (s : State) (v : Word) (i : Nat) (m : MemId) :
    s.writeElem v i m = { s with
      inA := (s.writeElem v i m).inA, inB := (s.writeElem v i m).inB, bufA := (s.writeElem v i m).bufA,
      bufB := (s.writeElem v i m).bufB, bufC := (s.writeElem v i m).bufC } := by
  cases m <;> rfl

@[simp] theorem writeElem_cfg (s : State) (v : Word) (i : Nat) (m : MemId) : (s.writeElem v i m).cfg = s.cfg := by
  cases m <;> rfl

@[simp] theorem writeElem_busy (s : State) (v : Word) (i : Nat) (m : MemId) : (s.writeElem v i m).busy = s.busy := by
  cases m <;> rfl

/-! ### The end of a command and PMUL's checks (R47, R232, R302) -/

theorem State.agrees_idle {s t : State} {p : Part} (h : s.agrees t p) : s.agrees { t with busy := false } p := by
  cases p <;> exact h

theorem State.agrees_raise (s : State) (c : ErrCode) (p : Part) : s.agrees (s.raise c) p := by
  cases p <;> simp [State.agrees]

/-- PMUL stops at the first index where a source entry does not pass its check, the first source before the second. -/
theorem productList_stops {s : State} {bx bY : Buf} {e : Stop} {count i j : Nat} (hj : j < count)
    (hx : ∀ k < j, ∃ u, fieldElem (bufId bx) (s.buf bx) (i + k) = .ok u)
    (hy : ∀ k < j, ∃ v, fieldElem (bufId bY) (s.buf bY) (i + k) = .ok v)
    (h : fieldElem (bufId bx) (s.buf bx) (i + j) = .error e ∨
      ∃ u, fieldElem (bufId bx) (s.buf bx) (i + j) = .ok u ∧ fieldElem (bufId bY) (s.buf bY) (i + j) = .error e) :
    productList bx bY s count i = .error e := by
  induction count generalizing i j with
  | zero => omega
  | succ count ih =>
    cases j with
    | zero =>
      obtain h | ⟨u, hu, h⟩ := h
      · rw [add_zero] at h; rw [productList, h, error_bind]
      · rw [add_zero] at hu h; rw [productList, hu, ok_bind, h, error_bind]
    | succ j =>
      obtain ⟨u, hu⟩ := hx 0 (by omega)
      obtain ⟨v, hv⟩ := hy 0 (by omega)
      have hsh : ∀ k, i + (k + 1) = i + 1 + k := fun k => by omega
      have hrest : productList bx bY s count (i + 1) = .error e :=
        ih (by omega) (fun k hk => hsh k ▸ hx (k + 1) (by omega)) (fun k hk => hsh k ▸ hy (k + 1) (by omega))
          (hsh j ▸ h)
      rw [add_zero] at hu hv
      rw [productList, hu, ok_bind, hv, ok_bind, hrest, error_bind]

theorem Mem.fields.fieldElem {id : MemId} {m : Mem 32} {n : Nat} {f : Nat → Nat} (h : m.fields n f) :
    ∀ k < n, ∃ u, fieldElem id m (0 + k) = .ok u := fun k hk => by
  rw [Nat.zero_add]; exact ⟨f k, fieldElem_eq_ok.2 (h k hk)⟩

/-! ### The statements -/

/-- Settles O9, event by event: a host write stays within the memory it names, and every command keeps the invariant. -/
theorem everyStepKeepsInv : Obligations.EveryStepKeepsInv := by
  intro s t hs h
  obtain ⟨e, rest, -, h⟩ := step_eq_runEvent h
  exact runEvent_keeps_inv (s := { s with todo := rest }) { hs with } h

/-- Settles O12: the write latches the word, and the turn after it finds BUSY = 1, ERR = 0 and a legal PEND. -/
theorem cmdWriteThenTurnRunsTheCommand : Obligations.CmdWriteThenTurnRunsTheCommand := by
  intro s w i rest hb he hd htodo
  refine ⟨_, ?_, rfl, ?_⟩
  · rw [step_of_todo htodo]
    exact (hostWrite_cmd _ w).trans (congrArg _ (issue_of_idle w hb))
  · rw [step_of_todo rfl]
    exact sequencerTurn_of_legal rfl he hd

/-- Settles O13: of all events only a CMD write can set BUSY. -/
theorem busyIsSetOnlyByCmdWrite : Obligations.BusyIsSetOnlyByCmdWrite := by
  intro s t h hs ht
  obtain ⟨e, rest, htodo, h⟩ := step_eq_runEvent h
  have hne : t.busy ≠ s.busy := by rw [hs, ht]; decide
  cases e with
  | hostRead addr =>
    obtain ⟨g, w, -, -, -, rfl⟩ := hostRead_eq_next.1 h
    exact absurd rfl hne
  | hostWrite addr v =>
    obtain ⟨g, hg, -, rfl⟩ := hostWrite_eq_next.1 h
    have hcmd : g = .ctrl .cmd := by
      by_contra hcmd
      by_cases hclear : g = .ctrl .clear
      · subst hclear; exact hne rfl
      · exact hne (writeTarget_keeps_status hcmd hclear).1
    subst hcmd
    refine ⟨addr, v, rest, by simpa using htodo, hg, ?_⟩
    simp [State.writeTarget, State.writeCtrl, hs]
  | sequencer =>
    obtain ⟨-, rfl⟩ | ⟨hb, -⟩ | ⟨hb, -⟩ := sequencerTurn_eq_next h
    · exact absurd rfl hne
    · exact absurd (hb.symm.trans hs) (by decide)
    · exact absurd (hb.symm.trans hs) (by decide)
  | reset => cases h; cases ht

/-- Settles O14: with ERR ≠ 0 the sequencer drops the command, and of the host's writes only CLEAR touches ERR. -/
theorem errorsStayUntilCleared : Obligations.ErrorsStayUntilCleared := by
  intro s t c h hs
  obtain ⟨e, rest, htodo, h⟩ := step_eq_runEvent h
  cases e with
  | hostRead addr =>
    obtain ⟨g, w, -, -, -, rfl⟩ := hostRead_eq_next.1 h
    exact .inl ⟨hs, rfl⟩
  | hostWrite addr v =>
    obtain ⟨g, hg, -, rfl⟩ := hostWrite_eq_next.1 h
    by_cases hclear : g = .ctrl .clear
    · subst hclear
      cases hv : v.getLsbD 0 with
      | false =>
        obtain ⟨herr, hop⟩ := clear_keeps_errors { s with todo := rest } hv
        exact .inl ⟨herr.trans hs, hop⟩
      | true =>
        exact .inr ⟨rest, .inr ⟨addr, v, by simpa using htodo, hv, hg, clear_clears_errors _ hv⟩⟩
    · left
      by_cases hcmd : g = .ctrl .cmd
      · subst hcmd; simp [State.writeTarget, State.writeCtrl, hs]
      · obtain ⟨-, herr, hop⟩ := writeTarget_keeps_status (v := v) (s := { s with todo := rest }) hcmd hclear
        exact ⟨herr.trans hs, hop⟩
  | sequencer =>
    obtain ⟨-, rfl⟩ | ⟨-, -, rfl⟩ | ⟨-, he, -⟩ := sequencerTurn_eq_next h
    · exact .inl ⟨hs, rfl⟩
    · exact .inl ⟨hs, rfl⟩
    · exact absurd (hs.symm.trans he) (by simp)
  | reset => exact .inr ⟨rest, .inl (by simpa using htodo)⟩

/-- Settles O17: the word's value is the sum of its shifted fields, none of which reaches the next. -/
theorem statusReadGivesItsFields : Obligations.StatusReadGivesItsFields := by
  intro s
  have he := errField_lt s
  have hb := s.busy.toNat_lt
  have ho := s.ovr.toNat_lt
  have hp := s.errOp.isLt
  refine ⟨s.statusWord, hostRead_ctrl (r := .status) (.inr rfl)
    ((by decide : 0x004 < 16).trans_le (sixteen_le_stride s.cfg)) rfl rfl, ?_, ?_, ?_, ?_, fun k hk => ?_⟩
  · rw [statusWord_toNat]; omega
  · exact getLsbD_statusWord (by omega)
  · exact getLsbD_statusWord (by omega)
  · rw [statusWord_toNat]; omega
  · refine getLsbD_statusWord ?_
    rw [Bool.toNat_false]
    obtain ⟨h1, h2⟩ | ⟨h1, h2⟩ | ⟨h1, h2⟩ := hk <;> interval_cases k <;> omega

/-- Settles O18: each offset of R34 names its register, and no other offset of region 0 names any. -/
theorem registerMapReads : Obligations.RegisterMapReads := by
  intro s hb h4
  have hmap := mapSize_le_stride h4
  have hread : ∀ off r, off < 0x080 → off % 4 = 0 → ctrlAt off = some r →
      hostRead off s = .next { s with replies := s.ctrlWord r :: s.replies } :=
    fun off r hlt => hostRead_ctrl (.inl hb) (hlt.trans_le hmap)
  refine ⟨?_, fun k => ⟨?_, ?_⟩, fun off hlt hoff => hostRead_eq_busError ?_⟩
  · simp only [List.forall_mem_cons, List.not_mem_nil, false_imp_iff, implies_true, and_true]
    exact ⟨hread _ .id (by decide) rfl rfl, hread _ .status (by decide) rfl rfl, hread _ .cmd (by decide) rfl rfl,
      hread _ .clear (by decide) rfl rfl, hread _ .mod (by decide) rfl rfl, hread _ .root (by decide) rfl rfl,
      hread _ .nmax (by decide) rfl rfl, hread _ .logn (by decide) rfl rfl, hread _ .nsize (by decide) rfl rfl,
      hread _ .inLenA (by decide) rfl rfl, hread _ .inLenB (by decide) rfl rfl, hread _ .lenA (by decide) rfl rfl,
      hread _ .lenB (by decide) rfl rfl, hread _ .resLen (by decide) rfl rfl, hread _ .outLen (by decide) rfl rfl⟩
  · rw [← xLo_word]
    exact hread _ (.xLo k) (by omega) (by omega) (ctrlAt_xLo k)
  · rw [← xHi_word]
    exact hread _ (.xHi k) (by omega) (by omega) (ctrlAt_xHi k)
  · by_cases hal : off % 4 = 0
    · rw [target_ctrl hlt hal]
      obtain rfl | hle | hmis := hoff
      · rfl
      · rw [ctrlAt_eq_none_of_le hle]; rfl
      · exact absurd hal hmis
    · exact target_eq_none_of_misaligned hal

/-- Settles O19: a write to one half of an x register joins the written word to the other half. -/
theorem xWindowWritesOneHalf : Obligations.XWindowWritesOneHalf := by
  intro s k v hb h4
  have hmap := mapSize_le_stride h4
  have hk := k.isLt
  refine ⟨⟨_, hostWrite_ctrl (.inl hb) (by omega) (by omega) (ctrlAt_xLo k), ?_⟩,
    ⟨_, hostWrite_ctrl (.inl hb) (by omega) (by omega) (ctrlAt_xHi k), ?_⟩⟩
  · rw [toNat_append_words, BitVec.extractLsb'_toNat, Nat.shiftRight_eq_div_pow]
    have := (s.reg k).isLt
    omega
  · rw [toNat_append_words, BitVec.extractLsb'_toNat, Nat.shiftRight_zero]

/-- Settles O20: region `k` begins at k·S, and its elements are the memory's. -/
theorem addressMapOfTheMemories : Obligations.AddressMapOfTheMemories := by
  refine ⟨fun c => ⟨?_, ?_, ?_, ?_⟩, fun s d k addr hb hg => ?_⟩
  · simp only [List.forall_mem_cons, List.not_mem_nil, false_imp_iff, implies_true, and_true]
    exact ⟨target_mem c 1 .inA rfl, target_mem c 2 .inB rfl, target_mem c 3 .digA rfl, target_mem c 4 .digB rfl,
      target_mem c 5 .bufA rfl, target_mem c 6 .bufB rfl, target_mem c 7 .bufC rfl, target_mem c 8 .res rfl,
      target_mem c 9 .out rfl⟩
  · simp only [List.forall_mem_cons, List.not_mem_nil, false_imp_iff, implies_true, and_true]
    refine ⟨fun k hk hlt => (target_rom hlt).trans ?_, fun k hk hlt => (target_rom hlt).trans ?_⟩
    · rw [if_pos (by omega), if_pos (by omega), show (32 * 0 + k) % 32 = k by omega]
    · rw [if_pos (by omega), if_neg (by omega), show (32 * 1 + k) % 32 = k by omega]
  · exact fun i hi hlt => (target_rom hlt).trans (if_neg (by omega))
  · rintro addr (h11 | hbig | hmis)
    · exact target_eq_none_of_le h11
    · exact if_pos (.inl hbig)
    · exact target_eq_none_of_misaligned hmis
  · refine hostRead_eq_next.2 ⟨_, _, hg, .inl hb, rfl, ?_⟩
    rw [twiddleRom, stageRoot_eq]

/-- Settles O23: what a memory keeps of a write is what its elements read as, and the other elements stay. -/
theorem hostWriteThenReadReturnsIt : Obligations.HostWriteThenReadReturnsIt := by
  refine ⟨fun s m i addr v hb hm hg => ?_, fun s v hb h3 => ?_⟩
  · refine ⟨s.writeElem v i m, m.kept v, hostWrite_eq_next.2 ⟨_, hg, .inl hb, rfl⟩, rfl, ?_,
      fun m' j h => elemWord_writeElem_ne s v h, writeElem_frame s v i m⟩
    refine hostRead_eq_next.2 ⟨.elem m i, m.kept v, ?_, .inl ?_, ?_, rfl⟩
    · rw [writeElem_cfg]; exact hg
    · rw [writeElem_busy]; exact hb
    · rw [State.targetWord, elemWord_writeElem_same s v i hm]
  · have hlt : 0x02C < s.cfg.stride := (by decide : 0x02C < 2 ^ 6).trans_le (two_pow_le_stride (by omega))
    exact ⟨hostWrite_ctrl (r := .inLenA) (.inl hb) (by omega) rfl rfl,
      hostRead_ctrl (r := .inLenA) (.inl hb) ((by decide : 0x024 < 0x02C).trans hlt) rfl rfl,
      hostWrite_ctrl (r := .inLenB) (.inl hb) (by omega) rfl rfl,
      hostRead_ctrl (r := .inLenB) (.inl hb) ((by decide : 0x028 < 0x02C).trans hlt) rfl rfl⟩

/-- Settles O41: the checked reads of each command stop at entry `j`, and the command's error is theirs. -/
theorem unreducedBufferEntriesRaise : Obligations.UnreducedBufferEntriesRaise := by
  intro s b bd b2 d j w f g hj hf hr hw
  have hlist : fieldList (bufId b) (s.buf b) s.size 0 = .error (.raise .operandRange) :=
    fieldList_raises hj (fun k hk => by rw [Nat.zero_add]; exact hf k hk) (by rwa [Nat.zero_add]) hw
  have helem : fieldElem (bufId b) (s.buf b) (0 + j) = .error (.raise .operandRange) :=
    fieldElem_eq_error.2 (.inr ⟨w, by rwa [Nat.zero_add], hw, rfl⟩)
  refine ⟨?_, ?_, fun hg => ?_, fun hg => ?_⟩
  · rw [exec_eq, effect, nttEffect, hlist]; rfl
  · rw [exec_eq, effect, carryEffect, hlist]; rfl
  · rw [exec_eq, effect, pmulEffect, productList_stops hj hf.fieldElem hg.fieldElem (.inl helem)]; rfl
  · have hg' : (s.buf b2).fields j g := fun k hk => hg k (by omega)
    rw [exec_eq, effect, pmulEffect, productList_stops hj hg'.fieldElem hf.fieldElem
      (.inr ((hg.fieldElem j (by omega)).imp fun u hu => ⟨hu, helem⟩))]
    rfl

/-- Settles O59: a command ends with its effect, whose frame `effect_frame` gives, or with an error, which keeps all. -/
theorem commandsWriteOnlyTheirState : Obligations.CommandsWriteOnlyTheirState := by
  intro i s t h
  rw [exec_eq, finish_eq_next] at h
  obtain ⟨u, hu, rfl⟩ | ⟨c, -, rfl⟩ := h
  · obtain ⟨hfix, hparts⟩ := effect_frame hu
    exact ⟨rfl, hfix.cfg, hfix.inA, hfix.inB, hfix.inLenA, hfix.inLenB, hfix.cmdLast, hfix.pend, hfix.ovr, hfix.todo,
      hfix.replies, fun p hp => State.agrees_idle (hparts p hp)⟩
  · exact ⟨rfl, rfl, rfl, rfl, rfl, rfl, rfl, rfl, rfl, rfl, rfl, fun p _ => s.agrees_raise c p⟩

/-- Settles O8: after reset no memory has an element and every length is 0. -/
theorem invHoldsAtReset : Obligations.InvHoldsAtReset :=
  ⟨inv_resetWith _, inv_resetWith⟩

/-- Settles O15: both cases of the CMD write, and the read back of CMD_LAST. -/
theorem cmdWriteLatchesOrOverruns : Obligations.CmdWriteLatchesOrOverruns := by
  intro s w
  rw [hostWrite_cmd]
  refine ⟨fun hb => by rw [issue_of_busy w hb], fun hb => by rw [issue_of_idle w hb], fun t ht => ?_⟩
  cases ht
  rw [hostRead_cmd, State.issue_cmdLast]

/-- Settles O16: CLEAR takes a write at any time, and its two bits are v mod 2 and v div 2 mod 2. -/
theorem clearWriteClears : Obligations.ClearWriteClears := by
  intro s v
  have h0 : v.getLsbD 0 = decide (v.toNat % 2 = 1) := by
    rw [← BitVec.testBit_toNat, Nat.testBit_eq_decide_div_mod_eq, pow_zero, Nat.div_one]
  have h1 : v.getLsbD 1 = decide (v.toNat / 2 % 2 = 1) := by
    rw [← BitVec.testBit_toNat, Nat.testBit_eq_decide_div_mod_eq, pow_one]
  rw [hostWrite_ctrl (r := .clear) (.inr rfl) ((by decide : 0x00C < 16).trans_le (sixteen_le_stride s.cfg)) rfl rfl]
  simp only [State.writeCtrl, State.clear, h0, h1, decide_eq_true_eq]

/-- Settles O24: the access completes, and what is read-only ignores the word. -/
theorem readOnlyWritesHaveNoEffect : Obligations.ReadOnlyWritesHaveNoEffect := by
  intro s addr v g hb hg hro
  have hkeep : s.writeTarget v g = s := by
    obtain ⟨d, k, rfl⟩ | ⟨m, i, rfl, hm⟩ | ⟨r, hr, rfl⟩ := hro
    · rfl
    · cases m with
      | digA | digB | res | out => rfl
      | inA | inB | bufA | bufB | bufC => simp at hm
    · cases r with
      | cmd | clear | inLenA | inLenB | xLo | xHi => simp at hr
      | _ => rfl
  exact hostWrite_eq_next.2 ⟨g, hg, .inl hb, hkeep.symm⟩

end Sys2Proof.Machine
end

section
/-!
PROOFS of the statements about the host's accesses and the step (spec/20_memory.md R77-R79, spec/70_reset_and_hazards.md
R350, R352): why an access stops, and which addresses are open to the host while BUSY = 1.
-/

namespace Sys2Proof.Machine

open Sys2Proof

/-! ### Control registers by address (R34, R71) -/

theorem regionTarget_ctrl {c : Config} {k i : Nat} {r : CtrlReg} (h : regionTarget c k i = some (.ctrl r)) :
    k = 0 ∧ ctrlAt (4 * i) = some r := by
  by_cases h0 : k = 0
  · subst h0; exact ⟨rfl, by simpa [regionTarget] using h⟩
  by_cases h10 : k = 10
  · subst h10; simp [regionTarget] at h
  cases hm : regionMem k with
  | none => simp [regionTarget, h0, h10, hm] at h
  | some m => simp [regionTarget_mem hm] at h

/-- Region 0, and no other, names control registers, at the offsets of R34. -/
theorem target_eq_ctrl {c : Config} {addr : Nat} {r : CtrlReg} (h : target c addr = some (.ctrl r)) :
    addr < c.stride ∧ ctrlAt addr = some r := by
  unfold target at h
  split at h
  · cases h
  next hin =>
    obtain ⟨hk, hr⟩ := regionTarget_ctrl h
    have hlt : addr < c.stride := (Nat.div_eq_zero_iff.1 hk).resolve_left (Nat.two_pow_pos _).ne'
    rw [Nat.mod_eq_of_lt hlt, Nat.mul_div_cancel' (by omega)] at hr
    exact ⟨hlt, hr⟩

/-- Every mapped address of region 0 names a control register. -/
theorem target_of_lt_stride {c : Config} {addr : Nat} {g : Target} (hlt : addr < c.stride)
    (h : target c addr = some g) : ∃ r, g = .ctrl r ∧ ctrlAt addr = some r := by
  have h4 : addr % 4 = 0 := by
    by_contra hmis
    rw [target_eq_none_of_misaligned hmis] at h
    cases h
  rw [target_ctrl hlt h4, Option.map_eq_some_iff] at h
  obtain ⟨r, hr, rfl⟩ := h
  exact ⟨r, rfl, hr⟩

/-! ### The accesses open while BUSY = 1 (R352) -/

/-- The addresses of ID, STATUS, CMD, MOD, ROOT and NMAX. -/
abbrev busyReads : List Nat := [0x000, 0x004, 0x008, 0x010, 0x014, 0x018]

/-- The addresses of CMD and CLEAR. -/
abbrev busyWrites : List Nat := [0x008, 0x00C]

theorem lt_of_mem_busyReads : ∀ addr ∈ busyReads, addr < 0x020 := by decide

theorem lt_of_mem_busyWrites : ∀ addr ∈ busyWrites, addr < 0x010 := by decide

/-- R352's registers by their offsets in R34; the x window, from 0x040 on, is none of them. -/
theorem ctrlAt_open_while_busy {off : Nat} {r : CtrlReg} (h : ctrlAt off = some r) :
    ((Target.ctrl r).readableBusy = true ↔ off ∈ busyReads) ∧
      ((Target.ctrl r).writableBusy = true ↔ off ∈ busyWrites) := by
  unfold ctrlAt at h
  split at h
  case h_16 =>
    split at h
    next hwin =>
      have hread : off ∉ busyReads := fun hmem => by have := lt_of_mem_busyReads _ hmem; omega
      have hwrite : off ∉ busyWrites := fun hmem => by have := lt_of_mem_busyWrites _ hmem; omega
      split at h
      · cases h; exact ⟨iff_of_false Bool.false_ne_true hread, iff_of_false Bool.false_ne_true hwrite⟩
      · split at h
        · cases h; exact ⟨iff_of_false Bool.false_ne_true hread, iff_of_false Bool.false_ne_true hwrite⟩
        · cases h
    next => cases h
  all_goals cases h; decide

/-- The reads of R352 by address; from LOGN_MAX = 2 on region 0 reaches NMAX, the last of them. -/
theorem readableBusy_iff {c : Config} {addr : Nat} {g : Target} (h2 : 2 ≤ c.lognMax) (hg : target c addr = some g) :
    g.readableBusy = true ↔ addr ∈ busyReads := by
  have hS : 0x020 ≤ c.stride := two_pow_le_stride (k := 5) (by omega)
  constructor
  · intro hr
    cases g with
    | ctrl r =>
      obtain ⟨-, hreg⟩ := target_eq_ctrl hg
      obtain ⟨hread, -⟩ := ctrlAt_open_while_busy hreg
      exact hread.1 hr
    | elem m i => cases hr
    | rom d k => cases hr
  · intro hmem
    have hlt : addr < c.stride := (lt_of_mem_busyReads addr hmem).trans_le hS
    obtain ⟨r, rfl, hreg⟩ := target_of_lt_stride hlt hg
    obtain ⟨hread, -⟩ := ctrlAt_open_while_busy hreg
    exact hread.2 hmem

/-- The writes of R352 by address, at every LOGN_MAX. -/
theorem writableBusy_iff {c : Config} {addr : Nat} {g : Target} (hg : target c addr = some g) :
    g.writableBusy = true ↔ addr ∈ busyWrites := by
  constructor
  · intro hw
    cases g with
    | ctrl r =>
      obtain ⟨-, hreg⟩ := target_eq_ctrl hg
      obtain ⟨-, hwrite⟩ := ctrlAt_open_while_busy hreg
      exact hwrite.1 hw
    | elem m i => cases hw
    | rom d k => cases hw
  · intro hmem
    have hlt : addr < c.stride := (lt_of_mem_busyWrites addr hmem).trans_le (sixteen_le_stride c)
    obtain ⟨r, rfl, hreg⟩ := target_of_lt_stride hlt hg
    obtain ⟨-, hwrite⟩ := ctrlAt_open_while_busy hreg
    exact hwrite.2 hmem

/-! ### The word of a target and the stops of an access (R77-R79, R341) -/

/-- `replies` is the model's own (log entry 3): no target's word depends on it. -/
@[simp] theorem targetWord_replies (s : State) (ws : List Word) (g : Target) :
    { s with replies := ws }.targetWord g = s.targetWord g := by
  cases g with
  | ctrl r => rfl
  | elem m i => rfl
  | rom d k => rfl

/-- A target open to reads while BUSY = 1 always has a word. -/
theorem targetWord_of_readableBusy (s : State) {g : Target} (h : g.readableBusy = true) :
    ∃ w, s.targetWord g = .ok w := by
  cases g with
  | ctrl r => exact ⟨_, rfl⟩
  | elem m i => cases h
  | rom d k => cases h

theorem targetWord_elem_of_written {s : State} {m : MemId} {i v : Nat} (h : s.element m i = some v) :
    s.targetWord (.elem m i) = .ok (BitVec.ofNat 32 v) := by
  rw [State.targetWord, State.elemWord_eq_element, h]; rfl

theorem targetWord_elem_of_unwritten {s : State} {m : MemId} {i : Nat} (h : s.element m i = none) :
    s.targetWord (.elem m i) = .error (.unwritten m i) := by
  rw [State.targetWord, State.elemWord_eq_element, h]; rfl

/-- Why a read stops: no target, a race, or a target without a word. -/
theorem hostRead_eq_fault {addr : Nat} {s : State} {f : Fault} :
    hostRead addr s = .fault f ↔ (target s.cfg addr = none ∧ f = .busError addr) ∨
      ∃ g, target s.cfg addr = some g ∧
        (¬ (s.busy = false ∨ g.readableBusy = true) ∧ f = .hostRace addr ∨
          (s.busy = false ∨ g.readableBusy = true) ∧ s.targetWord g = .error f) := by
  unfold hostRead
  cases target s.cfg addr with
  | none => simp [eq_comm (a := f)]
  | some g =>
    simp only [race_iff, Option.some.injEq, exists_eq_left', reduceCtorEq, false_and, false_or]
    by_cases hok : s.busy = false ∨ g.readableBusy = true
    · cases hw : s.targetWord g <;> simp [hok]
    · simp [hok, eq_comm (a := f)]

/-- Why a write stops: no target, or a race. -/
theorem hostWrite_eq_fault {addr : Nat} {v : Word} {s : State} {f : Fault} :
    hostWrite addr v s = .fault f ↔ (target s.cfg addr = none ∧ f = .busError addr) ∨
      ∃ g, target s.cfg addr = some g ∧ ¬ (s.busy = false ∨ g.writableBusy = true) ∧ f = .hostRace addr := by
  unfold hostWrite
  cases target s.cfg addr with
  | none => simp [eq_comm (a := f)]
  | some g =>
    simp only [race_iff, Option.some.injEq, exists_eq_left', reduceCtorEq, false_and, false_or]
    by_cases hok : s.busy = false ∨ g.writableBusy = true
    · simp [hok]
    · simp [hok, eq_comm (a := f)]

/-- A write never stops as a bus error but where nothing is mapped. -/
theorem hostWrite_eq_busError_iff {addr : Nat} {v : Word} {s : State} :
    hostWrite addr v s = .fault (.busError addr) ↔ target s.cfg addr = none := by
  simp [hostWrite_eq_fault]

/-! ### The turns of a step (R315, R350) -/

theorem step_of_todo_nil {s : State} (h : s.todo = []) : step s = sequencerTurn s := by
  rw [step, runNext, h]

theorem sequencerTurn_of_idle {s : State} (h : s.busy = false) : sequencerTurn s = .next s := by
  simp [sequencerTurn, h]

/-! ### The statements -/

/-- Settles O21: R352's accesses by address, and of the stops of an access the bus error alone has no target. -/
theorem busErrorsAndRaces : Obligations.BusErrorsAndRaces := by
  intro s addr v
  refine ⟨⟨fun h => ⟨hostRead_eq_busError h, hostWrite_eq_busError_iff.2 h⟩, fun h => hostWrite_eq_busError_iff.1 h.2⟩,
    fun hb h2 hmapped => ?_⟩
  obtain ⟨g, hg⟩ := Option.ne_none_iff_exists'.1 hmapped
  rw [← readableBusy_iff h2 hg, ← writableBusy_iff hg]
  refine ⟨fun hr => ?_, fun hr => ?_, fun hw => ?_, fun hw => ?_⟩
  · obtain ⟨w, hword⟩ := targetWord_of_readableBusy s hr
    exact ⟨_, hostRead_eq_next.2 ⟨g, w, hg, .inr hr, hword, rfl⟩⟩
  · exact hostRead_eq_fault.2 (.inr ⟨g, hg, .inl ⟨by simp [hb, hr], rfl⟩⟩)
  · exact ⟨_, hostWrite_eq_next.2 ⟨g, hg, .inr hw, rfl⟩⟩
  · exact hostWrite_eq_fault.2 (.inr ⟨g, hg, by simp [hb, hw], rfl⟩)

/-- Settles O22: a target's word does not depend on the replies, and an element's word is its number or none. -/
theorem hostReadHasNoSideEffect : Obligations.HostReadHasNoSideEffect := by
  refine ⟨fun s t addr h => ?_, fun s m i addr hb hg => ⟨fun v hv => ?_, fun hnone => ?_⟩⟩
  · obtain ⟨g, w, hg, hopen, hw, rfl⟩ := hostRead_eq_next.1 h
    exact ⟨w, rfl, hostRead_eq_next.2 ⟨g, w, hg, hopen, (targetWord_replies s _ g).trans hw, rfl⟩⟩
  · refine ⟨BitVec.ofNat 32 v, ?_, hostRead_eq_next.2 ⟨_, _, hg, .inl hb, targetWord_elem_of_written hv, rfl⟩⟩
    rw [BitVec.toNat_ofNat, Nat.mod_eq_of_lt (State.element_lt hv)]
  · exact hostRead_eq_fault.2 (.inr ⟨_, hg, .inr ⟨.inl hb, targetWord_elem_of_unwritten hnone⟩⟩)

/-- Settles O11: the step is the turn, and taking the turn off the interleaving leaves BUSY, ERR and PEND. -/
theorem stepRunsTheDecodedCommand : Obligations.StepRunsTheDecodedCommand := by
  refine fun s => ⟨fun i hb he hd => ⟨fun rest h => ?_, fun h => ?_⟩, fun hb => ⟨fun rest h => ?_, fun h => ?_⟩,
    fun rest h => step_of_todo h, step_of_todo_nil, fun addr rest h => step_of_todo h,
    fun addr v rest h => step_of_todo h⟩
  · exact (step_of_todo h).trans (sequencerTurn_of_legal hb he hd)
  · exact (step_of_todo_nil h).trans (sequencerTurn_of_legal hb he hd)
  · exact (step_of_todo h).trans (sequencerTurn_of_idle hb)
  · exact (step_of_todo_nil h).trans (sequencerTurn_of_idle hb)

end Sys2Proof.Machine
end

section
/-!
PROOFS of the statements about the command word (spec/30_encoding.md): the decoder and the encoder read and write the
same digits of the word's number, and legality is what the decoder checks; then the statements themselves.
-/

namespace Sys2Proof.Machine

open Sys2Proof Sys2Proof.Laws

/-! ### The fields of a word as digits of its number (R100, R102-R105) -/

theorem toNat_opcodeOf (w : Word) : (opcodeOf w).toNat = w.toNat / 2 ^ 24 := by
  rw [opcodeOf, BitVec.extractLsb'_toNat, Nat.shiftRight_eq_div_pow]
  omega

theorem extractLsb'_eq_iff {w : Word} {lo len : Nat} {v : BitVec len} :
    w.extractLsb' lo len = v ↔ w.toNat / 2 ^ lo % 2 ^ len = v.toNat := by
  rw [← BitVec.toNat_inj, BitVec.extractLsb'_toNat, Nat.shiftRight_eq_div_pow]

theorem val_regField (w : Word) (lo : Nat) : (regField w lo).val = w.toNat / 2 ^ lo % 8 := by
  simp [regField, Nat.shiftRight_eq_div_pow]

theorem bufField_eq_ok_iff {w : Word} {lo : Nat} {b : Buf} :
    bufField w lo = .ok b ↔ w.toNat / 2 ^ lo % 4 = b.code := by
  rw [bufField, BitVec.extractLsb'_toNat, Nat.shiftRight_eq_div_pow]
  split <;> cases b <;> simp_all [Buf.code]

theorem dirField_eq_iff {w : Word} {lo : Nat} {d : Dir} : dirField w lo = d ↔ w.toNat / 2 ^ lo % 2 = d.code := by
  rw [dirField, ← BitVec.testBit_toNat, Nat.testBit_eq_decide_div_mod_eq]
  cases d <;> simp [Dir.code]

theorem numeralField_eq_iff {w : Word} {k : Numeral} : numeralField w = k ↔ w.toNat / 2 ^ 22 % 2 = k.code := by
  rw [numeralField, ← BitVec.testBit_toNat, Nat.testBit_eq_decide_div_mod_eq]
  cases k <;> simp [Numeral.code]

/-! ### What the decoder's checks let through (R107) -/

theorem zerosThen_eq_ok_iff {α : Type} {w : Word} {lo len : Nat} {x : Except Illegal α} {a : α} :
    zerosThen w lo len x = .ok a ↔ w.extractLsb' lo len = 0#len ∧ x = .ok a := by
  unfold zerosThen
  split <;> simp_all

theorem ite_error_eq_ok_iff {α : Type} {p : Prop} [Decidable p] {e : Illegal} {x : Except Illegal α} {a : α} :
    (if p then .error e else x) = .ok a ↔ ¬ p ∧ x = .ok a := by
  split <;> simp_all

theorem map_eq_ok_iff {α β : Type} {x : Except Illegal α} {f : α → β} {b : β} :
    x.map f = .ok b ↔ ∃ a, x = .ok a ∧ f a = b := by
  cases x <;> simp [Except.map]

theorem exists_bufField_eq_ok_iff {w : Word} {lo : Nat} :
    (∃ b, bufField w lo = .ok b) ↔ (w.extractLsb' lo 2).toNat ≠ 3 := by
  unfold bufField
  split <;> simp_all
  omega

/-! ### The formats: a word is a format's word exactly when its fields are the format's (R101-R105) -/

theorem formatN_eq_iff {w : Word} {op : Nat} (ho : op < 256) :
    formatN op = w ↔ (opcodeOf w).toNat = op ∧ w.toNat % 2 ^ 24 = 0 := by
  rw [toNat_opcodeOf, ← BitVec.toNat_inj, formatN, BitVec.toNat_ofNat]
  omega

theorem formatR_eq_iff {w : Word} {op ra rb rc d : Nat} (ho : op < 256) (ha : ra < 8) (hb : rb < 8) (hc : rc < 8)
    (hd : d ≤ 1) :
    formatR op ra rb rc d = w ↔
      (opcodeOf w).toNat = op ∧ w.toNat / 2 ^ 21 % 8 = ra ∧ w.toNat / 2 ^ 18 % 8 = rb ∧ w.toNat / 2 ^ 15 % 8 = rc ∧
        w.toNat / 2 ^ 14 % 2 = d ∧ w.toNat % 2 ^ 14 = 0 := by
  rw [toNat_opcodeOf, ← BitVec.toNat_inj, formatR, BitVec.toNat_ofNat]
  omega

theorem formatI_eq_iff {w : Word} {op ra : Nat} {imm : BitVec 21} (ho : op < 256) (ha : ra < 8) :
    formatI op ra imm.toNat = w ↔
      (opcodeOf w).toNat = op ∧ w.toNat / 2 ^ 21 % 8 = ra ∧ w.toNat % 2 ^ 21 = imm.toNat := by
  have := imm.isLt
  rw [toNat_opcodeOf, ← BitVec.toNat_inj, formatI, BitVec.toNat_ofNat]
  omega

theorem formatV_eq_iff {w : Word} {op b0 b1 b2 d : Nat} (ho : op < 256) (h0 : b0 ≤ 2) (h1 : b1 ≤ 2) (h2 : b2 ≤ 2)
    (hd : d ≤ 1) :
    formatV op b0 b1 b2 d = w ↔
      (opcodeOf w).toNat = op ∧ w.toNat / 2 ^ 22 % 4 = b0 ∧ w.toNat / 2 ^ 20 % 4 = b1 ∧ w.toNat / 2 ^ 18 % 4 = b2 ∧
        w.toNat / 2 ^ 17 % 2 = d ∧ w.toNat % 2 ^ 17 = 0 := by
  rw [toNat_opcodeOf, ← BitVec.toNat_inj, formatV, BitVec.toNat_ofNat]
  omega

theorem formatM_eq_iff {w : Word} {op ra rb bs : Nat} (ho : op < 256) (ha : ra < 8) (hb : rb < 8) (hs : bs ≤ 2) :
    formatM op ra rb bs = w ↔
      (opcodeOf w).toNat = op ∧ w.toNat / 2 ^ 21 % 8 = ra ∧ w.toNat / 2 ^ 18 % 8 = rb ∧ w.toNat / 2 ^ 16 % 4 = bs ∧
        w.toNat % 2 ^ 16 = 0 := by
  rw [toNat_opcodeOf, ← BitVec.toNat_inj, formatM, BitVec.toNat_ofNat]
  omega

/-! ### Decoding and encoding (R106) -/

theorem opcodeOf_encode (i : Instr) : (opcodeOf (encode i)).toNat = opcodeNumber i := by
  cases i with
  | nop => exact OpcodeByte.nop
  | ldi ra imm => exact OpcodeByte.ldi ra imm
  | ldw ra rb bs => exact OpcodeByte.ldw ra rb bs
  | stw ra rb bs => exact OpcodeByte.stw ra rb bs
  | madd ra rb rc => exact OpcodeByte.madd ra rb rc
  | msub ra rb rc => exact OpcodeByte.msub ra rb rc
  | mmul ra rb rc => exact OpcodeByte.mmul ra rb rc
  | mpow ra rb rc => exact OpcodeByte.mpow ra rb rc
  | minv ra rb => exact OpcodeByte.minv ra rb
  | mred ra rb => exact OpcodeByte.mred ra rb
  | bfly ra rb rc => exact OpcodeByte.bfly ra rb rc
  | rootw ra rb d => exact OpcodeByte.rootw ra rb d
  | twid ra rb rc d => exact OpcodeByte.twid ra rb rc d
  | bitrev b0 => exact OpcodeByte.bitrev b0
  | ntt b0 d => exact OpcodeByte.ntt b0 d
  | setn ra => exact OpcodeByte.setn ra
  | pad => exact OpcodeByte.pad
  | pmul b0 b1 b2 => exact OpcodeByte.pmul b0 b1 b2
  | conv => exact OpcodeByte.conv
  | carry b0 => exact OpcodeByte.carry b0
  | parse k => exact OpcodeByte.parse k
  | render => exact OpcodeByte.render
  | mult => exact OpcodeByte.mult

/-- A command is decoded only from a word with its opcode: each branch of the decoder gives one constructor. -/
theorem opcodeOf_of_decode {w : Word} {i : Instr} (h : decode w = .ok i) : (opcodeOf w).toNat = opcodeNumber i := by
  unfold decode at h
  split at h
  case h_24 => cases h
  all_goals
    simp only [zerosThen_eq_ok_iff, map_eq_ok_iff, bind_eq_ok, ite_error_eq_ok_iff, pure_eq_ok, Except.ok.injEq] at h
    grind [opcodeNumber]

/-- The words a command is decoded from: its own, and no other. With the opcodes equal, both sides give the same digits
of the word below the opcode; one case per format, and one for PARSE, whose field b0 has one bit (R104). -/
theorem decode_eq_ok_iff {w : Word} {i : Instr} : decode w = .ok i ↔ i.wellFormed = true ∧ encode i = w := by
  by_cases hop : (opcodeOf w).toNat = opcodeNumber i
  case neg =>
    exact iff_of_false (fun h => hop (opcodeOf_of_decode h)) (fun h => hop (h.2 ▸ opcodeOf_encode i))
  cases i with
  | nop | pad | conv | render | mult =>
    simp [decode, hop, opcodeNumber, encode, Instr.wellFormed, formatN_eq_iff, zerosThen_eq_ok_iff, extractLsb'_eq_iff]
  | ldi =>
    simp [decode, hop, opcodeNumber, encode, Instr.wellFormed, formatI_eq_iff, Fin.ext_iff, val_regField,
      extractLsb'_eq_iff]
  | ldw | stw =>
    simp [decode, hop, opcodeNumber, encode, Instr.wellFormed, formatM_eq_iff, Fin.ext_iff, val_regField,
      bufField_eq_ok_iff, map_eq_ok_iff, buf_code_le, zerosThen_eq_ok_iff, extractLsb'_eq_iff]
    omega
  | madd | msub | mmul | mpow | minv | mred | bfly | rootw | twid | setn =>
    simp [decode, hop, opcodeNumber, encode, Instr.wellFormed, formatR_eq_iff, Fin.ext_iff, val_regField,
      dirField_eq_iff, dir_code_le, zerosThen_eq_ok_iff, extractLsb'_eq_iff, ite_error_eq_ok_iff]
    omega
  | bitrev | ntt | pmul | carry =>
    simp [decode, hop, opcodeNumber, encode, Instr.wellFormed, formatV_eq_iff, bufField_eq_ok_iff, map_eq_ok_iff,
      bind_eq_ok, buf_code_le, dirField_eq_iff, dir_code_le, zerosThen_eq_ok_iff, extractLsb'_eq_iff]
    omega
  | parse k =>
    have hk := numeral_code_le k
    simp [decode, hop, opcodeNumber, encode, Instr.wellFormed, formatV_eq_iff, hk.trans, numeralField_eq_iff,
      zerosThen_eq_ok_iff, extractLsb'_eq_iff]
    omega

/-! ### Legality (R107) -/

/-- `len` ones, from bit `lo`: the mask of one field. -/
def fieldMask (lo len : Nat) : Word := (BitVec.allOnes len).setWidth 32 <<< lo

/-- The "must be 0" masks of the opcode map, as the fields the decoder checks. -/
theorem opcodeMap_masks :
    0x00FFFFFF#32 = fieldMask 0 24 ∧ 0x003FFFFF#32 = fieldMask 0 22 ∧ 0x001FFFFF#32 = fieldMask 0 21 ∧
    0x0003FFFF#32 = fieldMask 0 18 ∧ 0x0000FFFF#32 = fieldMask 0 16 ∧ 0x00007FFF#32 = fieldMask 0 15 ∧
    0x00003FFF#32 = fieldMask 0 14 ∧ 0x0003BFFF#32 = fieldMask 15 3 ||| fieldMask 0 14 ∧
    0x003DFFFF#32 = fieldMask 18 4 ||| fieldMask 0 17 ∧ 0x00BFFFFF#32 = fieldMask 23 1 ||| fieldMask 0 22 := by decide

theorem getLsbD_fieldMask {lo len k : Nat} (hk : k < 32) :
    (fieldMask lo len).getLsbD k = decide (lo ≤ k ∧ k < lo + len) := by
  rw [Bool.eq_iff_iff]
  simp [fieldMask, hk]
  omega

theorem and_fieldMask_eq_zero_iff {w : Word} {lo len : Nat} (h : lo + len ≤ 32) :
    w &&& fieldMask lo len = 0#32 ↔ w.extractLsb' lo len = 0#len := by
  constructor
  · refine fun hw => BitVec.eq_of_getLsbD_eq fun k hk => ?_
    have hbit := congrArg (·.getLsbD (lo + k)) hw
    simpa [getLsbD_fieldMask (show lo + k < 32 by omega), hk] using hbit
  · refine fun hw => BitVec.eq_of_getLsbD_eq fun k hk => ?_
    have hbit := congrArg (·.getLsbD (k - lo)) hw
    rw [BitVec.getLsbD_and, getLsbD_fieldMask hk]
    by_cases hin : lo ≤ k ∧ k < lo + len
    · simpa [hin, show k - lo < len by omega] using hbit
    · simp [hin]

theorem and_or_eq_zero_iff {w a b : Word} : w &&& (a ||| b) = 0#32 ↔ w &&& a = 0#32 ∧ w &&& b = 0#32 := by
  rw [BitVec.and_or_distrib_left, BitVec.or_eq_zero_iff]

theorem opcodeOf_mem_of_legal {w : Word} (h : legal w = true) : (opcodeOf w).toNat ∈ opcodeMap.map Prod.fst := by
  obtain ⟨r, hr, hacc⟩ := List.any_eq_true.1 h
  simp only [MapRow.accepts, Bool.and_eq_true, decide_eq_true_eq] at hacc
  obtain ⟨⟨⟨hop, -⟩, -⟩, -⟩ := hacc
  exact List.mem_map.2 ⟨r, hr, hop.symm⟩

/-- Under each opcode of the map the decoder's checks are the row's conditions. -/
theorem legal_iff_decode {w : Word} : legal w = true ↔ ∃ i, decode w = .ok i := by
  unfold decode
  split
  case h_24 =>
    refine iff_of_false (fun h => ?_) nofun
    have hmem := opcodeOf_mem_of_legal h
    simp_all [opcodeMap]
  all_goals
    rename_i hop
    simp [legal, opcodeMap, MapRow.accepts, hop, opcodeMap_masks, and_fieldMask_eq_zero_iff, and_or_eq_zero_iff,
      zerosThen_eq_ok_iff, map_eq_ok_iff, bind_eq_ok, exists_bufField_eq_ok_iff, ite_error_eq_ok_iff, and_assoc]

theorem legal_eq_false_iff {w : Word} : legal w = false ↔ ∃ e, decode w = .error e := by
  rw [← Bool.not_eq_true, legal_iff_decode]
  cases decode w <;> simp

/-! ### An illegal word at the sequencer (R100, R107) -/

theorem sequencerTurn_of_illegal {s : State} {e : Illegal} (hb : s.busy = true) (he : s.err = none)
    (hd : decode s.pend = .error e) : sequencerTurn s = .next (s.raise .illegal) := by
  simp [sequencerTurn, runPending, hb, he, hd]

/-! ### The statements -/

/-- Settles O2: a well-formed command's own word is one it is decoded from. -/
theorem decodeEncodeRoundTrip : Obligations.DecodeEncodeRoundTrip :=
  fun _ hwf => decode_eq_ok_iff.2 ⟨hwf, rfl⟩

/-- Settles O3: a command is decoded from no word but its own. -/
theorem encodeDecodeRoundTrip : Obligations.EncodeDecodeRoundTrip :=
  fun _ _ => decode_eq_ok_iff.1

/-- Settles O4, opcode by opcode: the row's masks and buffer fields are what the decoder checks. -/
theorem legalWordsAreTheDecodedOnes : Obligations.LegalWordsAreTheDecodedOnes :=
  fun _ => legal_iff_decode

/-- Settles O5: a legal word's opcode is in the map, and the map lists none of these ranges. -/
theorem reservedOpcodesAreIllegal : Obligations.ReservedOpcodesAreIllegal := by
  intro w hres
  have hlegal : legal w = false := by
    refine Bool.eq_false_iff.2 fun h => ?_
    have hmem := opcodeOf_mem_of_legal h
    rw [toNat_opcodeOf] at hmem
    simp [opcodeMap] at hmem
    omega
  obtain ⟨e, hd⟩ := legal_eq_false_iff.1 hlegal
  refine ⟨hlegal, ⟨e, hd⟩, fun s hb he hp => ?_⟩
  exact sequencerTurn_of_illegal hb he (hp ▸ hd)

/-- Settles O1: closed words, decoded by evaluation. -/
theorem wordsOfTheSpecDecode : Obligations.WordsOfTheSpecDecode := by
  unfold Obligations.WordsOfTheSpecDecode
  decide

end Sys2Proof.Machine
end

section
/-!
PROOFS of the statements about the register transfer commands (spec/40_transfer.md R130-R133): how a command ends once its
effect is known, why LDW and STW stop, and one buffer element stored; then the statements themselves.
-/

namespace Sys2Proof.Machine

open Sys2Proof

/-! ### From a command's effect to its next state (R100, R302, R341) -/

theorem exec_of_effect_ok {i : Instr} {s t : State} (h : effect i s = .ok t) :
    exec i s = .next { t with busy := false } := by
  rw [exec_eq, h, finish_ok]

theorem exec_of_effect_raise {i : Instr} {s : State} {c : ErrCode} (h : effect i s = .error (.raise c)) :
    exec i s = .next (raised s c) := by
  rw [exec_eq, h, finish_raise]; rfl

theorem exec_of_effect_fault {i : Instr} {s : State} {f : Fault} (h : effect i s = .error (.fault f)) :
    exec i s = .fault f := by
  rw [exec_eq, h, finish_fault]

/-- The end of a command whose one effect is a register write. -/
theorem exec_of_effect_setReg {i : Instr} {s : State} {r : Reg} {v : XReg} (h : effect i s = .ok (s.setReg r v)) :
    exec i s = .next { s with x := s.x.set r v, busy := false } :=
  exec_of_effect_ok h

/-! ### Why LDW and STW stop (R132, R133) -/

/-- The index check ends the command, or the command goes on with the index. -/
theorem indexOperand_bind_eq_error {s : State} {r : Reg} {f : Nat → Except Stop State} {e : Stop} :
    (indexOperand s r >>= f) = .error e ↔
      (s.cfg.nMax ≤ (s.reg r).toNat ∧ e = .raise .indexRange) ∨
        ((s.reg r).toNat < s.cfg.nMax ∧ f (s.reg r).toNat = .error e) := by
  rw [bind_eq_error, indexOperand_eq_error]
  refine or_congr_right ⟨?_, fun ⟨hlt, hf⟩ => ⟨_, indexOperand_eq_ok.2 ⟨hlt, rfl⟩, hf⟩⟩
  rintro ⟨idx, hidx, hf⟩
  obtain ⟨hlt, rfl⟩ := indexOperand_eq_ok.1 hidx
  exact ⟨hlt, hf⟩

/-- LDW stops on the index first, then on the element. -/
theorem ldwEffect_eq_error {ra rb : Reg} {bs : Buf} {s : State} {e : Stop} : ldwEffect ra rb bs s = .error e ↔
    (s.cfg.nMax ≤ (s.reg rb).toNat ∧ e = .raise .indexRange) ∨
      ((s.reg rb).toNat < s.cfg.nMax ∧ (s.buf bs).read (s.reg rb).toNat = none ∧
        e = .fault (.unwritten (bufId bs) (s.reg rb).toNat)) := by
  rw [ldwEffect, indexOperand_bind_eq_error, bind_eq_error, readElem_eq_error]
  simp

/-- STW stops on the index first, then on the value. -/
theorem stwEffect_eq_error {ra rb : Reg} {bs : Buf} {s : State} {e : Stop} : stwEffect ra rb bs s = .error e ↔
    (s.cfg.nMax ≤ (s.reg rb).toNat ∧ e = .raise .indexRange) ∨
      ((s.reg rb).toNat < s.cfg.nMax ∧ modulus ≤ (s.reg ra).toNat ∧ e = .raise .operandRange) := by
  rw [stwEffect, indexOperand_bind_eq_error, bind_eq_error, fieldOperand_eq_error]
  simp

/-! ### One buffer element stored (R40, R74, R87) -/

/-- Storing one element of a field buffer is what a host write of the word to that element does. -/
theorem setBuf_write_eq_writeElem (s : State) (b : Buf) (i : Nat) (v : Word) :
    s.setBuf b ((s.buf b).write i v) = s.writeElem v i (bufId b) := by
  cases b <;> rfl

theorem setBuf_frame (s : State) (b : Buf) (m : Mem 32) :
    s.setBuf b m = { s with
      bufA := (s.setBuf b m).bufA, bufB := (s.setBuf b m).bufB, bufC := (s.setBuf b m).bufC } := by
  cases b <;> rfl

/-- BUSY is no part of any memory. -/
@[simp] theorem elemWord_busy (s : State) (busy : Bool) (m : MemId) (j : Nat) :
    { s with busy := busy }.elemWord m j = s.elemWord m j := rfl

@[simp] theorem buf_busy (s : State) (busy : Bool) (b : Buf) : { s with busy := busy }.buf b = s.buf b := rfl

/-! ### The statements -/

/-- Settles O26: the effect of LDW in each of its three cases; a 32-bit word fits a 64-bit register. -/
theorem ldwMovesTheWord : Obligations.LdwMovesTheWord := by
  intro s ra rb bs
  refine ⟨fun hidx => ?_, fun hlt hnone => ?_, fun w hlt hw => ⟨w.setWidth 64, ?_, ?_⟩⟩
  · exact exec_of_effect_raise (ldwEffect_eq_error.2 (.inl ⟨hidx, rfl⟩))
  · exact exec_of_effect_fault (ldwEffect_eq_error.2 (.inr ⟨hlt, hnone, rfl⟩))
  · exact BitVec.toNat_setWidth_of_le (by decide)
  · exact exec_of_effect_setReg (ldwEffect_eq_ok.2 ⟨hlt, w, hw, rfl⟩)

/-- Settles O27: the stops of STW in order, and the store of one element with its frame. -/
theorem stwStoresTheFieldElement : Obligations.StwStoresTheFieldElement := by
  intro s ra rb bs
  refine ⟨fun hidx => ?_, fun hlt hval => ?_, fun hlt hval => ?_⟩
  · exact exec_of_effect_raise (stwEffect_eq_error.2 (.inl ⟨hidx, rfl⟩))
  · exact exec_of_effect_raise (stwEffect_eq_error.2 (.inr ⟨hlt, hval, rfl⟩))
  · refine ⟨_, bufWord (s.reg ra).toNat, exec_of_effect_ok (stwEffect_eq_ok.2 ⟨hlt, hval, rfl⟩), toNat_bufWord hval,
      ?_, fun m j hne => ?_, ?_⟩
    · rw [buf_busy, State.buf_setBuf_same, Mem.read_write_same]
    · rw [elemWord_busy, setBuf_write_eq_writeElem, elemWord_writeElem_ne s _ hne]
    · rw [setBuf_frame]

/-- Settles O25: NOP and LDI cannot stop, and a 21-bit immediate fits a 64-bit register. -/
theorem nopAndLdiComplete : Obligations.NopAndLdiComplete := by
  refine fun s => ⟨exec_of_effect_ok rfl, fun ra imm => ⟨immOperand imm, ?_, exec_of_effect_setReg rfl⟩⟩
  exact BitVec.toNat_setWidth_of_le (by decide)

end Sys2Proof.Machine
end

section
/-!
PROOFS of the statements about the modular arithmetic unit (spec/41_mod_arith.md R150-R161): a field element written to a
register, the inverse of R154, and why a command with field-element operands stops; then the statements themselves.
-/

namespace Sys2Proof.Machine

open Sys2Proof

/-! ### A field element written to a register (R162) -/

/-- The end of a command whose one effect is a field element written to a register, which holds it exactly. -/
theorem exec_of_effect_fieldWord {i : Instr} {s : State} {r : Reg} {n : Nat} (hn : n < modulus)
    (h : effect i s = .ok (s.setReg r (fieldWord n))) :
    ∃ v : XReg, v.toNat = n ∧ exec i s = .next { s with x := s.x.set r v, busy := false } :=
  ⟨fieldWord n, toNat_fieldWord hn, exec_of_effect_setReg h⟩

/-! ### The inverse (R154) -/

/-- `inv_mod` inverts every non-zero field element, since MOD is prime. -/
theorem mul_invMod {v : Nat} (hv : v < modulus) (h0 : v ≠ 0) : v * invMod v % modulus = 1 := by
  have : Fact (Nat.Prime modulus) := ⟨modulus_prime⟩
  have hne : (v : Field) ≠ 0 := fun h => h0 (eq_of_cast_eq hv modulus_pos (h.trans Nat.cast_zero.symm))
  refine eq_of_cast_eq (Nat.mod_lt _ modulus_pos) (by decide) ?_
  rw [cast_mod, Nat.cast_mul, cast_invMod, mul_inv_cancel₀ hne, Nat.cast_one]

/-! ### Why a command with field-element operands stops (R156-R160, R207) -/

/-- A field-element operand before a computation that itself stops only for unreduced operands. -/
theorem fieldOperand_bind_eq_error {α : Type} {s : State} {r : Reg} {f : Nat → Except Stop α} {e : Stop} {P : Prop}
    (hf : f (s.reg r).toNat = .error e ↔ P ∧ e = .raise .operandRange) :
    (fieldOperand s r >>= f) = .error e ↔ (modulus ≤ (s.reg r).toNat ∨ P) ∧ e = .raise .operandRange := by
  rcases le_or_gt modulus (s.reg r).toNat with hle | hlt
  · rw [fieldOperand_eq_error.2 ⟨hle, rfl⟩, error_bind]
    simp [hle, eq_comm]
  · rw [fieldOperand_eq_ok.2 ⟨hlt, rfl⟩, ok_bind, hf]
    simp [hlt.not_ge]

/-- The last field-element operand of a command. -/
theorem fieldOperand_bind_pure_eq_error {α : Type} {s : State} {r : Reg} {g : Nat → α} {e : Stop} :
    (fieldOperand s r >>= fun v => pure (g v)) = .error e ↔
      modulus ≤ (s.reg r).toNat ∧ e = .raise .operandRange := by
  rw [bind_eq_error, fieldOperand_eq_error]
  simp

theorem binaryField_eq_error {f : Nat → Nat → Nat} {ra rb rc : Reg} {s : State} {e : Stop} :
    binaryField f ra rb rc s = .error e ↔
      (modulus ≤ (s.reg rb).toNat ∨ modulus ≤ (s.reg rc).toNat) ∧ e = .raise .operandRange :=
  fieldOperand_bind_eq_error fieldOperand_bind_pure_eq_error

theorem mpowEffect_eq_error {ra rb rc : Reg} {s : State} {e : Stop} : mpowEffect ra rb rc s = .error e ↔
    modulus ≤ (s.reg rb).toNat ∧ e = .raise .operandRange :=
  fieldOperand_bind_pure_eq_error

theorem minvEffect_eq_error {ra rb : Reg} {s : State} {e : Stop} : minvEffect ra rb s = .error e ↔
    modulus ≤ (s.reg rb).toNat ∧ e = .raise .operandRange :=
  fieldOperand_bind_pure_eq_error

theorem bflyEffect_eq_error {ra rb rc : Reg} {s : State} {e : Stop} : bflyEffect ra rb rc s = .error e ↔
    (modulus ≤ (s.reg ra).toNat ∨ modulus ≤ (s.reg rb).toNat ∨ modulus ≤ (s.reg rc).toNat) ∧
      e = .raise .operandRange :=
  fieldOperand_bind_eq_error (fieldOperand_bind_eq_error fieldOperand_bind_pure_eq_error)

/-! ### The statements -/

/-- Settles O28: each of the three commands writes its function of the two operands, which is the exact result below MOD. -/
theorem addSubMulResults : Obligations.AddSubMulResults := by
  intro s ra rb rc hb hc
  have writes (f : Nat → Nat → Nat) : binaryField f ra rb rc s =
      .ok (s.setReg ra (fieldWord (f (s.reg rb).toNat (s.reg rc).toNat))) :=
    binaryField_eq_ok.2 ⟨hb, hc, rfl⟩
  refine ⟨?_, ?_, ?_⟩
  · rw [← addMod_eq hb hc]
    exact exec_of_effect_fieldWord (addMod_lt hb hc) (writes addMod)
  · rw [← subMod_cast hb hc]
    simp only [Nat.cast_inj]
    exact exec_of_effect_fieldWord (subMod_lt hb hc) (writes subMod)
  · exact exec_of_effect_fieldWord (mulMod_lt _ _) (writes mulMod)

/-- Settles O29: the 64 rounds of the power loop use up any 64-bit exponent. -/
theorem mpowResult : Obligations.MpowResult := by
  intro s ra rb rc hb
  have he : (s.reg rc).toNat < 2 ^ 64 := (s.reg rc).isLt
  rw [← powMod_eq _ he]
  exact exec_of_effect_fieldWord (powMod_lt _ he) (mpowEffect_eq_ok.2 ⟨hb, rfl⟩)

/-- Settles O30: Fermat's exponent gives the inverse in the field, and 0 for 0. -/
theorem minvResult : Obligations.MinvResult := by
  intro s ra rb hb
  obtain ⟨v, hv, hexec⟩ :=
    exec_of_effect_fieldWord (i := .minv ra rb) (invMod_lt _) (minvEffect_eq_ok.2 ⟨hb, rfl⟩)
  refine ⟨v, hv.trans (invMod_eq _), fun h0 => ?_, fun h0 => ?_, hexec⟩
  · rw [hv, mul_invMod hb h0]
  · rw [hv, h0, invMod_zero]

/-- Settles O31: MRED has no check, and its result is below MOD. -/
theorem mredResult : Obligations.MredResult :=
  fun _ _ _ => exec_of_effect_fieldWord (modReduce_lt _) rfl

/-- Settles O32: each command's effect stops exactly on an unreduced operand. -/
theorem unreducedRegisterOperandsRaise : Obligations.UnreducedRegisterOperandsRaise := by
  intro s ra rb rc
  refine ⟨fun h => ?_, fun h => ?_, fun h => ?_⟩
  · have raises (f : Nat → Nat → Nat) : binaryField f ra rb rc s = .error (.raise .operandRange) :=
      binaryField_eq_error.2 ⟨h, rfl⟩
    exact ⟨exec_of_effect_raise (raises addMod), exec_of_effect_raise (raises subMod),
      exec_of_effect_raise (raises mulMod)⟩
  · exact ⟨exec_of_effect_raise (mpowEffect_eq_error.2 ⟨h, rfl⟩), exec_of_effect_raise (minvEffect_eq_error.2 ⟨h, rfl⟩)⟩
  · exact exec_of_effect_raise (bflyEffect_eq_error.2 ⟨h, rfl⟩)

end Sys2Proof.Machine
end

section
/-!
PROOFS of the statements about the digit codec (spec/42_digit_codec.md R180-R186): the count and the digits PARSE finds, its
checks as one equation, and the bounds that keep the recorded lengths exact; then the statements themselves.
-/

namespace Sys2Proof.Machine

open Sys2Proof

/-! ### Recorded lengths (R6, R34) -/

/-- A length within the largest memory, OUT, is recorded in its register exactly. -/
theorem toNat_length {c : Config} {n : Nat} (h : n ≤ c.outCap) : (BitVec.ofNat 32 n).toNat = n := by
  have hmax := nMax_le c
  rw [Config.outCap] at h
  rw [BitVec.toNat_ofNat, Nat.mod_eq_of_lt (by omega)]

theorem digCap_le_outCap (c : Config) : c.digCap ≤ c.outCap := Nat.le_add_right _ 2

/-! ### The digit count (R180, R182) -/

/-- A last byte other than LF counts as a digit. -/
theorem digitCount_of_last {id : MemId} {m : Mem 8} {len : Nat} {c : Byte} (hr : m.read len = some c)
    (hc : c ≠ 0x0A#8) : digitCount id m (len + 1) = .ok (len + 1) := by
  rw [digitCount, readElem_eq_ok.2 hr, ok_bind, if_neg hc, pure_eq_ok]

/-- One final LF is not counted. -/
theorem digitCount_of_final_lf {id : MemId} {m : Mem 8} {len : Nat} (hr : m.read len = some 0x0A#8) :
    digitCount id m (len + 1) = .ok len := by
  rw [digitCount, readElem_eq_ok.2 hr, ok_bind, if_pos rfl, pure_eq_ok]

/-! ### PARSE's checks (R180) -/

theorem parseEffect_of_too_many_bytes {s : State} {k : Numeral} (h : s.cfg.inCap < (s.inLen k).toNat) :
    parseEffect k s = .error (.raise .unsupportedSize) := by
  rw [parseEffect, if_pos h]

/-- The checks after the byte count, once the digits are counted. -/
theorem parseEffect_of_count {s : State} {k : Numeral} {n : Nat} (hb : (s.inLen k).toNat ≤ s.cfg.inCap)
    (hn : digitCount (inId k) (s.inMem k) (s.inLen k).toNat = .ok n) :
    parseEffect k s =
      if n = 0 then .error (.raise .invalidDigit)
      else if s.cfg.digCap < n then .error (.raise .unsupportedSize)
      else do
        let ds ← digitList (inId k) (s.inMem k) n 0
        return s.setDigits k ((s.digMem k).writeList 0 ds.reverse) (BitVec.ofNat 32 n) := by
  rw [parseEffect, if_neg hb.not_gt, hn, ok_bind]

theorem parseEffect_of_empty {s : State} {k : Numeral}
    (h : (s.inLen k).toNat = 0 ∨ ((s.inLen k).toNat = 1 ∧ (s.inMem k).read 0 = some 0x0A#8)) :
    parseEffect k s = .error (.raise .invalidDigit) := by
  have hcap : s.cfg.inCap = s.cfg.nMax + 1 := rfl
  have hn : digitCount (inId k) (s.inMem k) (s.inLen k).toNat = .ok 0 := by
    obtain h0 | ⟨h1, hlf⟩ := h
    · rw [h0, digitCount]
    · rw [h1, digitCount_of_final_lf hlf]
  rw [parseEffect_of_count (by omega) hn, if_pos rfl]

/-- IN_CAP bytes without a final LF are one digit too many. -/
theorem parseEffect_of_too_many_digits {s : State} {k : Numeral} {c : Byte} (hlen : (s.inLen k).toNat = s.cfg.inCap)
    (hr : (s.inMem k).read s.cfg.digCap = some c) (hc : c ≠ 0x0A#8) :
    parseEffect k s = .error (.raise .unsupportedSize) := by
  have hcap : s.cfg.inCap = s.cfg.digCap + 1 := rfl
  have hn : digitCount (inId k) (s.inMem k) (s.inLen k).toNat = .ok (s.cfg.digCap + 1) := by
    rw [hlen, hcap, digitCount_of_last hr hc]
  rw [parseEffect_of_count hlen.le hn, if_neg (Nat.succ_ne_zero _), if_pos (Nat.lt_succ_self _)]

/-- A numeral of `n` digits by count, one of whose bytes is no digit. -/
theorem parseEffect_of_bad_byte {s : State} {k : Numeral} {n j : Nat} {c : Byte}
    (hb : (s.inLen k).toNat ≤ s.cfg.inCap) (hn : digitCount (inId k) (s.inMem k) (s.inLen k).toNat = .ok n)
    (hcap : n ≤ s.cfg.digCap) (hj : j < n)
    (hgood : ∀ i < j, ∃ e : Byte, (s.inMem k).read i = some e ∧ 0x30 ≤ e.toNat ∧ e.toNat ≤ 0x39)
    (hr : (s.inMem k).read j = some c) (hc : c.toNat < 0x30 ∨ 0x39 < c.toNat) :
    parseEffect k s = .error (.raise .invalidDigit) := by
  have hlist : digitList (inId k) (s.inMem k) n 0 = .error (.raise .invalidDigit) :=
    digitList_raises hj (fun i hi => by rw [Nat.zero_add]; exact hgood i hi) (by rwa [Nat.zero_add]) hc
  rw [parseEffect_of_count hb hn, if_neg (by omega), if_neg hcap.not_gt, hlist, error_bind]

/-! ### Digits and the result's value (R181, R186) -/

@[simp] theorem digMem_busy (s : State) (busy : Bool) (k : Numeral) : { s with busy := busy }.digMem k = s.digMem k := by
  cases k <;> rfl

theorem Mem.digits.congr {m : Mem 4} {n : Nat} {f g : Nat → Nat} (hf : m.digits n f) (h : ∀ i < n, g i = f i) :
    m.digits n g := fun i hi => by rw [h i hi]; exact hf i hi

/-- Writing from index 0 leaves every element beyond the list. -/
theorem Mem.read_writeList_zero_of_le {w : Nat} (m : Mem w) {vs : List (BitVec w)} {i : Nat} (h : vs.length ≤ i) :
    (m.writeList 0 vs).read i = m.read i := by
  rw [Mem.read_writeList, if_neg (by omega)]

/-- The value of `n` digits has at most `n` decimal places. -/
theorem weighted_lt_of_digits {m : Mem 4} {n : Nat} {f : Nat → Nat} (h : m.digits n f) : weighted n f < 10 ^ n := by
  have hall : AllDigit ((List.range n).map f) := by
    refine List.forall_mem_map.2 fun i hi => ?_
    exact Nat.lt_succ_of_le (h i (List.mem_range.1 hi)).1
  have hlt := ofDigits_lt hall
  rwa [← weighted_eq_ofDigits, List.length_map, List.length_range] at hlt

/-- The line RENDER writes for at most RES_CAP digits fits OUT. -/
theorem decimalLine_length_le_outCap {c : Config} {m : Mem 4} {n : Nat} {f : Nat → Nat} (hn : n ≤ c.resCap)
    (h : m.digits n f) : (decimalLine (weighted n f)).length ≤ c.outCap := by
  have hline := decimalLine_length_le (weighted_lt_of_digits h)
  have hres : c.resCap = c.nMax + 1 := rfl
  have hout : c.outCap = c.nMax + 2 := rfl
  omega

/-! ### The statements -/

/-- Settles O49: the digits PARSE writes are the numeral's in reverse, and DIG_CAP of them fit LEN_k. -/
theorem parseDecodesTheNumeral : Obligations.ParseDecodesTheNumeral := by
  intro s k cs hspells hcap
  refine ⟨_, BitVec.ofNat 32 cs.length, exec_of_effect_ok (parseEffect_of_spells hspells hcap),
    toNat_length (hcap.trans (digCap_le_outCap s.cfg)), ?_⟩
  rw [digMem_busy, State.digMem_setDigits_same]
  refine ⟨rfl, (parsed_digits _ hspells.2.1).congr fun i hi => ?_, fun i hi => ?_⟩
  · exact congrFun (List.getD_reverse i hi).symm 0
  · exact Mem.read_writeList_zero_of_le _ (by simpa using hi)

/-- Settles O50: each clause fails one of PARSE's checks, after those before it have passed. -/
theorem parseErrorsInOrder : Obligations.ParseErrorsInOrder := by
  refine fun s k => ⟨fun h => exec_of_effect_raise (parseEffect_of_too_many_bytes h),
    fun h => exec_of_effect_raise (parseEffect_of_empty h),
    fun c hlen hr hc => exec_of_effect_raise (parseEffect_of_too_many_digits hlen hr hc), ?_⟩
  intro len j c last hcap hj hgood hr hc hend
  have hin : s.cfg.inCap = s.cfg.digCap + 1 := rfl
  have hn : digitCount (inId k) (s.inMem k) (s.inLen k).toNat = .ok len := by
    obtain ⟨hlen, hlast, hne⟩ | ⟨hlen, hlf⟩ := hend
    · have hcount := digitCount_of_last (id := inId k) hlast hne
      rw [Nat.sub_add_cancel (by omega)] at hcount
      rwa [hlen]
    · rw [hlen, digitCount_of_final_lf hlf]
  exact exec_of_effect_raise (parseEffect_of_bad_byte (by omega) hn hcap hj hgood hr hc)

/-- Settles O51: RENDER writes the decimal line of the value, whose length fits OUT and so OUT_LEN. -/
theorem renderWritesTheDecimalLine : Obligations.RenderWritesTheDecimalLine := by
  intro s f hcap hdigits
  have hlen := toNat_length (decimalLine_length_le_outCap hcap hdigits)
  refine ⟨_, exec_of_effect_ok (renderEffect_of_digits hdigits), rfl, ?_, hlen, fun i hi => ?_⟩
  · exact Mem.startsWith_writeList _ _
  · exact Mem.read_writeList_zero_of_le _ (hlen.symm.trans_le hi)

end Sys2Proof.Machine
end

section
/-!
PROOFS of the statements about the transform engine (spec/43_ntt_engine.md R200-R210): the roots' powers as numbers, the
twiddle ROM and its stage check, and a command whose one effect is a new content of one buffer; then the statements
themselves.
-/

namespace Sys2Proof.Machine

open Sys2Proof

/-! ### Powers of the stage roots as numbers (R201) -/

theorem mod_modulus_eq_one_iff {v : Nat} : v % modulus = 1 ↔ (v : Field) = 1 := by
  simpa using (ZMod.natCast_eq_natCast_iff' v 1 modulus).symm

theorem rootOfUnity_pow_mod_eq_one_iff {s k : Nat} {d : Dir} :
    rootOfUnity s d ^ k % modulus = 1 ↔ zeta s d ^ k = 1 := by
  rw [mod_modulus_eq_one_iff, Nat.cast_pow, zeta]

/-! ### The butterfly on field elements (R207) -/

theorem addMod_mulMod {u : Nat} (hu : u < modulus) (v w : Nat) : addMod u (mulMod v w) = (u + v * w) % modulus := by
  rw [addMod_eq hu (mulMod_lt v w), mulMod, Nat.add_mod_mod]

theorem subMod_mulMod {u : Nat} (hu : u < modulus) (v w : Nat) :
    (subMod u (mulMod v w) : Int) = (u - v * w : Int) % (modulus : Int) := by
  rw [subMod_cast hu (mulMod_lt v w), mulMod, Int.natCast_emod, Nat.cast_mul, Int.sub_emod_emod]

/-! ### The twiddle ROM and the stage check (R202, R208, R209) -/

theorem twiddleRom_of_le {c : Config} {s : Nat} (h : s ≤ c.lognMax) (d : Dir) :
    twiddleRom c d s = rootOfUnity s d := by
  rw [twiddleRom, if_pos h, stageRoot_eq]

/-- The stage is the last operand a command checks. -/
theorem stageOperand_bind_pure_eq_error {α : Type} {s : State} {r : Reg} {g : Nat → α} {e : Stop} :
    (stageOperand s r >>= fun k => pure (g k)) = .error e ↔
      s.cfg.lognMax < (s.reg r).toNat ∧ e = .raise .unsupportedSize := by
  rw [bind_eq_error, stageOperand_eq_error]
  simp

theorem rootwEffect_eq_error {ra rb : Reg} {d : Dir} {s : State} {e : Stop} : rootwEffect ra rb d s = .error e ↔
    s.cfg.lognMax < (s.reg rb).toNat ∧ e = .raise .unsupportedSize :=
  stageOperand_bind_pure_eq_error

theorem twidEffect_eq_error {ra rb rc : Reg} {d : Dir} {s : State} {e : Stop} : twidEffect ra rb rc d s = .error e ↔
    s.cfg.lognMax < (s.reg rb).toNat ∧ e = .raise .unsupportedSize :=
  stageOperand_bind_pure_eq_error

/-! ### A command that replaces one buffer's content (R204, R205) -/

theorem exec_of_effect_setBuf {i : Instr} {s : State} {b : Buf} {m : Mem 32} (h : effect i s = .ok (s.setBuf b m)) :
    ∃ t : State, exec i s = .next t ∧ t = { s.setBuf b (t.buf b) with busy := false } ∧ t.buf b = m := by
  refine ⟨_, exec_of_effect_ok h, ?_, ?_⟩ <;> rw [buf_busy, State.buf_setBuf_same]

/-- Two such commands in a row leave only the later content. -/
theorem setBuf_twice_busy (s : State) (b : Buf) (m m' : Mem 32) :
    { { s.setBuf b m with busy := false }.setBuf b m' with busy := false } =
      { s.setBuf b m' with busy := false } := by
  cases b <;> rfl

/-! ### The transform and its inverse on numbers (R210) -/

theorem nttValue_inv_fwd {bits : Nat} (hb : bits ≤ 27) {f : Nat → Nat} {j : Nat} (hj : j < 2 ^ bits)
    (hf : f j < modulus) : nttValue bits .inv (nttValue bits .fwd f) j = f j := by
  refine eq_of_cast_eq (nttValue_lt _ _ _ _) hf ?_
  rw [cast_nttValue_inv, funext (cast_nttValue_fwd bits f)]
  exact backward_forward hb _ hj

/-! ### The statements -/

/-- Settles O38: bit reversal, the butterfly network and the scaling give the transform of the buffer's entries. -/
theorem nttComputesTheTransform : Obligations.NttComputesTheTransform := by
  intro s b d f hl hf
  obtain ⟨m, heff, hlo, hhi⟩ := nttEffect_of_fields (d := d) hl hf
  obtain ⟨t, hexec, ht, rfl⟩ := exec_of_effect_setBuf (i := .ntt b d) heff
  exact ⟨t, hexec, ht, hlo, hhi⟩

/-- Settles O39: the forward transform leaves LOGN and field elements, and over the field the inverse undoes it. -/
theorem nttInverseRestoresTheBuffer : Obligations.NttInverseRestoresTheBuffer := by
  intro s b f hl hf
  obtain ⟨t, hfwd, ht, htlo, hthi⟩ := nttComputesTheTransform s b .fwd f hl hf
  have hlogn : t.logn = s.logn := by rw [ht]; exact State.setBuf_logn s b _
  have hsize : t.size = s.size := by rw [State.size, hlogn]; rfl
  obtain ⟨u, hinv, hu, hulo, huhi⟩ := nttComputesTheTransform t b .inv (nttValue s.logn.toNat .fwd f)
    (hlogn ▸ hl) (hsize ▸ htlo)
  rw [ht, setBuf_twice_busy] at hu
  refine ⟨t, u, hfwd, hinv, ?_, ?_, ht, hu, fun i => ?_⟩
  · rw [ht]; exact State.setBuf_err s b _
  · rw [hu]; exact State.setBuf_err s b _
  · rw [hsize] at hulo huhi
    rcases lt_or_ge i s.size with hi | hi
    · obtain ⟨hlt, hread⟩ := hf i hi
      obtain ⟨-, hend⟩ := hulo i hi
      rw [hend, hread, hlogn]
      exact congrArg (fun v => some (BitVec.ofNat 32 v)) (nttValue_inv_fwd hl hi hlt)
    · rw [huhi i hi, hthi i hi]

/-- Settles O37: the loop exchanges every entry with its mirror, whatever words they hold. -/
theorem bitrevPermutesTheBuffer : Obligations.BitrevPermutesTheBuffer := by
  intro s b hfull
  obtain ⟨m, hloop, hlo, hhi⟩ := bitRevLoop_permutes (bufId b) s.logn.toNat (s.buf b) hfull
  obtain ⟨t, hexec, ht, rfl⟩ := exec_of_effect_setBuf (i := .bitrev b) (bitrevEffect_eq_ok.2 ⟨m, hloop, rfl⟩)
  exact ⟨t, hexec, ht, hlo, hhi⟩

/-- Settles O34: a stage root has order exactly 2^s in the field, and the inverse one is its inverse there. -/
theorem stageRootsHaveExactOrder : Obligations.StageRootsHaveExactOrder := by
  intro s hs
  refine ⟨fun d => ⟨stageRoot_eq s d, ?_, fun k hpos hlt => ?_⟩, ?_⟩
  · exact rootOfUnity_pow_mod_eq_one_iff.2 (zeta_pow_full hs d)
  · refine mt rootOfUnity_pow_mod_eq_one_iff.1 (pow_ne_one_of_lt_orderOf hpos.ne' ?_)
    rwa [orderOf_zeta hs]
  · rw [mod_modulus_eq_one_iff, Nat.cast_mul]
    exact zeta_fwd_mul_inv hs

/-- Settles O35: both results are computed from the operands as they were before either write. -/
theorem bflyResult : Obligations.BflyResult := by
  intro s ra rb rc _ hu hv hw
  have hexec := exec_of_effect_ok (i := .bfly ra rb rc) (bflyEffect_eq_ok.2 ⟨hu, hv, hw, rfl⟩)
  refine ⟨_, _, ?_, ?_, hexec⟩
  · rw [toNat_fieldWord (addMod_lt hu (mulMod_lt _ _)), addMod_mulMod hu]
  · rw [toNat_fieldWord (subMod_lt hu (mulMod_lt _ _)), subMod_mulMod hu]

/-- Settles O36: up to LOGN_MAX the ROM holds the stage root, and above it the stage check stops both commands. -/
theorem rootwAndTwidRead : Obligations.RootwAndTwidRead := by
  intro s ra rb rc d
  refine ⟨fun hle => ⟨?_, ?_⟩, fun hgt => ⟨?_, ?_⟩⟩
  · refine exec_of_effect_fieldWord (rootOfUnity_lt _ d) (rootwEffect_eq_ok.2 ⟨hle, ?_⟩)
    rw [twiddleRom_of_le hle]
  · refine exec_of_effect_fieldWord (Nat.mod_lt _ modulus_pos) (twidEffect_eq_ok.2 ⟨hle, ?_⟩)
    rw [twiddleRom_of_le hle, powMod_eq _ (s.reg rc).isLt]
  · exact exec_of_effect_raise (rootwEffect_eq_error.2 ⟨hgt, rfl⟩)
  · exact exec_of_effect_raise (twidEffect_eq_error.2 ⟨hgt, rfl⟩)

/-- Settles O33: each law of `bitrev` by recursion on the number of bits. -/
theorem bitRevReversesTheBits : Obligations.BitRevReversesTheBits :=
  fun bits i hi => ⟨bitRev_lt bits i, bitRev_bitRev bits i hi, testBit_bitRev bits i⟩

end Sys2Proof.Machine
end

section
/-!
PROOFS of the statements about the convolution engine (spec/44_convolution.md R230-R236): the size checks, and commands run
one after the other as one command, for which the BUSY bit must play no part in any effect; then the statements themselves.
-/

namespace Sys2Proof.Machine

open Sys2Proof

/-! ### Sizes and their check (R231, R234) -/

theorem setnEffect_eq_error {ra : Reg} {s : State} {e : Stop} : setnEffect ra s = .error e ↔
    s.cfg.nMax < (s.reg ra).toNat ∧ e = .raise .unsupportedSize := by
  rw [setnEffect]
  split <;> simp_all [eq_comm]

theorem padEffect_of_oversize {s : State}
    (h : s.cfg.nMax < s.lenA.toNat + s.lenB.toNat ∨ modulus ≤ 81 * min s.lenA.toNat s.lenB.toNat) :
    padEffect s = .error (.raise .unsupportedSize) := by
  rw [padEffect_eq, if_pos h]

/-- CONV stops where PAD, its first step, stops. -/
theorem convEffect_of_pad_error {s : State} {e : Stop} (h : padEffect s = .error e) : convEffect s = .error e := by
  rw [convEffect, h, error_bind]

/-! ### The BUSY bit plays no part in an effect (R100) -/

/-- The value of BUSY changes nothing in what `f` does, and `f` leaves it as it is. -/
def IgnoresBusy (f : State → Except Stop State) : Prop :=
  ∀ (s : State) (v : Bool), f { s with busy := v } = (f s).map fun t => { t with busy := v }

theorem IgnoresBusy.write {g : State → State} (h : ∀ s v, g { s with busy := v } = { g s with busy := v }) :
    IgnoresBusy fun s => .ok (g s) := fun s v => congrArg Except.ok (h s v)

theorem IgnoresBusy.stop (e : Stop) : IgnoresBusy fun _ => .error e := fun _ _ => rfl

/-- A read or check whose answer does not depend on BUSY, then a use of its answer. -/
theorem IgnoresBusy.read {α : Type} {r : State → Except Stop α} {f : α → State → Except Stop State}
    (hr : ∀ s v, r { s with busy := v } = r s) (hf : ∀ a, IgnoresBusy (f a)) :
    IgnoresBusy fun s => r s >>= fun a => f a s := fun s v => by
  dsimp only
  rw [hr s v]
  cases r s with
  | error e => rfl
  | ok a => exact hf a s v

theorem IgnoresBusy.check {p : State → Prop} {_ : DecidablePred p} {f g : State → Except Stop State}
    (hp : ∀ s v, p { s with busy := v } ↔ p s) (hf : IgnoresBusy f) (hg : IgnoresBusy g) :
    IgnoresBusy fun s => if p s then f s else g s := fun s v => by
  by_cases h : p s
  · simpa only [if_pos h, if_pos ((hp s v).2 h)] using hf s v
  · simpa only [if_neg h, if_neg (mt (hp s v).1 h)] using hg s v

/-- One effect after another. -/
theorem IgnoresBusy.seq {f g : State → Except Stop State} (hf : IgnoresBusy f) (hg : IgnoresBusy g) :
    IgnoresBusy fun s => f s >>= g := fun s v => by
  dsimp only
  rw [hf s v]
  cases f s with
  | error e => rfl
  | ok t => exact hg t v

theorem productList_busy (b1 b2 : Buf) (s : State) (v : Bool) (count i : Nat) :
    productList b1 b2 { s with busy := v } count i = productList b1 b2 s count i := by
  induction count generalizing i with
  | zero => rfl
  | succ count ih => simp only [productList, ih, buf_busy]

theorem setBuf_busy (s : State) (b : Buf) (m : Mem 32) (v : Bool) :
    { s with busy := v }.setBuf b m = { s.setBuf b m with busy := v } := by
  cases b <;> rfl

theorem ignoresBusy_padEffect : IgnoresBusy padEffect :=
  .check (fun _ _ => .rfl) (.stop _) <| .check (fun _ _ => .rfl) (.stop _) <|
    .read (fun _ _ => rfl) fun _ => .read (fun _ _ => rfl) fun _ => .write fun _ _ => rfl

theorem ignoresBusy_nttEffect (b : Buf) (d : Dir) : IgnoresBusy (nttEffect b d) :=
  .read (fun _ _ => rfl) fun _ => .read (fun _ _ => rfl) fun _ => .read (fun _ _ => rfl) fun _ =>
    .write fun _ _ => setBuf_busy _ _ _ _

theorem ignoresBusy_pmulEffect (bd b1 b2 : Buf) : IgnoresBusy (pmulEffect bd b1 b2) :=
  .read (fun _ _ => productList_busy _ _ _ _ _ _) fun _ => .write fun _ _ => setBuf_busy _ _ _ _

theorem ignoresBusy_carryEffect (b : Buf) : IgnoresBusy (carryEffect b) :=
  .read (fun _ _ => rfl) fun _ => .read (fun _ _ => rfl) fun _ => .write fun _ _ => rfl

theorem ignoresBusy_parseEffect (k : Numeral) : IgnoresBusy (parseEffect k) :=
  .check (fun _ _ => .rfl) (.stop _) <| .read (fun _ _ => rfl) fun _ => .check (fun _ _ => .rfl) (.stop _) <|
    .check (fun _ _ => .rfl) (.stop _) <| .read (fun _ _ => rfl) fun _ => .write fun _ _ => by cases k <;> rfl

theorem ignoresBusy_renderEffect : IgnoresBusy renderEffect :=
  .read (fun _ _ => rfl) fun _ => .write fun _ _ => rfl

theorem ignoresBusy_convEffect : IgnoresBusy convEffect :=
  ignoresBusy_padEffect.seq <| (ignoresBusy_nttEffect .A .fwd).seq <| (ignoresBusy_nttEffect .B .fwd).seq <|
    (ignoresBusy_pmulEffect .C .A .B).seq <| ignoresBusy_nttEffect .C .inv

theorem ignoresBusy_effect (i : Instr) : IgnoresBusy (effect i) := by
  cases i with
  | nop | ldi _ _ | mred _ _ => exact .write fun _ _ => rfl
  | mpow _ _ _ | minv _ _ | rootw _ _ _ | twid _ _ _ _ => exact .read (fun _ _ => rfl) fun _ => .write fun _ _ => rfl
  | ldw _ _ _ | madd _ _ _ | msub _ _ _ | mmul _ _ _ =>
    exact .read (fun _ _ => rfl) fun _ => .read (fun _ _ => rfl) fun _ => .write fun _ _ => rfl
  | bfly _ _ _ =>
    exact .read (fun _ _ => rfl) fun _ => .read (fun _ _ => rfl) fun _ => .read (fun _ _ => rfl) fun _ =>
      .write fun _ _ => rfl
  | stw _ _ _ =>
    exact .read (fun _ _ => rfl) fun _ => .read (fun _ _ => rfl) fun _ => .write fun _ _ => setBuf_busy _ _ _ _
  | bitrev _ => exact .read (fun _ _ => rfl) fun _ => .write fun _ _ => setBuf_busy _ _ _ _
  | ntt b d => exact ignoresBusy_nttEffect b d
  | setn _ => exact .check (fun _ _ => .rfl) (.stop _) <| .write fun _ _ => rfl
  | pad => exact ignoresBusy_padEffect
  | pmul bd b1 b2 => exact ignoresBusy_pmulEffect bd b1 b2
  | conv => exact ignoresBusy_convEffect
  | carry b => exact ignoresBusy_carryEffect b
  | parse k => exact ignoresBusy_parseEffect k
  | render => exact ignoresBusy_renderEffect
  | mult =>
    exact (ignoresBusy_parseEffect .A).seq <| (ignoresBusy_parseEffect .B).seq <| ignoresBusy_convEffect.seq <|
      (ignoresBusy_carryEffect .C).seq ignoresBusy_renderEffect

/-- A command answers the same whatever BUSY was. -/
theorem exec_busy (i : Instr) (s : State) (v : Bool) : exec i { s with busy := v } = exec i s := by
  rw [exec_eq, exec_eq, ignoresBusy_effect i s v]
  rcases effect i s with (c | f) | t <;> rfl

/-! ### Commands run one after the other as one command (R235, R303) -/

/-- The effects of commands, each on the state the one before left. -/
def effects : List Instr → State → Except Stop State
  | [], s => .ok s
  | i :: is, s => effect i s >>= effects is

/-- The answer of commands run from `s`, read as that of one command: an error has no other effect on `s` (R302). -/
def asOneCommand (s : State) : Result → Result
  | .next t => .next (match t.err with | none => t | some c => raised s c)
  | r => r

/-- A command that ends well hands its effect to the rest, with BUSY cleared; one that stops ends the run. -/
theorem runCommands_cons_of_ok {i : Instr} {is : List Instr} {s t : State} (hs : s.err = none)
    (h : effect i s = .ok t) : runCommands (i :: is) s = runCommands is { t with busy := false } := by
  have ht : t.err = none := (effect_frame h).1.err.trans hs
  rw [runCommands, exec_of_effect_ok h]
  exact if_pos ht

theorem runCommands_cons_of_raise {i : Instr} {is : List Instr} {s : State} {c : ErrCode}
    (h : effect i s = .error (.raise c)) : runCommands (i :: is) s = .next (raised s c) := by
  rw [runCommands, exec_of_effect_raise h]
  rfl

theorem runCommands_cons_of_fault {i : Instr} {is : List Instr} {s : State} {f : Fault}
    (h : effect i s = .error (.fault f)) : runCommands (i :: is) s = .fault f := by
  rw [runCommands, exec_of_effect_fault h]

theorem runCommands_cons_busy (i : Instr) (is : List Instr) (s : State) (v : Bool) :
    runCommands (i :: is) { s with busy := v } = runCommands (i :: is) s := by
  rw [runCommands, exec_busy, runCommands]

/-- Commands run one after the other from `t` end as the one command whose effect is theirs in turn. -/
theorem asOneCommand_runCommands (s : State) (is : List Instr) {t : State} (ht : t.err = none) :
    asOneCommand s (runCommands is { t with busy := false }) = finish s (effects is t) := by
  induction is generalizing t with
  | nil => simp [runCommands, asOneCommand, effects, ht]
  | cons i is ih =>
    rw [runCommands_cons_busy, effects]
    rcases h : effect i t with (c | f) | u
    · rw [runCommands_cons_of_raise h]; rfl
    · rw [runCommands_cons_of_fault h]; rfl
    · rw [runCommands_cons_of_ok ht h, ok_bind, ih ((effect_frame h).1.err.trans ht)]

/-- A command whose effect is that of a sequence answers as the sequence run as one command. -/
theorem exec_eq_asOneCommand {i j : Instr} {is : List Instr} {s : State} (hs : s.err = none)
    (h : effect i s = effects (j :: is) s) : exec i s = asOneCommand s (runCommands (j :: is) s) := by
  rw [exec_eq, h, ← asOneCommand_runCommands s (j :: is) hs, runCommands_cons_busy]

/-- A sequence of one command has that command's effect. -/
theorem effects_singleton (i : Instr) : effects [i] = effect i :=
  funext fun s => bind_pure (effect i s)

theorem convEffect_eq_effects (s : State) :
    convEffect s = effects [.pad, .ntt .A .fwd, .ntt .B .fwd, .pmul .C .A .B, .ntt .C .inv] s := by
  have hlast : effects [.ntt .C .inv] = nttEffect .C .inv := effects_singleton _
  rw [convEffect, ← hlast]
  rfl

/-! ### The statements -/

/-- Settles O40: the products are of the old entries, so the destination may be a source. -/
theorem pmulMultipliesPointwise : Obligations.PmulMultipliesPointwise := by
  intro s bd b1 b2 f g hf hg
  obtain ⟨m, heff, hlo, hhi⟩ := pmulEffect_of_fields (bd := bd) hf hg
  obtain ⟨t, hexec, ht, rfl⟩ := exec_of_effect_setBuf (i := .pmul bd b1 b2) heff
  exact ⟨t, hexec, ht, hlo, hhi⟩

/-- Settles O42: LOGN is the rounded-up logarithm, which fits its 5 bits for a request within N_MAX. -/
theorem setnRoundsUp : Obligations.SetnRoundsUp := by
  refine fun s ra => ⟨fun hle => ⟨_, toNat_lognOf hle, ?_⟩, fun hgt => ?_⟩
  · exact exec_of_effect_ok (i := .setn ra) (setnEffect_eq_ok.2 ⟨hle, rfl⟩)
  · exact exec_of_effect_raise (setnEffect_eq_error.2 ⟨hgt, rfl⟩)

/-- Settles O43: LOGN holds the logarithm of the padded size exactly, so the size is the padded one. -/
theorem padLoadsTheDigitVectors : Obligations.PadLoadsTheDigitVectors := by
  intro s f g hsum hbound hf hg
  obtain ⟨ma, mb, heff, ha, hb, hrest⟩ := padEffect_of_digits hsum hbound hf hg
  refine ⟨_, exec_of_effect_ok heff, rfl, toNat_lognOf hsum, ?_⟩
  rw [size_eq, toNat_lognOf hsum]
  exact ⟨ha, hb, hrest⟩

/-- Settles O44: both size checks come first in PAD, and PAD comes first in CONV. -/
theorem oversizeLengthsRaise : Obligations.OversizeLengthsRaise := by
  intro s h
  have hpad := padEffect_of_oversize h
  exact ⟨exec_of_effect_raise hpad, exec_of_effect_raise (convEffect_of_pad_error hpad)⟩

/-- Settles O45: the transforms turn the pointwise product into the convolution, whose coefficients stay below MOD. -/
theorem convIsTheExactConvolution : Obligations.ConvIsTheExactConvolution := by
  intro s f g hsum hbound hf hg
  obtain ⟨ma, mb, mc, heff, hc⟩ := convEffect_of_digits hsum hbound hf hg
  refine ⟨_, exec_of_effect_ok heff, rfl, toNat_lognOf hsum, ?_⟩
  rw [size_eq, toNat_lognOf hsum]
  exact hc

/-- Settles O46: CONV's effect is that of its five commands in turn. -/
theorem convIsItsSequence : Obligations.ConvIsItsSequence :=
  fun s hs => exec_eq_asOneCommand (i := .conv) hs (convEffect_eq_effects s)

end Sys2Proof.Machine
end

section
/-!
PROOFS of the statements about the carry normalizer (spec/45_carry_normalizer.md R250-R252): how many digits a bounded
carry adds, and that they fit RES; then the statements themselves.
-/

namespace Sys2Proof.Machine

open Sys2Proof

/-! ### The residual carry, for a carry of at most `k` decimal places (R250) -/

/-- A carry of at most `k` decimal places emits at most `k` digits, even where the coefficients alone exceed RES. -/
theorem length_le_of_carryRest_eq_ok {cap fuel i carry k : Nat} {ds : List Nat} (hk : k ≤ fuel) (hc : carry < 10 ^ k)
    (h : carryRest cap fuel i carry = .ok ds) : ds.length ≤ k := by
  obtain ⟨-, rfl | hfit⟩ := carryRest_eq_ok h
  · exact Nat.zero_le k
  · have hfuel : carry < 10 ^ fuel := hc.trans_le (Nat.pow_le_pow_right (by decide) hk)
    rw [carryRest_eq cap fuel i carry hfuel (by omega)] at h
    split at h
    · cases h
      exact (Nat.digits_length_le_iff (by decide) carry).2 hc
    · cases h

/-- Where RES has room for `k` more digits, a carry of at most `k` decimal places does not overflow. -/
theorem lt_of_carryRest_eq_error {cap fuel i carry k : Nat} {e : Stop} (hk : k ≤ fuel) (hc : carry < 10 ^ k)
    (h : carryRest cap fuel i carry = .error e) : cap < i + k := by
  by_contra hroom
  have hfuel : carry < 10 ^ fuel := hc.trans_le (Nat.pow_le_pow_right (by decide) hk)
  have hfit : carry < 10 ^ (cap - i) := hc.trans_le (Nat.pow_le_pow_right (by decide) (by omega))
  rw [carryRest_eq cap fuel i carry hfuel (by omega), if_pos hfit] at h
  cases h

/-! ### The walk over field elements (R251) -/

theorem Mem.fields.allField {m : Mem 32} {n k : Nat} {f : Nat → Nat} (h : m.fields n f) (hk : k ≤ n) :
    AllField ((List.range k).map f) :=
  List.forall_mem_map.2 fun i hi => (h i ((List.mem_range.1 hi).trans_le hk)).1

theorem Mem.fields.carry_le {m : Mem 32} {n k : Nat} {f : Nat → Nat} (h : m.fields n f) (hk : k ≤ n) :
    (carryWalk 0 ((List.range k).map f)).2 ≤ (modulus - 1) / 9 :=
  carryWalk_le 0 _ (h.allField hk) (Nat.zero_le _)

/-- The carry left after all coefficients has at most 9 decimal places. -/
theorem Mem.fields.carry_lt {m : Mem 32} {n : Nat} {f : Nat → Nat} (h : m.fields n f) :
    (carryWalk 0 ((List.range n).map f)).2 < 10 ^ 9 :=
  (h.carry_le le_rfl).trans_lt (by decide)

/-! ### CARRY's result length and its overflow (R250, R251) -/

theorem resLen_le_of_carryEffect_eq_ok {s t : State} {b : Buf} {f : Nat → Nat} (hf : (s.buf b).fields s.size f)
    (h : carryEffect b s = .ok t) : t.resLen.toNat ≤ s.size + 9 := by
  simp only [carryEffect, fieldList_of_fields _ hf, ok_bind, bind_eq_ok, pure_eq_ok, Except.ok.injEq] at h
  obtain ⟨rest, hrest, rfl⟩ := h
  have hlen := length_le_of_carryRest_eq_ok (by decide) hf.carry_lt hrest
  rw [BitVec.toNat_ofNat]
  refine (Nat.mod_le _ _).trans ?_
  rw [List.length_append, carryWalk_length, List.length_map, List.length_range]
  exact Nat.add_le_add_left hlen s.size

theorem resCap_lt_of_carryEffect_eq_error {s : State} {b : Buf} {f : Nat → Nat} {e : Stop}
    (hf : (s.buf b).fields s.size f) (h : carryEffect b s = .error e) : s.cfg.resCap < s.size + 9 := by
  simp only [carryEffect, fieldList_of_fields _ hf, ok_bind, bind_eq_error, pure_eq_ok, reduceCtorEq, and_false,
    exists_false, or_false] at h
  exact lt_of_carryRest_eq_error (by decide) hf.carry_lt h

/-- A size the configuration allows leaves RES room for every digit of the walk (R6). -/
theorem size_le_resCap {s : State} (h : s.logn.toNat ≤ s.cfg.lognMax) : s.size ≤ s.cfg.resCap :=
  (Nat.pow_le_pow_right (by decide) h).trans (Nat.le_succ s.cfg.nMax)

theorem resCap_le_outCap (c : Config) : c.resCap ≤ c.outCap := Nat.le_succ c.resCap

/-! ### The statements -/

/-- Settles O47: a carry of at most (MOD − 1) div 9 has 9 decimal places, so 9 more digits always suffice. -/
theorem carryStaysBelowItsBound : Obligations.CarryStaysBelowItsBound := by
  intro s b f hf
  refine ⟨fun k hk => hf.carry_le hk, fun k hk => ?_, fun t hs hexec => ?_⟩
  · have hcoeff : f k < 2013265921 := (hf k hk).1
    have hcarry : _ ≤ 223696213 := hf.carry_le hk.le
    omega
  · rw [exec_eq, finish_eq_next] at hexec
    obtain ⟨u, hu, rfl⟩ | ⟨c, hc, rfl⟩ := hexec
    · have herr : u.err = none := (effect_frame hu).1.err.trans hs
      have hlen := resLen_le_of_carryEffect_eq_ok hf hu
      exact ⟨fun _ => hlen, fun hover => by simp [herr] at hover⟩
    · exact ⟨nofun, fun _ => resCap_lt_of_carryEffect_eq_error hf hc⟩

/-- Settles O48: a value below 10^RES_CAP has at most RES_CAP digits, so RES_LEN records their number exactly. -/
theorem carryNormalizes : Obligations.CarryNormalizes := by
  intro s b f hl hf
  have hsize := size_le_resCap hl
  obtain ⟨hfits, hoverflow⟩ := carryEffect_of_fields hsize hf
  refine ⟨fun hv => ?_, fun hv => exec_of_effect_raise (hoverflow hv)⟩
  obtain ⟨ds, hdigit, hval, hlen, heff⟩ := hfits hv
  have hcap : ds.length ≤ s.cfg.resCap := hlen ▸ max_le hsize ((Nat.digits_length_le_iff (by decide) _).2 hv)
  have hres : (BitVec.ofNat 32 ds.length).toNat = ds.length := toNat_length (hcap.trans (resCap_le_outCap s.cfg))
  refine ⟨_, (ds.getD · 0), exec_of_effect_ok heff, rfl, hres.trans hlen, ?_⟩
  rw [hres]
  refine ⟨Mem.digits_writeList _ hdigit, (weighted_getD ds).trans hval, fun i hi => ?_⟩
  exact Mem.read_writeList_zero_of_le _ (by simpa using hi)

end Sys2Proof.Machine
end

section
/-!
PROOFS of the statements about the pipeline (spec/46_pipeline.md R270-R273): what a command's success says of its effect,
the numerals MULT reads, and the length of the line it writes; then the statements themselves.
-/

namespace Sys2Proof.Machine

open Sys2Proof

/-! ### Success (R302) -/

/-- A command that ends with ERR = 0 has had its whole effect: an error would have left its code. -/
theorem effect_eq_ok_of_exec {i : Instr} {s t : State} (h : exec i s = .next t) (ht : t.err = none) :
    ∃ u, effect i s = .ok u := by
  rw [exec_eq, finish_eq_next] at h
  obtain ⟨u, hu, -⟩ | ⟨c, -, rfl⟩ := h
  · exact ⟨u, hu⟩
  · cases ht

/-! ### The numerals and their sizes (R230, R272) -/

/-- A numeral spells the same digits wherever the same bytes and length stand. -/
theorem State.spells.congr {s s' : State} {k k' : Numeral} {cs : List Nat} (h : s.spells k cs)
    (hmem : s'.inMem k' = s.inMem k) (hlen : s'.inLen k' = s.inLen k) : s'.spells k' cs := by
  unfold State.spells
  rwa [hmem, hlen]

/-- `next_pow2(n) ≤ N_MAX` asks no more than `n ≤ N_MAX`, since N_MAX is a power of two. -/
theorem two_pow_clog_le_nMax {c : Config} {n : Nat} : 2 ^ Nat.clog 2 n ≤ c.nMax ↔ n ≤ c.nMax :=
  (Nat.pow_le_pow_iff_right (by decide)).trans clog_le_lognMax

/-! ### The line of the product (R271) -/

theorem numeralValue_mul_lt {cs ds : List Nat} (hc : ∀ c ∈ cs, c ≤ 9) (hd : ∀ d ∈ ds, d ≤ 9) :
    numeralValue cs * numeralValue ds < 10 ^ (cs.length + ds.length) := by
  rw [pow_add]
  exact Nat.mul_lt_mul'' (numeralValue_lt hc) (numeralValue_lt hd)

/-- The line of a product whose lengths fit N_MAX fits OUT. -/
theorem productLine_length_le_outCap {c : Config} {cs ds : List Nat} (hc : ∀ d ∈ cs, d ≤ 9) (hd : ∀ d ∈ ds, d ≤ 9)
    (hn : cs.length + ds.length ≤ c.nMax) :
    (decimalLine (numeralValue cs * numeralValue ds)).length ≤ c.outCap := by
  have hline := decimalLine_length_le (numeralValue_mul_lt hc hd)
  have hout : c.outCap = c.nMax + 2 := rfl
  omega

/-! ### MULT as a sequence (R270) -/

theorem multEffect_eq_effects (s : State) :
    multEffect s = effects [.parse .A, .parse .B, .conv, .carry .C, .render] s := by
  have hlast : effects [.render] = renderEffect := effects_singleton _
  rw [multEffect, ← hlast]
  rfl

/-! ### The statements -/

/-- Settles O52: the product has at most as many digits as both numerals together, so OUT_LEN records its line exactly. -/
theorem multWritesTheProduct : Obligations.MultWritesTheProduct := by
  intro s cs ds hc hd hsum hbound
  obtain ⟨u, heff, hframe⟩ := multEffect_of_spells hc hd hsum hbound
  obtain ⟨-, hcdigits, -⟩ := hc
  obtain ⟨-, hddigits, -⟩ := hd
  rw [hframe] at heff
  refine ⟨_, exec_of_effect_ok (i := .mult) heff, rfl, rfl, rfl, Mem.startsWith_writeList _ _, ?_, rfl⟩
  exact toNat_length (productLine_length_le_outCap hcdigits hddigits hsum)

/-- Settles O53: MULT's effect ends well only within the bounds, and within them O52 gives the end state. -/
theorem multSucceedsExactlyWhen : Obligations.MultSucceedsExactlyWhen := by
  intro s hs
  constructor
  · rintro ⟨t, hexec, ht⟩
    obtain ⟨u, hu⟩ := effect_eq_ok_of_exec hexec ht
    obtain ⟨cs, ds, hc, hd, hcapA, hcapB, hsum, hbound⟩ := multEffect_eq_ok hu
    exact ⟨cs, ds, hc, hd, hcapA, hcapB, two_pow_clog_le_nMax.2 hsum, hbound⟩
  · rintro ⟨cs, ds, hc, hd, -, -, hsize, hbound⟩
    obtain ⟨t, hexec, herr, -⟩ := multWritesTheProduct s cs ds hc hd (two_pow_clog_le_nMax.1 hsize) hbound
    exact ⟨t, hexec, herr.trans hs⟩

/-- Settles O54: MULT's effect is that of its five commands in turn. -/
theorem multIsItsSequence : Obligations.MultIsItsSequence :=
  fun s hs => exec_eq_asOneCommand (i := .mult) hs (multEffect_eq_effects s)

/-- Settles O56: both runs write the line of one product, whose factors only change places. -/
theorem multCommutes : Obligations.MultCommutes := by
  intro s s' t hcfg hs hs' hA hB hlenA hlenB hexec ht
  obtain ⟨u, hu⟩ := effect_eq_ok_of_exec hexec ht
  obtain ⟨cs, ds, hc, hd, -, -, hsum, hbound⟩ := multEffect_eq_ok hu
  obtain ⟨t₁, hexec₁, -, -, -, hout, hlen, -⟩ := multWritesTheProduct s cs ds hc hd hsum hbound
  obtain rfl : t₁ = t := Host.Outcome.next.inj (hexec₁.symm.trans hexec)
  obtain ⟨t', hexec', herr', -, -, hout', hlen', -⟩ :=
    multWritesTheProduct s' ds cs (hd.congr hA hlenA) (hc.congr hB hlenB) (by rw [← hcfg]; omega)
      (by rw [min_comm]; exact hbound)
  rw [mul_comm] at hout' hlen'
  refine ⟨t', hexec', herr'.trans hs', BitVec.eq_of_toNat_eq (hlen'.trans hlen.symm), fun i hi => ?_⟩
  rw [hlen] at hi
  exact (hout' i hi).trans (hout i hi).symm

end Sys2Proof.Machine
end

section
/-!
PROOFS of the statements about errors (spec/60_exceptions.md R300-R303): the two ways a command can give a next state, which
code its effect can stop with, and the sequencer's turn after an error; then the statements themselves.
-/

namespace Sys2Proof.Machine

open Sys2Proof

/-! ### The next state of a command (R100, R302) -/

/-- A command gives a next state by ending its whole effect, or by stopping it with an error code. -/
theorem exec_eq_next {i : Instr} {s t : State} : exec i s = .next t ↔
    (∃ u, effect i s = .ok u ∧ t = { u with busy := false }) ∨
      ∃ c, effect i s = .error (.raise c) ∧ t = raised s c := by
  rw [exec_eq]
  exact finish_eq_next

theorem busy_of_exec {i : Instr} {s t : State} (h : exec i s = .next t) : t.busy = false := by
  obtain ⟨u, -, rfl⟩ | ⟨c, -, rfl⟩ := exec_eq_next.1 h <;> rfl

/-- An effect that ends well touches neither field of STATUS that records an error. -/
theorem effect_keeps_errors {i : Instr} {s u : State} (h : effect i s = .ok u) :
    u.err = s.err ∧ u.errOp = s.errOp := by
  obtain ⟨hfixed, -⟩ := effect_frame h
  exact ⟨hfixed.err, hfixed.errOp⟩

/-- The effect of a command stops with no code but those R300 lists for it. -/
theorem mayRaise_of_effect_raise {i : Instr} {s : State} {c : ErrCode} (h : effect i s = .error (.raise c)) :
    mayRaise c i = true := by
  obtain ⟨c', hc, hmay⟩ | ⟨f, hf, -⟩ := effect_stops h
  · cases hc; exact hmay
  · cases hf

/-! ### The sequencer after an error (R303) -/

theorem sequencerTurn_of_err {s : State} (hb : s.busy = true) (he : s.err ≠ none) :
    sequencerTurn s = .next { s with busy := false } := by
  obtain ⟨c, hc⟩ := Option.ne_none_iff_exists'.1 he
  simp [sequencerTurn, runPending, hb, hc]

/-- Whatever a turn of the sequencer does, it leaves BUSY at 0. -/
theorem busy_of_sequencerTurn {s t : State} (h : sequencerTurn s = .next t) : t.busy = false := by
  obtain ⟨hb, rfl⟩ | ⟨-, -, rfl⟩ | ⟨-, -, rfl | ⟨i, -, hi⟩⟩ := sequencerTurn_eq_next h
  · exact hb
  · rfl
  · rfl
  · exact busy_of_exec hi

/-! ### The statements -/

/-- Settles O10: ERR is tested before the decoder, and the decoder takes exactly the legal words. -/
theorem sequencerTakesTheLatchedWord : Obligations.SequencerTakesTheLatchedWord := by
  intro s hb
  refine ⟨sequencerTurn_of_err hb, fun he hill => ?_, fun he hlegal => ?_, fun t => busy_of_sequencerTurn⟩
  · obtain ⟨e, hd⟩ := legal_eq_false_iff.1 hill
    exact sequencerTurn_of_illegal hb he hd
  · obtain ⟨i, hd⟩ := legal_iff_decode.1 hlegal
    exact ⟨i, hd, sequencerTurn_of_legal hb he hd⟩

/-- Settles O57: an effect that ends well leaves the error fields alone, and one that stops is discarded whole. -/
theorem errorsArePrecise : Obligations.ErrorsArePrecise := by
  intro i s t h
  obtain ⟨u, hu, rfl⟩ | ⟨c, -, rfl⟩ := exec_eq_next.1 h
  · obtain ⟨herr, hop⟩ := effect_keeps_errors hu
    exact .inl ⟨herr, hop⟩
  · exact .inr ⟨c, rfl⟩

/-- Settles O58: from ERR = 0 a code can only be the one the command's effect stopped with. -/
theorem eachErrorHasItsRaisers : Obligations.EachErrorHasItsRaisers := by
  refine ⟨fun i s t c hs h ht => ?_, rfl⟩
  obtain ⟨u, hu, rfl⟩ | ⟨c', hc', rfl⟩ := exec_eq_next.1 h
  · obtain ⟨herr, -⟩ := effect_keeps_errors hu
    exact absurd (ht.symm.trans (herr.trans hs)) (Option.some_ne_none c)
  · obtain rfl : c' = c := Option.some.inj ht
    exact mayRaise_of_effect_raise hc'

end Sys2Proof.Machine
end

section
/-!
PROOFS of the statements about reset and hazards (spec/70_reset_and_hazards.md R340-R344): what the reset state holds, what a
numeral's bytes alone decide, and where a command can stop; then the statements themselves.
-/

namespace Sys2Proof.Machine

open Sys2Proof

/-! ### The reset state (R340, R341) -/

@[simp] theorem reg_resetWith (c : Config) (k : Reg) : (State.resetWith c).reg k = 0 := Vector.getElem_replicate k.isLt

@[simp] theorem element_resetWith (c : Config) (m : MemId) (i : Nat) : (State.resetWith c).element m i = none := by
  cases m <;> rfl

@[simp] theorem statusWord_resetWith (c : Config) : (State.resetWith c).statusWord = 0 := by
  simp [State.statusWord, State.errField, State.resetWith]

@[simp] theorem size_resetWith (c : Config) : (State.resetWith c).size = 1 := rfl

/-- N_MAX fits the word NMAX reads. -/
theorem toNat_ctrlWord_nmax (s : State) : (s.ctrlWord .nmax).toNat = s.cfg.nMax := by
  have hle := nMax_le s.cfg
  exact Nat.mod_eq_of_lt (by omega)

/-- TWROM holds the exact stage roots up to LOGN_MAX and 0 above, in every state (R44). -/
theorem targetWord_rom (s : State) (d : Dir) (k : Nat) :
    s.targetWord (.rom d k) = .ok (if k ≤ s.cfg.lognMax then BitVec.ofNat 32 (rootOfUnity k d) else 0) := by
  rw [State.targetWord, twiddleRom, stageRoot_eq]
  split <;> rfl

/-! ### What decides a numeral (R73, R344) -/

/-- A numeral spells the same digits wherever its length and the bytes below it are the same. -/
theorem State.spells.congr_bytes {s s' : State} {k : Numeral} {cs : List Nat} (h : s.spells k cs)
    (hlen : s'.inLen k = s.inLen k) (hbytes : ∀ i < (s.inLen k).toNat, (s'.inMem k).read i = (s.inMem k).read i) :
    s'.spells k cs := by
  obtain ⟨hpos, hdigit, hread, hend⟩ := h
  refine ⟨hpos, hdigit, fun i hi => ?_, ?_⟩
  · rw [hbytes i (by omega)]
    exact hread i hi
  · rw [hlen]
    refine hend.imp_right fun ⟨hlf, hlast⟩ => ⟨hlf, ?_⟩
    rw [hbytes cs.length (by omega)]
    exact hlast

/-! ### The statements -/

/-- Settles O55: the bytes of both numerals spell the same digits, and both runs write the line of their product. -/
theorem multDependsOnlyOnTheNumerals : Obligations.MultDependsOnlyOnTheNumerals := by
  intro s s' t hcfg hs hs' hsame hexec ht
  obtain ⟨hlenA, hA⟩ := hsame .A
  obtain ⟨hlenB, hB⟩ := hsame .B
  obtain ⟨u, hu⟩ := effect_eq_ok_of_exec hexec ht
  obtain ⟨cs, ds, hc, hd, -, -, hsum, hbound⟩ := multEffect_eq_ok hu
  obtain ⟨t₁, hexec₁, -, -, -, hout, hlen, -⟩ := multWritesTheProduct s cs ds hc hd hsum hbound
  obtain rfl : t₁ = t := Host.Outcome.next.inj (hexec₁.symm.trans hexec)
  obtain ⟨t', hexec', herr', -, -, hout', hlen', -⟩ :=
    multWritesTheProduct s' cs ds (hc.congr_bytes hlenA hA) (hd.congr_bytes hlenB hB) (hcfg ▸ hsum) hbound
  refine ⟨t', hexec', herr'.trans hs', BitVec.eq_of_toNat_eq (hlen'.trans hlen.symm), fun i hi => ?_⟩
  rw [hlen] at hi
  exact (hout' i hi).trans (hout i hi).symm

/-- Settles O60: a fault of a command is that of its effect, which stops so only at an unwritten element, and no effect's
end is a refusal. -/
theorem commandsStopOnlyOnUnwrittenReads : Obligations.CommandsStopOnlyOnUnwrittenReads := by
  refine fun i s => ⟨fun f h => ?_, fun r h => ?_⟩ <;> rw [exec_eq] at h
  · obtain ⟨c, hc, -⟩ | ⟨g, hg, hunwritten⟩ := effect_stops (finish_eq_fault.1 h)
    · cases hc
    · cases hg; exact hunwritten
  · exact finish_ne_refused _ _ _ h

/-- Settles O6: each register is a field of the reset state, and NSIZE follows from LOGN. -/
theorem resetValues : Obligations.ResetValues := by
  intro c
  refine ⟨fun k => by simp, rfl, rfl, rfl, toNat_ctrlWord_nmax _, statusWord_resetWith c, rfl, rfl, rfl, rfl, rfl, rfl, rfl,
    ?_, rfl, rfl, rfl, rfl, rfl, rfl⟩
  rw [State.ctrlWord, size_resetWith]; rfl

/-- Settles O7: no element of the reset state is written, the ROM is no part of the state, and a reset turn is `powerOn`. -/
theorem resetEventAndMemories : Obligations.ResetEventAndMemories := by
  refine ⟨fun c m i d k => ⟨?_, targetWord_rom _ d k⟩, fun s rest h => step_of_todo h⟩
  exact targetWord_elem_of_unwritten (element_resetWith c m i)

end Sys2Proof.Machine
end
